-- ==== Sys2Proof/Word.lean ====
section
/-!
DEFINITION. The word types of the controller (00_scope.md sections 5 and 6: every register is a byte unless its rule
says otherwise, CNT, COUNT and lengths are 16 bits, device addresses 7 bits, frequencies 32 bits).
-/
namespace Sys2Proof

/-- A byte: one register, one buffer element, one bus transfer (rule R63). -/
abbrev Byte := BitVec 8

/-- A DeviceAddress (rule R31). -/
abbrev Addr7 := BitVec 7

/-- CNT, COUNT, RXLEN, IDX and list lengths (00_scope.md section 6). -/
abbrev Half := BitVec 16

/-- A frequency in hertz, F_BUS and F_CORE (rule R31). -/
abbrev Hertz := BitVec 32

end Sys2Proof
end

