-- ==== Sys2Proof/Config.lean ====
section
/-!
DEFINITION. The names the spec enumerates, the configuration record of rule R7, and the free values: constants
without a body, of which nothing can be proved.
-/
namespace Sys2Proof

/-- BusStatus: exactly the 11 values of rule R85. -/
inductive BusStatus where
  | idle | start | restart
  | addrWAck | addrWNack | dataWAck | dataWNack
  | addrRAck | addrRNack | dataRMore | dataRLast
deriving DecidableEq, Repr

/-- The backend of the Status Latch, rule R30. -/
inductive Mode where
  | poll | irq
deriving DecidableEq, Repr

/-- The acknowledge bit of a byte (00_scope.md section 8). -/
inductive Ack where
  | ack | nack
deriving DecidableEq, Repr

/-- The five result kinds of rule R87. -/
inductive ResultKind where
  | ok | timeout | addressNack | dataNack | precondition
deriving DecidableEq, Repr

/-- LAYOUT of rule R7: bit positions in the control and the status register. -/
structure Layout where
  crInt : Fin 8
  crEa  : Fin 8
  crSta : Fin 8
  crSto : Fin 8
  crEn  : Fin 8
  crIe  : Fin 8
  /-- the highest and the lowest bit of `SR_STATUS` -/
  srStatusHi : Fin 8
  srStatusLo : Fin 8
  /-- the lower bit of the two-bit field `SR_PS` -/
  srPsLo : Fin 7
deriving DecidableEq, Repr

/-- CODES of rule R7: the numeric code of each BusStatus, in the order of rule R85. -/
structure Codes where
  idle : Byte
  start : Byte
  restart : Byte
  addrWAck : Byte
  addrWNack : Byte
  dataWAck : Byte
  dataWNack : Byte
  addrRAck : Byte
  addrRNack : Byte
  dataRMore : Byte
  dataRLast : Byte
deriving DecidableEq, Repr

/-- The configuration record of rule R7. `BRR_WIDTH`, `CNT_WIDTH` and `ERRCODES` are the fixed widths and codes of
`Machine.State` and `ResultKind.code`. -/
structure Params where
  layout : Layout
  statusMask : Byte
  codes : Codes
  /-- TIMEOUT_BUDGET: maximum samples per wait, rule R27; 16 bits keep it below `2 ^ CNT_WIDTH` -/
  timeoutBudget : Half
  /-- NACK_CLASSIFY, rule R117 -/
  nackClassify : Bool
  /-- MAX_LEN, rule R185 -/
  maxLen : Half
deriving DecidableEq, Repr

/-- One step of an agent that is not the controller half (rule R9). A move whose agent is not enabled does nothing. -/
inductive EnvMove where
  /-- the engine completes the event in flight; the slave side answers `k` to a byte sent and sends `d` when a byte is
  received (rules R137 to R144) -/
  | complete (k : Ack) (d : Byte)
  /-- the stop condition is on the wires and the stop flag clears itself (rules R20, R135) -/
  | stopDone
  /-- the capture step (rule R112) -/
  | capture
  /-- the surrounding system sets GIE (rules R28, R259) -/
  | setGie (on : Bool)
  /-- the reset input is asserted: the controller half does not reach its next micro-step (rule R250) -/
  | reset
deriving DecidableEq, Repr

/-- The moves other agents make between two consecutive micro-steps of the controller half: finitely many, in order
(rules R9 and R71). -/
abbrev Gap := List EnvMove

/-- Whether a move asserts the reset input (rule R250). -/
def EnvMove.isReset : EnvMove → Bool
  | .complete _ _ => false
  | .stopDone => false
  | .capture => false
  | .setGie _ => false
  | .reset => true

namespace Config

/-- FREE VALUE (log 3): the TIMEOUT_BUDGET of the machine `State.reset` starts, OPEN in rule R7. -/
opaque timeoutBudget : Half

/-- FREE VALUE (log 3): its NACK_CLASSIFY, OPEN in rule R7. -/
opaque nackClassify : Bool

/-- FREE VALUE (log 3): its MAX_LEN less one, OPEN in rule R7 with `1 <= MAX_LEN <= 65535`. -/
opaque maxLenLessOne : Fin 65535

/-- FREE VALUE (log 2): the `n`-th gap drawn when nothing is planned: any moves of the other agents, any answers of
the slave side (rules R9, R119, R144, R145). -/
opaque freeGap (n : Nat) : Gap

/-- FREE VALUE (log 7): the `n`-th byte of RXBUF after a failed READ, 93_implementation_defined.md U8. -/
opaque freeByte (n : Nat) : Byte

end Config

end Sys2Proof
end

