-- ==== Sys2Proof/Machine/Params.lean ====
section
/-!
DEFINITION. The values rule R7 fixes, the constraints of rule R8, and the status and result codes of rules R85 and R87.
-/
namespace Sys2Proof

/-- The numeric code of a BusStatus under a configuration (rule R85). -/
def Codes.code (c : Codes) : BusStatus → Byte
  | .idle => c.idle
  | .start => c.start
  | .restart => c.restart
  | .addrWAck => c.addrWAck
  | .addrWNack => c.addrWNack
  | .dataWAck => c.dataWAck
  | .dataWNack => c.dataWNack
  | .addrRAck => c.addrRAck
  | .addrRNack => c.addrRNack
  | .dataRMore => c.dataRMore
  | .dataRLast => c.dataRLast

/-- The 11 codes in the order of rule R85. -/
def Codes.all (c : Codes) : List Byte :=
  [c.idle, c.start, c.restart, c.addrWAck, c.addrWNack, c.dataWAck, c.dataWNack,
    c.addrRAck, c.addrRNack, c.dataRMore, c.dataRLast]

/-- The numeric code of a result kind, ERRCODES (rule R87). -/
def ResultKind.code : ResultKind → BitVec 3
  | .ok => 0
  | .timeout => 1
  | .addressNack => 2
  | .dataNack => 3
  | .precondition => 4

/-- The LAYOUT of rule R7. PRESUMED (log 18): the spec takes the positions from general knowledge. -/
def Layout.default : Layout where
  crInt := 7
  crEa := 6
  crSta := 5
  crSto := 4
  crEn := 2
  crIe := 0
  srStatusHi := 7
  srStatusLo := 3
  srPsLo := 0

/-- The CODES of rules R7 and R85. PRESUMED (log 18): the spec takes the numbers from general knowledge. -/
def Codes.default : Codes where
  idle := 0xF8
  start := 0x08
  restart := 0x10
  addrWAck := 0x18
  addrWNack := 0x20
  dataWAck := 0x28
  dataWNack := 0x30
  addrRAck := 0x40
  addrRNack := 0x48
  dataRMore := 0x50
  dataRLast := 0x58

/-- A configuration with the values rule R7 fixes and the three it leaves open as arguments. -/
def Params.fixed (timeoutBudget : Half) (nackClassify : Bool) (maxLen : Half) : Params where
  layout := .default
  statusMask := 0xF8
  codes := .default
  timeoutBudget := timeoutBudget
  nackClassify := nackClassify
  maxLen := maxLen

/-- The configuration of the machine `State.reset` starts: rule R7's values, the open ones free (log 3). -/
def Params.ofConfig : Params :=
  .fixed Config.timeoutBudget Config.nackClassify (BitVec.ofNat 16 (Config.maxLenLessOne.val + 1))

/-- Rule R8, first clause: the six control-register positions are pairwise distinct. -/
def Layout.distinct (l : Layout) : Bool :=
  decide [l.crInt, l.crEa, l.crSta, l.crSto, l.crEn, l.crIe].Nodup

/-- Rule R8, third clause: the mask has a 1 exactly at the `SR_STATUS` bits. -/
def Params.maskExact (p : Params) : Bool :=
  (List.finRange 8).all fun i =>
    p.statusMask.getLsbD i.val == (decide (p.layout.srStatusLo ≤ i) && decide (i ≤ p.layout.srStatusHi))

/-- Rule R8, second clause: `SR_STATUS` and `SR_PS` do not overlap. -/
def Params.psApart (p : Params) : Bool :=
  p.statusMask &&& (0x03#8 <<< p.layout.srPsLo.val) == 0

/-- Rule R8, last clauses: the codes are pairwise distinct and the mask leaves each as it is. -/
def Params.codesFit (p : Params) : Bool :=
  decide p.codes.all.Nodup && p.codes.all.all fun c => c &&& p.statusMask == c

/-- What every configuration must satisfy (rule R8, and rule R7's bound on MAX_LEN). -/
def Params.wf (p : Params) : Bool :=
  p.layout.distinct && p.maskExact && p.psApart && p.codesFit && decide (1 ≤ p.maxLen.toNat)

end Sys2Proof
end

