-- ==== Sys2Proof/Syntax.lean ====
section
/-!
DEFINITION. The ten commands of rule R89, one constructor per row of spec/opcode_table.json, and their names.
-/
namespace Sys2Proof

/-- The command names of rule R89: what an opcode byte selects and what `SEQ.OP` holds. -/
inductive Opcode where
  | start | restart | stop | addrW | addrR | dataW | dataR | init | read | write
deriving DecidableEq, Repr

/-- A decoded command (rule R89): "A model should take the decoded command as primary and the packet as transport". -/
inductive Instr where
  | start
  | restart
  | stop
  | addrW (a : Addr7)
  | addrR (a : Addr7)
  | dataW (d : Byte)
  /-- `more` is the source's `expect_more` -/
  | dataR (more : Bool)
  | init (mode : Mode) (bus core : Hertz)
  | read (a : Addr7) (r : Byte) (n : Half)
  | write (a : Addr7) (r : Byte) (bytes : List Byte)
deriving DecidableEq, Repr

/-- The command name of a decoded command. -/
def Instr.opcode : Instr → Opcode
  | .start => .start
  | .restart => .restart
  | .stop => .stop
  | .addrW _ => .addrW
  | .addrR _ => .addrR
  | .dataW _ => .dataW
  | .dataR _ => .dataR
  | .init _ _ _ => .init
  | .read _ _ _ => .read
  | .write _ _ _ => .write

end Sys2Proof
end

