-- ==== Sys2Proof/Machine/State.lean ====
section
/-!
DEFINITION. The state of the controller as plain data: every element of 10_state.md (rules R20 to R41), and, kept apart
in `Env` and the two ports, what rule R40 makes a parameter of the step relation.
-/
namespace Sys2Proof.Machine

/-- CR, the bus control register (rule R20), by its six named bits; the two reserved bits read 0 and are not stored. -/
structure Control where
  /-- the interrupt flag: 1 from a post until the next write with INTC -/
  int : Bool
  /-- enable auto-acknowledge -/
  ea : Bool
  /-- issue start -/
  sta : Bool
  /-- issue stop: 1 until the stop condition has been generated -/
  sto : Bool
  /-- enable peripheral -/
  en : Bool
  /-- enable interrupt -/
  ie : Bool
deriving DecidableEq, Repr

/-- SR, the bus status register (rule R21): the masked status code and the prescaler select. -/
structure Status where
  status : Byte
  ps : BitVec 2
deriving DecidableEq, Repr

/-- The bus event in flight (rule R37), with the byte or the answer latched at its launch. -/
inductive BusEvent where
  | genStart
  | genRestart
  | txAddr (b : Byte)
  | txData (b : Byte)
  | rxData (answer : Ack)
deriving DecidableEq, Repr

/-- A bus symbol of TRACE (rule R41). -/
inductive Sym where
  /-- a start condition -/
  | s
  /-- a repeated start condition -/
  | sr
  /-- a stop condition -/
  | p
  | tx (b : Byte) (k : Ack)
  | rx (b : Byte) (k : Ack)
deriving DecidableEq, Repr

/-- SEQ.STEP (rules R33, R186): the named steps of READ and WRITE; `single` is the one step of every other command. -/
inductive SeqStep where
  | single
  | rd1 | rd2 | rd3 | rd4 | rd5 | rd6 | rd7 | rd8 | rdf
  | wr1 | wr2 | wr3 | wr4 | wr5 | wrf
deriving DecidableEq, Repr

/-- SEQ, the sequencer position (rule R33). -/
structure Seq where
  /-- the command being executed, none for NONE -/
  op : Option Opcode
  step : SeqStep
  idx : Half
deriving DecidableEq, Repr

/-- THE MODEL'S OWN FIELDS (log 2, log 3, log 13, log 16): the parameters of the step relation of rule R40, which the
fixed form of `step` has no argument for, and the two inputs of the outside world. -/
structure Env where
  /-- the configuration record of rule R7; no step changes it -/
  cfg : Params
  /-- the gaps of the coming micro-steps, next first: the schedule and the slave side's answers -/
  plan : List Gap
  /-- how many free values have been drawn -/
  draws : Nat
  /-- whether the surrounding system may change GIE: the premise of rule R259 -/
  hostGie : Bool
  /-- whether the reset input may be asserted inside a gap: a premise as data, like `hostGie` (log 13) -/
  mayReset : Bool
  /-- the reset input of rule R250 as a step finds it -/
  resetLine : Bool
deriving DecidableEq, Repr

/-- The state of the controller. -/
structure State where
  /-- CR, rule R20 -/
  cr : Control
  /-- SR, rule R21 -/
  sr : Status
  /-- DR, rule R22 -/
  dr : Byte
  /-- BRR, rule R23 -/
  brr : Byte
  /-- LATCH, rule R25 -/
  latch : Byte
  /-- CNT, rule R26 -/
  cnt : Half
  /-- GIE, rule R28 -/
  gie : Bool
  /-- INITED, rule R29 -/
  inited : Bool
  /-- MODE, rule R30 -/
  mode : Mode
  /-- ADDR, rule R31 -/
  addr : Addr7
  /-- REG, rule R31 -/
  reg : Byte
  /-- COUNT, rule R31 -/
  count : Half
  /-- TXBUF, rule R31 -/
  txbuf : List Byte
  /-- DATA, rule R31 -/
  data : Byte
  /-- MORE, rule R31 -/
  more : Bool
  /-- F_BUS, rule R31 -/
  fBus : Hertz
  /-- F_CORE, rule R31 -/
  fCore : Hertz
  /-- RXBUF, rule R32 -/
  rxbuf : List Byte
  /-- RXLEN, rule R32 -/
  rxlen : Half
  /-- SEQ, rule R33 -/
  seq : Seq
  /-- ERR, rule R34 -/
  err : ResultKind
  /-- PHASE, rule R35 -/
  phase : BusStatus
  /-- OWN, rule R36 -/
  own : Bool
  /-- PENDING, rule R37; none for NONE -/
  pending : Option BusEvent
  /-- CAP_PEND, rule R38 -/
  capPend : Bool
  /-- TRACE, rule R41, oldest first -/
  trace : List Sym
  /-- the command port (rule R88): bytes sent and not yet consumed, next first (log 14) -/
  port : List Byte
  /-- the response packet last sent (rule R90; log 14) -/
  response : List Byte
  /-- the parameters of the step relation (rule R40) -/
  env : Env
deriving DecidableEq, Repr

/-- There is no fault: "No error is ever fatal ... never a crash or unrecoverable halt" (rule R220; log 21). -/
inductive Fault where
deriving DecidableEq, Repr

/-- Why the model gives a step no meaning. Every one is safe: nothing is claimed of what the hardware then does. -/
inductive Refusal where
  /-- raised by an arm of `exec` whose instruction has no meaning yet; safe -/
  | notModelled (mnemonic : String)
  /-- raised by every command that finds BUSY = 1 (rule R255; U1, U3); safe -/
  | commandWhileBusy
  /-- raised by INIT when INITED = 1 (rule R207; U4); safe -/
  | secondInit
  /-- raised by a control write that continues when PHASE has no continuation (rules R136, R148; U5); safe -/
  | unspecifiedContinue
  /-- raised by a control write with both start and stop (rule R148; U10); safe -/
  | startWithStop
  /-- raised by a control write with EN = 0 (rule R152; U11); safe -/
  | peripheralDisable
  /-- raised by a DR write while an event is in flight (rule R151; U5); safe -/
  | dataWriteInFlight
deriving DecidableEq, Repr

/-- Reset under a configuration (rules R42, R250, R251). The registers the table leaves unspecified (DR and the operand
registers) hold 0 (DESIGN CHOICE, log 4), SEQ.STEP is the single step (DESIGN CHOICE, log 5); the model's own fields say
that nothing has been sent and nothing is planned (log 2, log 14). -/
def State.resetFor (cfg : Params) : State where
  cr := { int := false, ea := false, sta := false, sto := false, en := false, ie := false }
  sr := { status := cfg.codes.code .idle, ps := 0 }
  dr := 0
  brr := 0
  latch := cfg.codes.code .idle
  cnt := 0
  gie := false
  inited := false
  mode := .poll
  addr := 0
  reg := 0
  count := 0
  txbuf := []
  data := 0
  more := false
  fBus := 0
  fCore := 0
  rxbuf := []
  rxlen := 0
  seq := { op := none, step := .single, idx := 0 }
  err := .ok
  phase := .idle
  own := false
  pending := none
  capPend := false
  trace := []
  port := []
  response := []
  env := { cfg := cfg, plan := [], draws := 0, hostGie := true, mayReset := true, resetLine := false }

/-- The machine right after reset: rule R42 under rule R7's configuration, its open parameters free (log 3). -/
def State.reset : State := .resetFor .ofConfig

end Sys2Proof.Machine
end

