-- ==== Sys2Proof/Machine/Operands.lean ====
section
/-!
DEFINITION. The bytes the commands are made of: the address frame (rules R80, R81), the divisor and its clamp (rules
R201, R202, R150), and the response packets (rule R90).
-/
namespace Sys2Proof.Machine

/-- The direction flag of rule R81. -/
inductive Direction where
  | write | read
deriving DecidableEq, Repr

/-- 0 write-intent, 1 read-intent (rule R81). -/
def Direction.bit : Direction → Byte
  | .write => 0
  | .read => 1

/-- The address frame `(zext_8(a) << 1) | d` of rule R80. -/
def frame (a : Addr7) (d : Direction) : Byte := (a.zeroExtend 8 <<< 1) ||| d.bit

/-- The divisor before the clamp, on unbounded integers with division truncating toward zero (rule R201). -/
def rawDivisor (core bus : Hertz) : Int :=
  (((core.toNat : Int).tdiv (bus.toNat : Int)) - 16).tdiv 2

/-- The clamp to `BRR_WIDTH` = 8 bits, saturating at both ends (rule R202). -/
def clampByte (d : Int) : Byte :=
  if d < 0 then 0
  else if 255 < d then 255
  else BitVec.ofNat 8 d.toNat

/-- The value INIT writes to BRR (rules R201, R202). -/
def divisor (core bus : Hertz) : Byte := clampByte (rawDivisor core bus)

/-- Core clock cycles per bus clock period, `16 + 2 * BRR * 4 ^ PS` (rules R150, R96). Informative: no rule of the
machine reads it. -/
def coreCyclesPerBit (brr : Byte) (ps : BitVec 2) : Nat := 16 + 2 * brr.toNat * 4 ^ ps.toNat

/-- Byte 0 of a response packet: the result code in bits 2 to 0 (rule R90). -/
def resultByte (r : ResultKind) : Byte := r.code.zeroExtend 8

/-- A response packet: the result byte and what follows it (rule R90). -/
def responsePacket (r : ResultKind) (after : List Byte) : List Byte := resultByte r :: after

/-- What follows the result byte of a READ that ended with OK: the count, then the bytes read (rule R90). -/
def readPayload (n : Half) (bytes : List Byte) : List Byte :=
  n.extractLsb' 0 8 :: n.extractLsb' 8 8 :: bytes

end Sys2Proof.Machine
end

