-- ==== Sys2Proof/Machine/Flags.lean ====
section
/-!
DEFINITION. The control register's bits and patterns (rules R20, R82, R83, R204), the status register's bits and mask
(rules R21, R86), and which status an event posts (rules R137 to R141). The controller has no arithmetic flags (rule R39).
-/
namespace Sys2Proof.Machine

/-- `bit(p)` of 00_scope.md section 5, if `on`. -/
def bitAt (p : Fin 8) (on : Bool) : Byte := if on then 1#8 <<< p.val else 0

/-- The byte with exactly the named bits set, at the positions of LAYOUT; reserved bits are 0 (rule R20). -/
def Control.byte (l : Layout) (c : Control) : Byte :=
  bitAt l.crInt c.int ||| bitAt l.crEa c.ea ||| bitAt l.crSta c.sta |||
    bitAt l.crSto c.sto ||| bitAt l.crEn c.en ||| bitAt l.crIe c.ie

/-- The named bits of a byte written to CR; the reserved bits are ignored (rule R20). -/
def Control.ofByte (l : Layout) (v : Byte) : Control where
  int := v.getLsbD l.crInt.val
  ea := v.getLsbD l.crEa.val
  sta := v.getLsbD l.crSta.val
  sto := v.getLsbD l.crSto.val
  en := v.getLsbD l.crEn.val
  ie := v.getLsbD l.crIe.val

/-- IE is in every pattern in the interrupt realization and in none in the polling one (rule R83). -/
def modeIe : Mode → Bool
  | .poll => false
  | .irq => true

/-- `PAT_START`: `{INT, STA, EN}` and IE by mode (rule R82). -/
def patStart (l : Layout) (m : Mode) : Byte :=
  Control.byte l { int := true, ea := false, sta := true, sto := false, en := true, ie := modeIe m }

/-- `PAT_STOP`: `{INT, STO, EN}` and IE by mode (rule R82). -/
def patStop (l : Layout) (m : Mode) : Byte :=
  Control.byte l { int := true, ea := false, sta := false, sto := true, en := true, ie := modeIe m }

/-- `PAT_PLAIN`: `{INT, EN}` and IE by mode (rules R82, R84). -/
def patPlain (l : Layout) (m : Mode) : Byte :=
  Control.byte l { int := true, ea := false, sta := false, sto := false, en := true, ie := modeIe m }

/-- `PAT_ACK`: `{INT, EA, EN}` and IE by mode (rule R82). -/
def patAck (l : Layout) (m : Mode) : Byte :=
  Control.byte l { int := true, ea := true, sta := false, sto := false, en := true, ie := modeIe m }

/-- INIT's enabling write: `{EN}` or `{EN, IE}`, the INT bit 0 (rule R204). -/
def patEnable (l : Layout) (m : Mode) : Byte :=
  Control.byte l { int := false, ea := false, sta := false, sto := false, en := true, ie := modeIe m }

/-- The byte a read of SR gives: the status code and PS, the remaining bit 0 (rule R21). -/
def Status.byte (l : Layout) (r : Status) : Byte := r.status ||| (r.ps.zeroExtend 8 <<< l.srPsLo.val)

/-- The status an address frame posts, by its direction bit and the sampled answer (rule R139). -/
def addrStatus (b : Byte) (k : Ack) : BusStatus :=
  match b.getLsbD 0, k with
  | false, .ack => .addrWAck
  | false, .nack => .addrWNack
  | true, .ack => .addrRAck
  | true, .nack => .addrRNack

/-- The status a sent data byte posts (rule R140). -/
def dataStatus : Ack → BusStatus
  | .ack => .dataWAck
  | .nack => .dataWNack

/-- The status a received data byte posts, by the answer the controller gave (rule R141). -/
def recvStatus : Ack → BusStatus
  | .ack => .dataRMore
  | .nack => .dataRLast

/-- The answer `RxData` latches from EA at its launch (rule R136). -/
def ackOf (ea : Bool) : Ack := if ea then .ack else .nack

end Sys2Proof.Machine
end

