-- ==== Sys2Proof/Machine/Ops.lean ====
section
/-!
DEFINITION. The shared operations: the other agents' steps (engine completion, capture, GIE), reset between two
micro-steps, the control-register write, the timed wait, and how a command is accepted, rejected, ended and unwound. The
failure path (rules R226 to R228) is what this hardware has in place of taking an exception and returning from one, and
the capture step is its only interrupt handler (rules R229 to R231).
-/
namespace Sys2Proof.Machine

/-- The outcome of a whole command, or of one register write. -/
abbrev Result (α : Type) := Host.Outcome α Fault Refusal

/-- The outcome of a part of a command. -/
inductive PartResult (α : Type) where
  /-- the part answered; the command goes on -/
  | next (a : α)
  /-- the reset input was asserted meanwhile: the command is abandoned in this state (rule R250) -/
  | abandoned (t : State)
  /-- the spec gives a register write of the part no meaning -/
  | refused (r : Refusal)

/-- A register write as a part of a command: it takes no time in which the reset input could be asserted (rule R67). -/
def PartResult.ofResult {α : Type} : Result α → PartResult α
  | .next a => .next a
  | .fault r => nomatch r
  | .refused r => .refused r

/-- The outcome of a command from that of its last part: an abandoned command ends in the state reset left. -/
def PartResult.outcome : PartResult State → Result State
  | .next t => .next t
  | .abandoned t => .next t
  | .refused r => .refused r

/-- Go on with `f` after a part that answered. -/
def andThen {α β : Type} (o : PartResult α) (f : α → PartResult β) : PartResult β :=
  match o with
  | .next a => f a
  | .abandoned t => .abandoned t
  | .refused r => .refused r

/-! ### Reading the state -/

/-- The configuration record (rule R7). -/
def State.cfg (s : State) : Params := s.env.cfg

/-- The code of a BusStatus under the configuration (rule R85). -/
def State.code (s : State) (st : BusStatus) : Byte := s.cfg.codes.code st

/-- BUSY, the derived signal `OP != NONE` (rule R33). -/
def State.busy (s : State) : Bool := s.seq.op.isSome

/-- A read of CR as a byte (rule R20). -/
def State.crByte (s : State) : Byte := s.cr.byte s.cfg.layout

/-- A read of SR as a byte (rule R21). -/
def State.srByte (s : State) : Byte := s.sr.byte s.cfg.layout

/-- The masked status `SR & STATUS_MASK` (rule R86). -/
def State.maskedStatus (s : State) : Byte := s.srByte &&& s.cfg.statusMask

/-- `current()`: SR masked in the polling realization (rule R110), the latch in the interrupt one (rule R111). -/
def State.current (s : State) : Byte :=
  match s.mode with
  | .poll => s.maskedStatus
  | .irq => s.latch

/-! ### The bus engine's completions (rules R137 to R142) -/

/-- `emit(sym)`: append a bus symbol to TRACE (rule R41). -/
def State.emit (s : State) (x : Sym) : State := { s with trace := s.trace ++ [x] }

/-- `post(s)`: the status, PHASE, the interrupt flag and CAP_PEND are set, nothing is in flight (rule R142). -/
def State.post (s : State) (st : BusStatus) : State :=
  { s with
    sr := { s.sr with status := s.code st }
    phase := st
    cr := { s.cr with int := true }
    capPend := true
    pending := none }

/-- The bus is held from the completion of a start condition (rules R36, R137). A stop condition still being generated
precedes the start condition on the wires, so the stop flag has cleared itself by then (rule R135; log 9). -/
def State.holdBus (s : State) : State := { s with own := true, cr := { s.cr with sto := false } }

/-- The received byte is written to DR (rule R141). -/
def State.receive (s : State) (d : Byte) : State := { s with dr := d }

/-- The effect of a completion on an event in flight, with the slave side's answers (rules R137 to R141). -/
def State.completeEvent (s : State) (k : Ack) (d : Byte) : BusEvent → State
  | .genStart => ((s.emit .s).holdBus).post .start
  | .genRestart => (s.emit .sr).post .restart
  | .txAddr b => (s.emit (.tx b k)).post (addrStatus b k)
  | .txData b => (s.emit (.tx b k)).post (dataStatus k)
  | .rxData a => ((s.receive d).emit (.rx d a)).post (recvStatus a)

/-- The engine's completion step: enabled while an event is in flight and the peripheral is enabled (rules R130, R145;
log 22). -/
def engineStep (k : Ack) (d : Byte) (s : State) : State :=
  match s.pending with
  | none => s
  | some e => if s.cr.en then s.completeEvent k d e else s

/-! ### The transfer-complete interrupt (rules R229 to R231) -/

/-- When the capture step is enabled (rules R112, R230). -/
def State.captureEnabled (s : State) : Bool :=
  decide (s.mode = .irq) && s.capPend && s.cr.ie && s.gie

/-- The handler's whole effect: the masked status is copied to the latch, once (rules R112, R231). -/
def State.capture (s : State) : State := { s with latch := s.maskedStatus, capPend := false }

/-- The capture step: nothing where it is not enabled (rule R112). -/
def captureStep (s : State) : State := if s.captureEnabled then s.capture else s

/-! ### The other agents' moves -/

/-- The stop flag clears itself (rules R20, R135). -/
def stopDoneStep (s : State) : State := { s with cr := { s.cr with sto := false } }

/-- The surrounding system sets GIE, where the premise of rule R259 does not forbid it (log 16). -/
def setGieStep (on : Bool) (s : State) : State := if s.env.hostGie then { s with gie := on } else s

/-- One step of an agent other than the controller half; none where it is not enabled (rule R9). What a reset does is
`pause`'s to say: it ends the command, and overwrites whatever else happened in its gap. -/
def envMove (s : State) : EnvMove → State
  | .complete k d => engineStep k d s
  | .stopDone => stopDoneStep s
  | .capture => captureStep s
  | .setGie on => setGieStep on s
  | .reset => s

/-- The next gap: the planned one, else a free one (log 2). -/
def Env.nextGap (e : Env) : Gap :=
  match e.plan with
  | g :: _ => g
  | [] => Config.freeGap e.draws

/-- The inputs after the next gap has been taken. -/
def Env.afterGap (e : Env) : Env :=
  match e.plan with
  | _ :: rest => { e with plan := rest }
  | [] => { e with draws := e.draws + 1 }

/-- Whether the reset input is asserted in the next gap (rule R250: "Reset may occur at any time"; log 13). -/
def Env.resetNext (e : Env) : Bool := e.mayReset && e.nextGap.any EnvMove.isReset

/-- What the other agents do between two micro-steps of the controller half (rules R9, R71). -/
def gap (s : State) : State := s.env.nextGap.foldl envMove { s with env := s.env.afterGap }

/-- The reset input takes every state element to its power-on value (rules R42, R250). What the host still has to send,
the configuration and the environment are not state of the controller and stay (log 13). -/
def State.powerOn (s : State) : State :=
  { State.resetFor s.cfg with port := s.port, env := { s.env with resetLine := false } }

/-- Reset in the next gap: what was in progress is abandoned without a stop (rule R250). -/
def State.abandon (s : State) : State := { s with env := s.env.afterGap }.powerOn

/-- What stands before a micro-step of the controller half: the next gap, or the end of the command in reset. -/
def pause (s : State) : PartResult State := if s.env.resetNext then .abandoned s.abandon else .next (gap s)

/-- What the controller does while it has no command: the next gap, or reset. -/
def State.idle (s : State) : State := if s.env.resetNext then s.abandon else gap s

/-! ### The control-register write (rules R131 to R136, R148 to R152) -/

/-- The four enable and mode bits are stored on every write (rule R131). -/
def State.storeEnables (s : State) (v : Control) : State :=
  { s with cr := { s.cr with ea := v.ea, sta := v.sta, en := v.en, ie := v.ie } }

/-- INTC: flag, status, latch and CAP_PEND are cleared (rules R113, R132) and an event in flight is superseded, posting
nothing and emitting nothing (rule R149; log 8). -/
def State.clearInterrupt (s : State) : State :=
  { s with
    cr := { s.cr with int := false }
    sr := { s.sr with status := s.code .idle }
    latch := s.code .idle
    capPend := false
    pending := none }

/-- An event is put in flight (rules R133, R134, R136). -/
def State.launch (s : State) (e : BusEvent) : State := { s with pending := some e }

/-- The start bit asks for a start or, when the bus is held, a repeated start (rules R133, R134). -/
def startEvent (own : Bool) : BusEvent := if own then .genRestart else .genStart

/-- The byte transfer a continuing write launches, by PHASE; none where the spec defines no continuation (rules R136,
R148). -/
def continueEvent (phase : BusStatus) (dr : Byte) (ea : Bool) : Option BusEvent :=
  match phase with
  | .start => some (.txAddr dr)
  | .restart => some (.txAddr dr)
  | .addrWAck => some (.txData dr)
  | .dataWAck => some (.txData dr)
  | .addrRAck => some (.rxData (ackOf ea))
  | .dataRMore => some (.rxData (ackOf ea))
  | .idle => none
  | .addrWNack => none
  | .dataWNack => none
  | .addrRNack => none
  | .dataRLast => none

/-- The bus is released: `OWN <- 0; PHASE <- ST_IDLE; PENDING <- NONE`, and the stop flag is set until the stop
condition is on the wires (rule R135; log 9). -/
def State.releaseBus (s : State) : State :=
  { s with own := false, phase := .idle, pending := none, cr := { s.cr with sto := true } }

/-- Stop: the symbol `P` only when the bus is held (rule R135). -/
def State.stopBus (s : State) : State := (if s.own then s.emit .p else s).releaseBus

/-- What a write with INTC launches, after rule R132 has been applied (rule R131). -/
def launchByControl (v : Control) (s : State) : Result State :=
  if v.sta && v.sto then .refused .startWithStop
  else if v.sto then .next s.stopBus
  else if v.sta then .next (s.launch (startEvent s.own))
  else
    match continueEvent s.phase s.dr v.ea with
    | some e => .next (s.launch e)
    | none => .refused .unspecifiedContinue

/-- `RegWriteCR(v)`: the write of byte `v` to CR with all its side effects, one atomic step (rule R131). A write with
EN = 0 is refused (rule R152; log 10). -/
def regWriteCR (v : Byte) (s : State) : Result State :=
  let c := Control.ofByte s.cfg.layout v
  if c.en then
    if c.int then launchByControl c (s.storeEnables c).clearInterrupt
    else .next (s.storeEnables c)
  else .refused .peripheralDisable

/-- A write of DR; over an event in flight it is refused (rules R22, R151). -/
def regWriteDR (v : Byte) (s : State) : Result State :=
  if s.pending.isSome then .refused .dataWriteInFlight else .next { s with dr := v }

/-! ### The timed wait (rules R115 to R121) -/

/-- The not-acknowledged sibling of a wait's target and the error it stands for (rule R115). -/
abbrev Sibling := Option (BusStatus × ResultKind)

/-- The error a sample classifies as: the sibling's, when NACK_CLASSIFY and the sample shows its code (rule R117). -/
def State.classify (s : State) (nack : Sibling) : Option ResultKind :=
  match nack with
  | none => none
  | some (st, e) => if s.cfg.nackClassify && decide (s.current = s.code st) then some e else none

/-- CNT rises by one on a sample that does not end the wait (rule R116). -/
def State.countSample (s : State) : State := { s with cnt := s.cnt + 1 }

/-- A primitive, or a wait, answers a result kind, is abandoned in reset, or is refused. -/
abbrev Primitive := State → PartResult (ResultKind × State)

/-- The loop of rule R115 with `n` samples left in the budget; a gap stands before each sample. -/
def sampleLoop (target : BusStatus) (nack : Sibling) : Nat → Primitive
  | 0, s => .next (.timeout, s)
  | n + 1, s =>
    andThen (pause s) fun s =>
      if s.current = s.code target then .next (.ok, s)
      else
        match s.classify nack with
        | some e => .next (e, s)
        | none => sampleLoop target nack n s.countSample

/-- `wait_until(target, nack)` with the configured budget (rules R27, R115). -/
def waitUntil (target : BusStatus) (nack : Sibling) : Primitive := fun s =>
  sampleLoop target nack s.cfg.timeoutBudget.toNat { s with cnt := 0 }

/-! ### Accepting, rejecting and ending a command -/

/-- Acceptance: `SEQ.OP` names the command (rule R33). -/
def State.begin (s : State) (op : Opcode) : State :=
  { s with seq := { s.seq with op := some op, step := .single } }

/-- The sequencer enters a step (rules R33, R186). -/
def State.atStep (s : State) (st : SeqStep) : State := { s with seq := { s.seq with step := st } }

/-- IDX rises by one (rules R180, R181). -/
def State.nextIndex (s : State) : State := { s with seq := { s.seq with idx := s.seq.idx + 1 } }

/-- The end of a command: `ERR`, `SEQ.OP <- NONE` and the response packet (rules R34, R90, R160). -/
def State.finish (s : State) (r : ResultKind) (after : List Byte) : State :=
  { s with err := r, seq := { s.seq with op := none }, response := responsePacket r after }

/-- Whether a rejection of this packet clears RXLEN: READ and WRITE only (rule R183; log 11). -/
def clearsRxlen : Option Opcode → Bool
  | some .read => true
  | some .write => true
  | _ => false

/-- A command or packet rejected by a check: `ERR <- PRECONDITION`, no hardware register touched (rules R91, R170, R183,
R224); none stands for a reserved opcode. -/
def State.reject (s : State) (op : Option Opcode) : State :=
  { s with
    err := .precondition
    rxlen := if clearsRxlen op then 0 else s.rxlen
    response := responsePacket .precondition [] }

/-- The checks every command but INIT makes first: not busy, else the model refuses (rule R255); INITED, else
PRECONDITION (rules R170, R183). -/
def guarded (op : Opcode) (s : State) (go : State → PartResult State) : Result State :=
  if s.busy then .refused .commandWhileBusy
  else if s.inited then (go s).outcome
  else .next (s.reject (some op))

/-! ### Stop and the failure path -/

/-- The STOP primitive: one control write, no wait (rule R163). -/
def stopBusPrim (s : State) : PartResult State :=
  andThen (pause s) fun s => .ofResult (regWriteCR (patStop s.cfg.layout s.mode) s)

/-- The failure path of READ and WRITE (rules R182, R226): at the failure step one STOP, then the error is returned and
the controller is at rest again (rule R227). `drop` is what the failure step does to the result buffer. -/
def unwind (st : SeqStep) (drop : State → State) (e : ResultKind) (s : State) : PartResult State :=
  andThen (stopBusPrim (s.atStep st)) fun s => .next ((drop s).finish e [])

/-- The free contents of RXBUF after a failed READ: as many free bytes as had been appended (rule R189, U8; log 7). -/
def freeBytes (base : Nat) : Nat → List Byte
  | 0 => []
  | n + 1 => Config.freeByte base :: freeBytes (base + 1) n

/-- A failed READ delivers nothing: `RXLEN <- 0`, RXBUF holds free bytes (rules R32, R180, R189; log 7). -/
def State.dropRead (s : State) : State :=
  { s with
    rxlen := 0
    rxbuf := freeBytes s.env.draws s.rxbuf.length
    env := { s.env with draws := s.env.draws + s.rxbuf.length } }

end Sys2Proof.Machine
end

