-- ==== Sys2Proof/Machine/Primitives.lean ====
section
/-!
DEFINITION. The seven primitives (42_primitives.md): first as the building blocks of READ and WRITE, then as host
commands of their own. A gap stands before every micro-step (rule R160).
-/
namespace Sys2Proof.Machine

/-- `DR <- v`, one micro-step (rule R68). -/
def loadStep (v : Byte) (s : State) : PartResult State := andThen (pause s) fun s => .ofResult (regWriteDR v s)

/-- `RegWriteCR(pattern)`, one micro-step; the pattern by the current MODE (rules R82, R160). -/
def controlStep (pattern : Layout → Mode → Byte) (s : State) : PartResult State :=
  andThen (pause s) fun s => .ofResult (regWriteCR (pattern s.cfg.layout s.mode) s)

/-- A control write and then a wait (rule R160). -/
def controlAndWait (pattern : Layout → Mode → Byte) (target : BusStatus) (nack : Sibling) : Primitive := fun s =>
  andThen (controlStep pattern s) (waitUntil target nack)

/-- START (rule R161). -/
def startPrim : Primitive := controlAndWait patStart .start none

/-- RESTART: the same pattern as START (rules R162, R134). -/
def restartPrim : Primitive := controlAndWait patStart .restart none

/-- The acknowledge status of an address frame's direction and its sibling (rules R81, R117). -/
def addrTarget : Direction → BusStatus × Sibling
  | .write => (.addrWAck, some (.addrWNack, .addressNack))
  | .read => (.addrRAck, some (.addrRNack, .addressNack))

/-- ADDR_W and ADDR_R: the frame of ADDR to DR, a plain control write, the wait (rules R164, R165). -/
def addrPrim (d : Direction) : Primitive := fun s =>
  andThen (loadStep (frame s.addr d) s) fun s => controlAndWait patPlain (addrTarget d).1 (addrTarget d).2 s

/-- DATA_W of a byte (rule R166). -/
def dataWPrim (b : Byte) : Primitive := fun s =>
  andThen (loadStep b s) fun s => controlAndWait patPlain .dataWAck (some (.dataWNack, .dataNack)) s

/-- The control write and the wait of DATA_R: acknowledged when more bytes are expected (rule R167). -/
def receivePrim (more : Bool) : Primitive :=
  if more then controlAndWait patAck .dataRMore none else controlAndWait patPlain .dataRLast none

/-- DATA_R: after a successful wait DR is read, one more micro-step (rules R68, R167); the byte is DR in the state it
answers. -/
def dataRPrim (more : Bool) : Primitive := fun s =>
  andThen (receivePrim more s) fun (r, s) =>
    match r with
    | .ok => andThen (pause s) fun s => .next (.ok, s)
    | .timeout => .next (.timeout, s)
    | .addressNack => .next (.addressNack, s)
    | .dataNack => .next (.dataNack, s)
    | .precondition => .next (.precondition, s)

/-- A primitive as a host command: its result ends the command (rule R160); a failing primitive issues no stop (rule
R168). `after` is what the response carries besides the result. -/
def runPrimitive (p : Primitive) (after : ResultKind → State → List Byte) (s : State) : PartResult State :=
  andThen (p s) fun (r, s) => .next (s.finish r (after r s))

/-- No byte but the result (rule R90). -/
def noPayload (_ : ResultKind) (_ : State) : List Byte := []

/-- The byte read, when the result is OK (rules R90, R167). -/
def readByte (r : ResultKind) (s : State) : List Byte :=
  match r with
  | .ok => [s.dr]
  | .timeout | .addressNack | .dataNack | .precondition => []

/-- START as a command (rules R161, R170). -/
def execStart (s : State) : Result State :=
  guarded .start s fun s => runPrimitive startPrim noPayload (s.begin .start)

/-- RESTART as a command (rules R162, R170). -/
def execRestart (s : State) : Result State :=
  guarded .restart s fun s => runPrimitive restartPrim noPayload (s.begin .restart)

/-- STOP as a command: its result is OK (rules R163, R170). -/
def execStop (s : State) : Result State :=
  guarded .stop s fun s => andThen (stopBusPrim (s.begin .stop)) fun s => .next (s.finish .ok [])

/-- ADDR_W as a command; ADDR is loaded from the packet (rules R31, R164). -/
def execAddrW (a : Addr7) (s : State) : Result State :=
  guarded .addrW s fun s => runPrimitive (addrPrim .write) noPayload { s.begin .addrW with addr := a }

/-- ADDR_R as a command; ADDR is loaded from the packet (rules R31, R165). -/
def execAddrR (a : Addr7) (s : State) : Result State :=
  guarded .addrR s fun s => runPrimitive (addrPrim .read) noPayload { s.begin .addrR with addr := a }

/-- DATA_W as a command; DATA is loaded from the packet (rules R31, R166). -/
def execDataW (d : Byte) (s : State) : Result State :=
  guarded .dataW s fun s => runPrimitive (dataWPrim d) noPayload { s.begin .dataW with data := d }

/-- DATA_R as a command; MORE is loaded from the packet and the byte read is returned (rules R31, R167). -/
def execDataR (more : Bool) (s : State) : Result State :=
  guarded .dataR s fun s => runPrimitive (dataRPrim more) readByte { s.begin .dataR with more := more }

end Sys2Proof.Machine
end

