-- ==== Sys2Proof/Machine/Initialise.lean ====
section
/-!
DEFINITION. INIT (44_init_clock_divider.md): the clock-divider configurator and the enabling of the peripheral.
-/
namespace Sys2Proof.Machine

/-- `BRR <- divisor(F_CORE, F_BUS)` (rules R201, R202). -/
def State.setDivisor (s : State) : State := { s with brr := divisor s.fCore s.fBus }

/-- `SR.PS <- 0` (rule R203). -/
def State.setPrescaler (s : State) : State := { s with sr := { s.sr with ps := 0 } }

/-- `MODE <- mode` (rule R206). -/
def State.setMode (s : State) (m : Mode) : State := { s with mode := m }

/-- `GIE <- 1` in the interrupt realization only (rule R205). -/
def enableInterrupts (m : Mode) (s : State) : PartResult State :=
  match m with
  | .poll => .next s
  | .irq => andThen (pause s) fun s => .next { s with gie := true }

/-- `INITED <- 1` and the end of the command (rule R200). -/
def State.initDone (s : State) : State := { s with inited := true }.finish .ok []

/-- The micro-steps of INIT in the order of rule R200, a gap before each. -/
def initBody (m : Mode) (s : State) : PartResult State :=
  andThen (pause s) fun s =>
  andThen (pause s.setDivisor) fun s =>
  andThen (pause s.setPrescaler) fun s =>
  andThen (controlStep patEnable (s.setMode m)) fun s =>
  andThen (enableInterrupts m s) fun s =>
  andThen (pause s) fun s => .next s.initDone

/-- INIT (rules R200, R207, R208). A busy controller and a second INIT are refused, with no PRECONDITION (U1, U4); a bus
frequency of 0 is rejected and writes no register. -/
def execInit (mode : Mode) (bus core : Hertz) (s : State) : Result State :=
  if s.busy then .refused .commandWhileBusy
  else if s.inited then .refused .secondInit
  else if bus = 0 then .next (s.reject (some .init))
  else (initBody mode { s.begin .init with fBus := bus, fCore := core }).outcome

end Sys2Proof.Machine
end

