-- ==== Sys2Proof/Machine/Transactions.lean ====
section
/-!
DEFINITION. The orchestrator (43_orchestrator.md): READ and WRITE as the step listings of rules R180 and R181.
-/
namespace Sys2Proof.Machine

/-- Go on after a primitive that returned OK; any error is passed on and no later primitive runs (rules R186, R187). -/
def gated (o : PartResult (ResultKind × State)) (f : Primitive) : PartResult (ResultKind × State) :=
  andThen o fun (r, s) =>
    match r with
    | .ok => f s
    | .timeout => .next (.timeout, s)
    | .addressNack => .next (.addressNack, s)
    | .dataNack => .next (.dataNack, s)
    | .precondition => .next (.precondition, s)

/-- One named step: SEQ.STEP names it while its primitive runs (rule R33). -/
def atStepRun (st : SeqStep) (p : Primitive) : Primitive := fun s => p (s.atStep st)

/-- START, ADDR_W of ADDR and the register select DATA_W of REG, each gated: RD1 to RD3 and WR1 to WR3. -/
def selectRegister (s1 s2 s3 : SeqStep) : Primitive := fun s =>
  gated (atStepRun s1 startPrim s) fun s =>
  gated (atStepRun s2 (addrPrim .write) s) fun s =>
  atStepRun s3 (dataWPrim s.reg) s

/-- "append the byte": `RXBUF <- RXBUF ++ [b]; IDX <- IDX + 1` with `b` the byte in DR (rule R180). -/
def State.appendByte (s : State) : State := { s.nextIndex with rxbuf := s.rxbuf ++ [s.dr] }

/-- One DATA_R of a READ and, when it succeeds, its byte appended (rule R180, RD6 and RD7). -/
def readOne (st : SeqStep) (more : Bool) : Primitive := fun s =>
  gated (atStepRun st (dataRPrim more) s) fun s => .next (.ok, s.appendByte)

/-- RD6: `n` acknowledged bytes (rule R180). -/
def readMore : Nat → Primitive
  | 0, s => .next (.ok, s)
  | n + 1, s => gated (readOne .rd6 true s) (readMore n)

/-- RD1 to RD7 (rule R180); RD6 runs `count - 1` times (rule R190). -/
def readBody : Primitive := fun s =>
  gated (selectRegister .rd1 .rd2 .rd3 s) fun s =>
  gated (atStepRun .rd4 restartPrim s) fun s =>
  gated (atStepRun .rd5 (addrPrim .read) s) fun s =>
  gated (readMore (s.count.toNat - 1) s) fun s =>
  readOne .rd7 false s

/-- WR4: the bytes of TXBUF in list order (rules R65, R181). -/
def writeBytes : List Byte → Primitive
  | [], s => .next (.ok, s)
  | b :: bs, s => gated (atStepRun .wr4 (dataWPrim b) s) fun s => writeBytes bs s.nextIndex

/-- WR1 to WR4 (rule R181). -/
def writeBody : Primitive := fun s =>
  gated (selectRegister .wr1 .wr2 .wr3 s) fun s => writeBytes s.txbuf s

/-- A transaction: OK ends with the step `done`, any error with the failure path at `failed` (rules R182, R186). -/
def runTransaction (body : Primitive) (done failed : SeqStep) (drop : State → State) (deliver : State → State) :
    State → PartResult State := fun s =>
  andThen (body s) fun (r, s) =>
    match r with
    | .ok => andThen (stopBusPrim (s.atStep done)) fun s => .next (deliver s)
    | .timeout => unwind failed drop .timeout s
    | .addressNack => unwind failed drop .addressNack s
    | .dataNack => unwind failed drop .dataNack s
    | .precondition => unwind failed drop .precondition s

/-- RD8: `RXLEN <- n; ERR <- OK; SEQ.OP <- NONE; return Ok(RXBUF)` (rule R180). -/
def State.deliverRead (s : State) : State :=
  { s with rxlen := s.count }.finish .ok (readPayload s.count s.rxbuf)

/-- WR5: `ERR <- OK; SEQ.OP <- NONE; return Ok` (rule R181). -/
def State.deliverWrite (s : State) : State := s.finish .ok []

/-- A failed WRITE has no buffer to drop (rule R181; log 12). -/
def keepBuffers (s : State) : State := s

/-- READ on acceptance: the operands are loaded and the result buffer is emptied (rule R180). -/
def State.beginRead (s : State) (a : Addr7) (r : Byte) (n : Half) : State :=
  { s with
    seq := { op := some .read, step := .single, idx := 0 }
    addr := a
    reg := r
    count := n
    rxbuf := []
    rxlen := 0 }

/-- WRITE on acceptance: the operands are loaded (rule R181). -/
def State.beginWrite (s : State) (a : Addr7) (r : Byte) (bytes : List Byte) : State :=
  { s with seq := { op := some .write, step := .single, idx := 0 }, addr := a, reg := r, txbuf := bytes }

/-- READ (rules R180, R183, R185). -/
def execRead (a : Addr7) (r : Byte) (n : Half) (s : State) : Result State :=
  guarded .read s fun s =>
    if n = 0 then .next (s.reject (some .read))
    else if s.cfg.maxLen < n then .next (s.reject (some .read))
    else runTransaction readBody .rd8 .rdf State.dropRead State.deliverRead (s.beginRead a r n)

/-- WRITE (rules R181, R183, R184, R185). -/
def execWrite (a : Addr7) (r : Byte) (bytes : List Byte) (s : State) : Result State :=
  guarded .write s fun s =>
    if s.cfg.maxLen.toNat < bytes.length then .next (s.reject (some .write))
    else runTransaction writeBody .wr5 .wrf keepBuffers State.deliverWrite (s.beginWrite a r bytes)

end Sys2Proof.Machine
end

