-- ==== Sys2Proof/Machine/Dispatch.lean ====
section
/-!
DEFINITION. One arm per command, each one call of its meaning.
-/
namespace Sys2Proof.Machine

def exec (i : Instr) (s : State) : Host.Outcome State Fault Refusal :=
  match i with
  | .start => Sys2Proof.Machine.execStart s
  | .restart => Sys2Proof.Machine.execRestart s
  | .stop => Sys2Proof.Machine.execStop s
  | .addrW a => Sys2Proof.Machine.execAddrW a s
  | .addrR a => Sys2Proof.Machine.execAddrR a s
  | .dataW d => Sys2Proof.Machine.execDataW d s
  | .dataR more => Sys2Proof.Machine.execDataR more s
  | .init mode bus core => Sys2Proof.Machine.execInit mode bus core s
  | .read a r n => Sys2Proof.Machine.execRead a r n s
  | .write a r bytes => Sys2Proof.Machine.execWrite a r bytes s

end Sys2Proof.Machine
end

