-- ==== Sys2Proof/WellFormed.lean ====
section
/-!
DEFINITION. Which commands a packet can carry. The operand types already bound every operand of rule R89 but the
payload of WRITE, whose length field has 16 bits.
-/
namespace Sys2Proof

/-- A command that has a packet: a WRITE payload of at most 65535 bytes (rule R89, the 16-bit length field). -/
def Instr.wf : Instr → Bool
  | .write _ _ bytes => decide (bytes.length < 65536)
  | .start | .restart | .stop => true
  | .addrW _ | .addrR _ | .dataW _ | .dataR _ => true
  | .init _ _ _ | .read _ _ _ => true

end Sys2Proof
end

