-- ==== Sys2Proof/Decode.lean ====
section
/-!
DEFINITION. The command decoder of rules R88 to R92, total on any bytes of the command port and rejecting by name,
and after it the encoder, written from the same table.
-/
namespace Sys2Proof

/-- What the bytes at the head of the command port are. Every outcome but `incomplete` carries the bytes after it. -/
inductive Decoded where
  | command (i : Instr) (rest : List Byte)
  /-- an opcode byte that rule R91 reserves; the decoder consumes that byte only -/
  | reserved (op : Byte) (rest : List Byte)
  /-- an operand byte with a bit set where rule R89 shows 0; the decoder consumes the packet's full length -/
  | malformed (op : Opcode) (rest : List Byte)
  /-- the packet has not arrived whole -/
  | incomplete
deriving DecidableEq, Repr

/-- The opcode byte of rule R89. -/
def Opcode.byte : Opcode → Byte
  | .start => 0x01
  | .restart => 0x02
  | .stop => 0x03
  | .addrW => 0x04
  | .addrR => 0x05
  | .dataW => 0x06
  | .dataR => 0x07
  | .init => 0x10
  | .read => 0x11
  | .write => 0x12

/-- The command an opcode byte names; none for the reserved bytes of rule R91. -/
def Opcode.ofByte (b : Byte) : Option Opcode :=
  match b.toNat with
  | 0x01 => some .start
  | 0x02 => some .restart
  | 0x03 => some .stop
  | 0x04 => some .addrW
  | 0x05 => some .addrR
  | 0x06 => some .dataW
  | 0x07 => some .dataR
  | 0x10 => some .init
  | 0x11 => some .read
  | 0x12 => some .write
  | _ => none

/-- Two bytes of a little-endian field, low byte first (rule R92). -/
def le16 (lo hi : Byte) : Half := lo.zeroExtend 16 ||| (hi.zeroExtend 16 <<< 8)

/-- Four bytes of a little-endian field, low byte first (rule R92). -/
def le32 (b0 b1 b2 b3 : Byte) : Hertz :=
  b0.zeroExtend 32 ||| (b1.zeroExtend 32 <<< 8) ||| (b2.zeroExtend 32 <<< 16) ||| (b3.zeroExtend 32 <<< 24)

/-- The bytes of a 16-bit field in the order sent (rule R92). -/
def bytes16 (n : Half) : List Byte := [n.extractLsb' 0 8, n.extractLsb' 8 8]

/-- The bytes of a 32-bit field in the order sent (rule R92). -/
def bytes32 (n : Hertz) : List Byte :=
  [n.extractLsb' 0 8, n.extractLsb' 8 8, n.extractLsb' 16 8, n.extractLsb' 24 8]

/-- An address operand byte `0aaaaaaa`: none where bit 7 is set (rule R91). -/
def addrOperand (b : Byte) : Option Addr7 :=
  if b.getLsbD 7 then none else some (b.extractLsb' 0 7)

/-- A one-bit operand byte `0000000m`: none where a bit of 7 to 1 is set (rule R91). -/
def flagOperand (b : Byte) : Option Bool :=
  if b.extractLsb' 1 7 = 0 then some (b.getLsbD 0) else none

/-- The mode operand of INIT: 0 polling, 1 interrupt (rule R200). -/
def modeOf (m : Bool) : Mode := if m then .irq else .poll

/-- A command whose operand byte was well formed, else the packet is malformed (rule R91). -/
def orMalformed (op : Opcode) (i : Option Instr) (rest : List Byte) : Decoded :=
  match i with
  | some i => .command i rest
  | none => .malformed op rest

/-- The fixed operands and the payload of one command, from the bytes after its opcode (rules R88, R89). -/
def decodeOperands : Opcode → List Byte → Decoded
  | .start, rest => .command .start rest
  | .restart, rest => .command .restart rest
  | .stop, rest => .command .stop rest
  | .addrW, a :: rest => orMalformed .addrW ((addrOperand a).map .addrW) rest
  | .addrR, a :: rest => orMalformed .addrR ((addrOperand a).map .addrR) rest
  | .dataW, d :: rest => .command (.dataW d) rest
  | .dataR, m :: rest => orMalformed .dataR ((flagOperand m).map .dataR) rest
  | .init, m :: b0 :: b1 :: b2 :: b3 :: c0 :: c1 :: c2 :: c3 :: rest =>
    orMalformed .init ((flagOperand m).map fun m => .init (modeOf m) (le32 b0 b1 b2 b3) (le32 c0 c1 c2 c3)) rest
  | .read, a :: r :: lo :: hi :: rest =>
    orMalformed .read ((addrOperand a).map fun a => .read a r (le16 lo hi)) rest
  | .write, a :: r :: lo :: hi :: rest =>
    if rest.length < (le16 lo hi).toNat then .incomplete
    else
      orMalformed .write ((addrOperand a).map fun a => .write a r (rest.take (le16 lo hi).toNat))
        (rest.drop (le16 lo hi).toNat)
  | .addrW, [] => .incomplete
  | .addrR, [] => .incomplete
  | .dataW, [] => .incomplete
  | .dataR, [] => .incomplete
  | .init, _ => .incomplete
  | .read, _ => .incomplete
  | .write, _ => .incomplete

/-- The decoder of rule R88: the opcode byte first, then that opcode's operands. -/
def decode : List Byte → Decoded
  | [] => .incomplete
  | op :: rest =>
    match Opcode.ofByte op with
    | some o => decodeOperands o rest
    | none => .reserved op rest

/-- A one-bit operand as its byte `0000000m` (rule R89). -/
def flagByte (m : Bool) : Byte := if m then 1 else 0

/-- A device address as its byte `0aaaaaaa` (rule R89). -/
def addrByte (a : Addr7) : Byte := a.zeroExtend 8

/-- The mode operand of INIT as a bit (rule R200). -/
def Mode.bit : Mode → Bool
  | .poll => false
  | .irq => true

/-- The bytes of a command's packet after its opcode (rule R89). -/
def encodeOperands : Instr → List Byte
  | .start => []
  | .restart => []
  | .stop => []
  | .addrW a => [addrByte a]
  | .addrR a => [addrByte a]
  | .dataW d => [d]
  | .dataR more => [flagByte more]
  | .init mode bus core => flagByte mode.bit :: (bytes32 bus ++ bytes32 core)
  | .read a r n => addrByte a :: r :: bytes16 n
  | .write a r bytes => addrByte a :: r :: (bytes16 (BitVec.ofNat 16 bytes.length) ++ bytes)

/-- The packet of a command (rules R88, R89). -/
def encode (i : Instr) : List Byte := i.opcode.byte :: encodeOperands i

/-- How many bytes the packet that begins with these bytes has in all, as far as they tell (rule R89). -/
def packetLength : List Byte → Nat
  | [] => 1
  | op :: rest =>
    match Opcode.ofByte op with
    | none => 1
    | some .start => 1
    | some .restart => 1
    | some .stop => 1
    | some .addrW => 2
    | some .addrR => 2
    | some .dataW => 2
    | some .dataR => 2
    | some .init => 10
    | some .read => 5
    | some .write =>
      match rest with
      | _ :: _ :: lo :: hi :: _ => 5 + (le16 lo hi).toNat
      | _ => 5

/-- The low `n` bytes of `w`, the most significant of them first: spec/opcode_table.json reads a row's encoding string
as one number whose leftmost bit is the highest, so the byte sent first is the most significant (log 17). -/
def tableBytes : Nat → Nat → List Byte
  | 0, _ => []
  | n + 1, w => BitVec.ofNat 8 (w / 256 ^ n) :: tableBytes n w

/-- A packet from the bits of a row of spec/opcode_table.json, the operand bytes that the row gives no bits being 0. -/
def tablePacket (nbits w : Nat) : List Byte :=
  let bs := tableBytes ((nbits + 7) / 8) w
  bs ++ List.replicate (packetLength bs - bs.length) 0

/-- The command the decoder reads from a row's bits, numbered as spec/opcode_table.json numbers them. -/
def decodeTableWord (nbits w : Nat) : Option Instr :=
  match decode (tablePacket nbits w) with
  | .command i _ => some i
  | .reserved _ _ => none
  | .malformed _ _ => none
  | .incomplete => none

end Sys2Proof
end

