-- ==== Sys2Proof/Machine/Fetch.lean ====
section
/-!
DEFINITION. What the controller does next: reset, a command from the command port, a rejected packet, or nothing while
the other agents move (rules R88, R91, R250).
-/
namespace Sys2Proof.Machine

/-- What one step does: it settles in a state, or runs a command. -/
inductive Action where
  | settle (t : State)
  | run (i : Instr) (t : State)

/-- The bytes of the packet at the head of the command port have been consumed (rule R88). -/
def State.consume (s : State) (rest : List Byte) : State := { s with port := rest }

/-- The next action: reset while the line is asserted, else what the command port holds (rules R88, R91). -/
def nextAction (s : State) : Action :=
  if s.env.resetLine then .settle s.powerOn
  else
    match decode s.port with
    | .command i rest => .run i (s.consume rest)
    | .reserved _ rest => .settle ((s.consume rest).reject none)
    | .malformed op rest => .settle ((s.consume rest).reject (some op))
    | .incomplete => .settle s.idle

/-- A packet put at the head of the command port, the reset input released, so that the next step runs it. -/
def State.sendNext (s : State) (packet : List Byte) : State :=
  { s with port := packet ++ s.port, env := { s.env with resetLine := false } }

end Sys2Proof.Machine
end

