-- ==== Sys2Proof/Machine/Step.lean ====
section
/-!
DEFINITION. One step of the controller: the next action of the command port, a command being run by `exec` to its end.
-/
namespace Sys2Proof.Machine

/-- One step (rules R9, R88): `nextAction` says what, `exec` runs a command. -/
def step (s : State) : Host.Outcome State Fault Refusal :=
  match nextAction s with
  | .settle t => .next t
  | .run i t => exec i t

/-- `s` with the packet of a row's bits at the head of the command port, so that the next step runs it (log 17). -/
def State.withFetchWord (s : State) (nbits w : Nat) : State := s.sendNext (tablePacket nbits w)

end Sys2Proof.Machine
end

