-- ==== Sys2Proof/Machine/Wire.lean ====
section
/-!
DEFINITION. What a bus symbol is on the two lines (rules R64, R93, R143, R146): who pulls which line, and the levels that
gives. Observation only: no rule of the machine reads it, and there is no time in it (rule R266): a list of the instants
the lines pass through (log 20).
-/
namespace Sys2Proof.Machine

/-- What one device does to the two open-drain lines: true pulls a line low, false releases it; nothing drives a line high
(rule R93). -/
structure Pull where
  scl : Bool
  sda : Bool
deriving DecidableEq, Repr

/-- The levels of the two lines; true is high. -/
structure Lines where
  scl : Bool
  sda : Bool
deriving DecidableEq, Repr

/-- A device that pulls neither line. -/
def Pull.released : Pull := { scl := false, sda := false }

/-- Open drain: a line is high when no device pulls it low (rule R93). -/
def levels (devices : List Pull) : Lines where
  scl := devices.all fun p => !p.scl
  sda := devices.all fun p => !p.sda

/-- One instant on the wires: what the controller pulls, and what the slave side (all other devices together) pulls. -/
structure Instant where
  controller : Pull
  slave : Pull
deriving DecidableEq, Repr

/-- The levels of the lines at an instant. -/
def Instant.lines (i : Instant) : Lines := levels [i.controller, i.slave]

/-- Which side does something to SDA. -/
inductive Side where
  | controller | slave
deriving DecidableEq, Repr

/-- The other side: the receiver of a byte its transmitter sends. -/
def Side.other : Side → Side
  | .controller => .slave
  | .slave => .controller

/-- An instant at which the controller pulls SCL or not and one side pulls SDA or not; the other side releases SDA. Only
the controller pulls SCL (rule R146; clock stretching is outside the model, rule R5). -/
def instant (scl : Bool) (who : Side) (sda : Bool) : Instant :=
  match who with
  | .controller => { controller := { scl := scl, sda := sda }, slave := .released }
  | .slave => { controller := { scl := scl, sda := false }, slave := { scl := false, sda := sda } }

/-- One clock pulse the controller generates: SDA is set while SCL is low and keeps its level until SCL is low again
(rules R93, R146). `low`: whether `who` pulls SDA. -/
def pulse (who : Side) (low : Bool) : List Instant := [instant true who low, instant false who low, instant true who low]

/-- Whether the receiver of a byte pulls SDA on the ninth pulse: for ACK it does, for NACK it leaves it high (rules R93,
R146). -/
def ackLow : Ack → Bool
  | .ack => true
  | .nack => false

/-- The bits of a byte in the order sent, bit 7 first (rule R64). -/
def msbFirst (b : Byte) : List Bool := (List.range 8).map fun i => b.getLsbD (7 - i)

/-- Nine pulses: on eight the transmitter gives the bits, on the ninth it releases SDA and the receiver answers (rules R93,
R146). -/
def byteInstants (transmitter : Side) (b : Byte) (k : Ack) : List Instant :=
  (msbFirst b).flatMap (fun bit => pulse transmitter (!bit)) ++ pulse transmitter.other (ackLow k)

/-- The instants of a bus symbol. `S` and `Sr`: SDA falls while SCL is high; `P`: SDA rises while SCL is high (rule R93).
Every symbol but `P` is followed by a post, and its last instant, with SCL pulled low by the controller, lasts until the
next control-register write (rule R143). DESIGN CHOICE (log 20): but for a bit or an acknowledge it gives, the slave side
releases both lines; so the expansion presumes that no slave holds a line low, where rule R265 lets a stop condition not
appear on the wires. -/
def Sym.instants : Sym → List Instant
  | .s => [instant false .controller false, instant false .controller true, instant true .controller true]
  | .sr => [instant true .controller false, instant false .controller false, instant false .controller true,
      instant true .controller true]
  | .p => [instant true .controller true, instant false .controller true, instant false .controller false]
  | .tx b k => byteInstants .controller b k
  | .rx b k => byteInstants .slave b k

/-- The levels of the lines through a bus symbol. -/
def Sym.wire (x : Sym) : List Lines := x.instants.map Instant.lines

/-- The levels of the two lines over a whole bus trace. -/
def wireOf (trace : List Sym) : List Lines := trace.flatMap Sym.wire

/-- The lines as a trace leaves them; both high before any symbol (rule R93). Both high after a stop condition is no claim
that the bus is idle: it presumes that no slave holds a line (rule R265; log 20). -/
def linesAfter (trace : List Sym) : Lines := (wireOf trace).getLast?.getD (levels [])

/-- Whether the controller holds the clock line low: from a post, which sets the interrupt flag, until the control write
that clears it (rules R132, R142, R143; log 20). -/
def State.holdsClockLow (s : State) : Bool := s.cr.int

/-- The instants at which SCL is high: those a receiver samples (rule R93). -/
def clockHigh (is : List Instant) : List Instant := is.filter (·.lines.scl)

/-- What a receiver samples: SDA while SCL is high (rule R93). -/
def sampled (ls : List Lines) : List Bool := (ls.filter (·.scl)).map (·.sda)

/-- SDA changes between two successive instants only while SCL is low in both (rule R146). -/
def changesWhileLow : List Lines → Bool
  | x :: y :: rest => (x.sda == y.sda || !(x.scl || y.scl)) && changesWhileLow (y :: rest)
  | [_] => true
  | [] => true

end Sys2Proof.Machine
end

