-- ==== Sys2Proof/Safety.lean ====
section
/-!
DEFINITION. What the claims are stated in: the invariants of rule R43 and those they need, the rest state of rule R188,
which states accept a command, and the shapes of environment the spec's examples use (rule R119).
-/
namespace Sys2Proof.Machine

/-- The invariants of rule R43 (a), (c), (d), (e), with what they rest on: a configuration within rule R8, a status that is the
idle code or the code of PHASE (rules R85, R132, R142), a latch that is the idle code or the status (rule R25). -/
structure BusInv (s : State) : Prop where
  cfg_wf : s.cfg.wf = true
  /-- R43 (a) -/
  latch_masked : s.latch &&& s.cfg.statusMask = s.latch
  /-- R43 (c), first half -/
  in_flight_flag_clear : s.pending ≠ none → s.cr.int = false
  /-- R43 (d) -/
  capture_pending_flag : s.capPend = true → s.cr.int = true
  /-- R43 (e), first half -/
  unowned_idle : s.own = false → s.phase = .idle
  /-- a start condition follows the stop condition on the wires (rule R135; log 9) -/
  owned_stop_clear : s.own = true → s.cr.sto = false
  /-- R43 (e), second half -/
  unowned_event : s.own = false → s.pending = none ∨ s.pending = some .genStart
  /-- with the flag clear the status is the idle code (rule R132); with R43 (c) this is its second half -/
  clear_idle : s.cr.int = false → s.sr.status = s.code .idle
  /-- with the flag set the status is the posted one (rule R142) -/
  set_posted : s.cr.int = true → s.sr.status = s.code s.phase
  /-- the latch lags the status or equals it (rules R112, R113) -/
  latch_lags : s.latch = s.code .idle ∨ s.latch = s.sr.status

/-- The invariants that hold whenever the controller is at rest between two commands. -/
structure Inv (s : State) : Prop where
  bus : BusInv s
  /-- R43 (b) -/
  cnt_bounded : s.cnt ≤ s.cfg.timeoutBudget
  /-- the sequencer is not in a command (rule R33) -/
  not_busy : s.busy = false
  /-- after INIT the peripheral is enabled, and the interrupt source by MODE (rules R83, R204) -/
  enabled : s.inited = true → s.cr.en = true ∧ s.cr.ie = modeIe s.mode
  /-- before INIT nothing has happened on the bus (rules R42, R252) -/
  untouched : s.inited = false →
    s.pending = none ∧ s.own = false ∧ s.cr.int = false ∧ s.cr.sto = false ∧ s.trace = []
  /-- TXBUF holds at most MAX_LEN bytes (rules R31, R183) -/
  txbuf_bounded : s.txbuf.length ≤ s.cfg.maxLen.toNat

/-- The rest state of rule R188. -/
structure Rest (s : State) : Prop where
  op_none : s.seq.op = none
  not_own : s.own = false
  phase_idle : s.phase = .idle
  nothing_pending : s.pending = none

/-- A command is accepted: not busy, initialized, a configuration within rule R8 (rules R8, R170, R183). -/
structure Ready (s : State) : Prop where
  op_none : s.seq.op = none
  inited : s.inited = true
  cfg_wf : s.cfg.wf = true

/-- `t` is the state reset left of a command begun in `s`: every state element to which the reset table gives a value holds
it (rules R42, R250). Of DR, the operand registers and SEQ.STEP, to which it gives none, nothing is said (U9; log 4, log 5),
nor of how many gaps have been taken: they are as in some state `u`. That what the host still has to send, the configuration
and the two premises of the environment stay, and that there is no response, is the model's choice (log 13). -/
def Abandoned (s t : State) : Prop :=
  ∃ u : State, t = { State.resetFor s.cfg with
    dr := u.dr
    addr := u.addr
    reg := u.reg
    count := u.count
    txbuf := u.txbuf
    data := u.data
    more := u.more
    fBus := u.fBus
    fCore := u.fCore
    seq := { op := none, step := u.seq.step, idx := 0 }
    port := s.port
    env := { s.env with plan := u.env.plan, draws := u.env.draws, resetLine := false } }

/-- Reset came while a command begun in `s` was running. -/
def ResetMeanwhile (s t : State) : Prop := s.env.mayReset = true ∧ Abandoned s t

/-- What a posted status needs to be seen in the interrupt realization: GIE (rules R112, R259). -/
def CanCapture (s : State) : Prop := s.mode = .irq → s.gie = true

/-- The state with other gaps to come. -/
def State.withPlan (s : State) (plan : List Gap) : State := { s with env := { s.env with plan := plan } }

/-- `n` gaps in which no other agent moves. -/
def quiet (n : Nat) : List Gap := List.replicate n []

/-- The gap in which the event in flight completes and, in the interrupt realization, is captured at once. -/
def eventGap (m : Mode) (k : Ack) (d : Byte) : Gap :=
  match m with
  | .poll => [.complete k d]
  | .irq => [.complete k d, .capture]

/-- A plan in which `n` micro-steps meet no move, then `k` samples see the idle status, then the event completes. -/
def answered (m : Mode) (n k : Nat) (a : Ack) (d : Byte) : List Gap := quiet (n + k) ++ [eventGap m a d]

/-- CR after a control pattern in realization `m`: the flag `posted` or not, the stop flag as given (rules R20, R82,
R142). -/
def patternBits (m : Mode) (ea sta sto posted : Bool) : Control :=
  { int := posted, ea := ea, sta := sta, sto := sto, en := true, ie := modeIe m }

/-- The state in which a waiting primitive command leaves the controller when event `x` posted `st` after `k` idle
samples and the wait saw it: everything but CR's pattern, DR, OWN and the command's operand register. -/
def State.afterEvent (s : State) (r : ResultKind) (st : BusStatus) (x : Sym) (cnt : Half) (rest : List Gap) : State :=
  { s with
    sr := { s.sr with status := s.code st }
    latch := match s.mode with
      | .poll => s.code .idle
      | .irq => s.code st
    capPend := decide (s.mode = .poll)
    cnt := cnt
    phase := st
    pending := none
    trace := s.trace ++ [x]
    seq := { s.seq with op := none, step := .single }
    err := r
    response := [resultByte r]
    env := { s.env with plan := rest } }

/-- A command that is one of the seven primitives (rule R160). -/
def isPrimitive (i : Instr) : Prop := i.opcode ≠ .init ∧ i.opcode ≠ .read ∧ i.opcode ≠ .write

/-- A command whose meaning is one control write and one wait: every primitive but STOP (rule R160). -/
def isWaiting (i : Instr) : Prop := isPrimitive i ∧ i.opcode ≠ .stop

/-- The state a rejected command leaves: the result, the one-byte response, RXLEN cleared for READ and WRITE only, and
nothing else (rules R170, R183, R208, R224). -/
def State.rejected (s : State) (i : Instr) : State :=
  { s with
    err := .precondition
    response := [4]
    rxlen := match i with
      | .read _ _ _ => 0
      | .write _ _ _ => 0
      | .start | .restart | .stop | .addrW _ | .addrR _ | .dataW _ | .dataR _ | .init _ _ _ => s.rxlen }

/-- The plan of a READ in which every event completes after `k` idle samples, the slave side acknowledging every byte
sent and sending `ds` (rules R119, R180). -/
def readPlan (m : Mode) (k : Nat) (ds : List Byte) : List Gap :=
  answered m 1 k .ack 0 ++ answered m 2 k .ack 0 ++ answered m 2 k .ack 0 ++ answered m 1 k .ack 0 ++
    answered m 2 k .ack 0 ++ ds.flatMap (fun d => answered m 1 k .ack d ++ [[]]) ++ [[]]

/-- The plan of a WRITE of `n` bytes in which every event completes after `k` idle samples and every byte is
acknowledged (rules R119, R181). -/
def writePlan (m : Mode) (k n : Nat) : List Gap :=
  answered m 1 k .ack 0 ++ answered m 2 k .ack 0 ++ answered m 2 k .ack 0 ++
    (List.replicate n (answered m 2 k .ack 0)).flatten ++ [[]]

/-- The two address frames of rule R81: `a` and the direction bit below it. -/
def writeFrame (a : Addr7) : Byte := a ++ 0#1

/-- The read frame, `(address << 1) | 1` (rule R81). -/
def readFrame (a : Addr7) : Byte := a ++ 1#1

end Sys2Proof.Machine
end

