-- ==== Sys2Proof/Certificates/Slice0/Obligations.lean ====
section
/-!
DEFINITION. The statements for the provers, in the order of OBLIGATIONS.json. Each docstring names the rules of spec/ it
formalises. A statement holds for every configuration within rule R8, every schedule and every slave: where one is
about particular answers, its hypothesis says which gaps the plan holds.
-/
open Sys2Proof Sys2Proof.Machine

/-! ### Reset and the machine as a whole -/

/-- The reset table of rule R42, for every row that gives a value. -/
def Obligations.ResetLeavesTableValues : Prop :=
  State.reset.latch = State.reset.code .idle ∧ State.reset.sr.status = State.reset.code .idle ∧
  State.reset.sr.ps = 0 ∧ State.reset.crByte = 0 ∧ State.reset.brr = 0 ∧ State.reset.cnt = 0 ∧
  State.reset.gie = false ∧ State.reset.inited = false ∧ State.reset.mode = .poll ∧ State.reset.rxbuf = [] ∧
  State.reset.rxlen = 0 ∧ State.reset.busy = false ∧ State.reset.seq.idx = 0 ∧ State.reset.err = .ok ∧
  State.reset.phase = .idle ∧ State.reset.own = false ∧ State.reset.pending = none ∧
  State.reset.capPend = false ∧ State.reset.trace = []

/-- The invariants of rule R43, with those they need, hold at reset. -/
def Obligations.ResetMeetsInvariant : Prop := Inv State.reset

/-- The invariants of rule R43, with those they need, are kept by every step from every state that has them. -/
def Obligations.StepKeepsInvariant : Prop := ∀ s t : State, Inv s → step s = .next t → Inv t

/-- Rules R27, R40: the configuration is fixed for the lifetime of the controller. -/
def Obligations.StepKeepsConfiguration : Prop := ∀ s t : State, step s = .next t → t.cfg = s.cfg

/-- Rules R250, R251: reset abandons what was in progress and leaves the power-on values, whatever the state was. The
bytes on the command port stay: the model's choice, log 13. -/
def Obligations.ResetLinePowersOn : Prop :=
  ∀ s : State, s.env.resetLine = true →
    ∃ t, step s = .next t ∧ Rest t ∧ t.inited = false ∧ t.crByte = 0 ∧ t.latch = s.code .idle ∧
      t.sr.status = s.code .idle ∧ t.sr.ps = 0 ∧ t.brr = 0 ∧ t.cnt = 0 ∧ t.gie = false ∧ t.mode = .poll ∧
      t.seq.idx = 0 ∧ t.err = .ok ∧ t.capPend = false ∧ t.trace = [] ∧ t.rxbuf = [] ∧ t.rxlen = 0 ∧
      t.cfg = s.cfg ∧ t.env.resetLine = false ∧ t.port = s.port

/-! ### Encoding -/

/-- One packet of each command, its bytes written out from rule R89 (the packets of 95_test_vectors.md). -/
def Obligations.DecodesSpecPackets : Prop :=
  decode [0x01] = .command .start [] ∧ decode [0x02] = .command .restart [] ∧ decode [0x03] = .command .stop [] ∧
  decode [0x04, 0x60] = .command (.addrW 0x60) [] ∧ decode [0x05, 0x48] = .command (.addrR 0x48) [] ∧
  decode [0x06, 0x12] = .command (.dataW 0x12) [] ∧ decode [0x07, 0x01] = .command (.dataR true) [] ∧
  decode [0x10, 0x01, 0xA0, 0x86, 0x01, 0x00, 0x00, 0x24, 0xF4, 0x00] = .command (.init .irq 100000 16000000) [] ∧
  decode [0x11, 0x60, 0x05, 0x01, 0x02] = .command (.read 0x60 0x05 513) [] ∧
  decode [0x12, 0x60, 0x00, 0x02, 0x00, 0x12, 0x34] = .command (.write 0x60 0x00 [0x12, 0x34]) []

/-- Rules R88, R89, R92: the packet of a well-formed command decodes to it, whatever follows on the command port. -/
def Obligations.DecodeInvertsEncode : Prop :=
  ∀ (i : Instr) (rest : List Byte), i.wf = true → decode (encode i ++ rest) = .command i rest

/-- Rules R88, R89: each command has one packet: bytes that decode to it are its packet and what follows. -/
def Obligations.DecodedPacketIsTheEncoding : Prop :=
  ∀ (bs : List Byte) (i : Instr) (rest : List Byte), decode bs = .command i rest → i.wf = true ∧ bs = encode i ++ rest

/-- Rule R91, reserved opcodes: one byte consumed, PRECONDITION, nothing else touched. -/
def Obligations.ReservedOpcodeRejected : Prop :=
  ∀ (s : State) (b : Byte) (rest : List Byte), s.env.resetLine = false → s.port = b :: rest →
    b = 0x00 ∨ (0x08 ≤ b ∧ b ≤ 0x0F) ∨ 0x13 ≤ b →
    step s = .next { s with port := rest, err := .precondition, response := [4] }

/-- Rule R91, malformed operand bytes: the whole packet consumed, PRECONDITION, no hardware register touched; RXLEN is
cleared for READ and WRITE (rule R183, check 1). -/
def Obligations.MalformedOperandRejected : Prop :=
  ∀ (s : State) (x y lo hi b0 b1 b2 b3 c0 c1 c2 c3 : Byte) (rest : List Byte), s.env.resetLine = false →
    (0x80 ≤ x → (s.port = 0x04 :: x :: rest ∨ s.port = 0x05 :: x :: rest) →
      step s = .next { s with port := rest, err := .precondition, response := [4] }) ∧
    (0x02 ≤ x → (s.port = 0x07 :: x :: rest ∨
        s.port = 0x10 :: x :: b0 :: b1 :: b2 :: b3 :: c0 :: c1 :: c2 :: c3 :: rest) →
      step s = .next { s with port := rest, err := .precondition, response := [4] }) ∧
    (0x80 ≤ x → s.port = 0x11 :: x :: y :: lo :: hi :: rest →
      step s = .next { s with port := rest, err := .precondition, response := [4], rxlen := 0 }) ∧
    (∀ payload : List Byte, payload.length = lo.toNat + 256 * hi.toNat →
      0x80 ≤ x → s.port = 0x12 :: x :: y :: lo :: hi :: (payload ++ rest) →
      step s = .next { s with port := rest, err := .precondition, response := [4], rxlen := 0 })

/-- A step runs the decoded command: with the reset input released and a whole well-formed packet at the head of the
command port, `step` is `exec` of that command on the state with the packet's bytes consumed (rule R88). That one step runs
a whole command, its micro-steps and the other agents' moves between them included, is the model's choice (log 1). -/
def Obligations.StepRunsDecodedCommand : Prop :=
  ∀ (s : State) (i : Instr) (rest : List Byte), s.env.resetLine = false → decode s.port = .command i rest →
    step s = exec i { s with port := rest }

/-- With no whole packet on the command port no command runs and the bytes stay: the step is one gap of the other agents'
moves, which leaves what they cannot write (rules R9, R28, R112, R142), or reset where that is asserted in the gap (rule
R250), which leaves what the reset table gives; of DR, the operand registers and SEQ.STEP nothing is said then (R42, U9). That
the rest of a packet is waited for so is the model's choice (log 14), as is reset in a gap with the bytes on the port kept
(log 13). -/
def Obligations.IncompletePacketWaits : Prop :=
  ∀ s : State, s.env.resetLine = false → decode s.port = .incomplete →
    (s.env.resetNext = true → ∃ t, step s = .next t ∧ Abandoned s t) ∧
    (s.env.resetNext = false → ∃ t, step s = .next t ∧ t = gap s ∧
      t.port = s.port ∧ t.response = s.response ∧ t.seq = s.seq ∧ t.err = s.err ∧ t.cnt = s.cnt ∧ t.inited = s.inited ∧
      t.mode = s.mode ∧ t.brr = s.brr ∧ t.sr.ps = s.sr.ps ∧ t.cr.ea = s.cr.ea ∧ t.cr.sta = s.cr.sta ∧
      t.cr.en = s.cr.en ∧ t.cr.ie = s.cr.ie ∧ t.addr = s.addr ∧ t.reg = s.reg ∧ t.count = s.count ∧
      t.txbuf = s.txbuf ∧ t.data = s.data ∧ t.more = s.more ∧ t.fBus = s.fBus ∧ t.fCore = s.fCore ∧
      t.rxbuf = s.rxbuf ∧ t.rxlen = s.rxlen ∧ t.cfg = s.cfg ∧ (s.env.hostGie = false → t.gie = s.gie))

/-! ### Frames, patterns, divisor, wires -/

/-- Rule R80: `frame[7:1] = a[6:0]` and `frame[0] = d`. -/
def Obligations.AddressFrameBits : Prop :=
  ∀ a : Addr7, (frame a .write).extractLsb' 1 7 = a ∧ (frame a .write).getLsbD 0 = false ∧
    (frame a .read).extractLsb' 1 7 = a ∧ (frame a .read).getLsbD 0 = true

/-- The pattern bytes rule R82 gives for the default LAYOUT, polling then interrupt, and INIT's enabling write (R204). -/
def Obligations.DefaultPatternBytes : Prop :=
  patStart .default .poll = 0xA4 ∧ patStart .default .irq = 0xA5 ∧ patStop .default .poll = 0x94 ∧
  patStop .default .irq = 0x95 ∧ patPlain .default .poll = 0x84 ∧ patPlain .default .irq = 0x85 ∧
  patAck .default .poll = 0xC4 ∧ patAck .default .irq = 0xC5 ∧ patEnable .default .poll = 0x04 ∧
  patEnable .default .irq = 0x05

/-- Rules R201, R202: with the quotient below 16 the divisor is 0, else half the excess over 16, at most 255. -/
def Obligations.DivisorSaturates : Prop :=
  ∀ core bus : Hertz, bus ≠ 0 →
    (core.toNat / bus.toNat < 16 → divisor core bus = 0) ∧
    (16 ≤ core.toNat / bus.toNat →
      (divisor core bus).toNat = min 255 ((core.toNat / bus.toNat - 16) / 2))

/-- Rules R64, R93, R146, on the wires of a byte, with no time between its instants (the model's form, log 20). What is sampled while SCL is high: bit 7 first, bit 0 last, then the
acknowledge bit, low for ACK; the levels are the same in both directions. Who pulls SDA: on the eight pulses the
transmitter alone, for the bits that are 0; on the ninth the receiver alone, for ACK. SDA changes only while SCL is low. Open drain: with the transmitter released on the ninth pulse the line is high, a NACK,
exactly when no other device pulls it; so an address to which none answers is sampled as NACK.
That no other device pulls SCL is the model's choice (log 20), not a rule's: rules R145 and R150 know a slave that holds the
clock line, which rule R5 leaves out. -/
def Obligations.ByteOnTheWires : Prop :=
  ∀ (b : Byte) (k : Ack),
    let bits : List Bool := [b.getLsbD 7, b.getLsbD 6, b.getLsbD 5, b.getLsbD 4, b.getLsbD 3, b.getLsbD 2, b.getLsbD 1,
      b.getLsbD 0]
    let tx : List Instant := clockHigh (Sym.instants (.tx b k))
    let rx : List Instant := clockHigh (Sym.instants (.rx b k))
    sampled (Sym.wire (.tx b k)) = bits ++ [decide (k = .nack)] ∧
    Sym.wire (.rx b k) = Sym.wire (.tx b k) ∧
    tx.map (·.controller.sda) = bits.map (!·) ++ [false] ∧
    tx.map (·.slave.sda) = List.replicate 8 false ++ [decide (k = .ack)] ∧
    rx.map (·.slave.sda) = bits.map (!·) ++ [false] ∧
    rx.map (·.controller.sda) = List.replicate 8 false ++ [decide (k = .ack)] ∧
    (∀ i ∈ Sym.instants (.tx b k) ++ Sym.instants (.rx b k), i.slave.scl = false) ∧
    changesWhileLow (Sym.wire (.tx b k)) = true ∧
    ∀ (i : Instant) (devices : List Pull), tx.getLast? = some i →
      ((levels (i.controller :: devices)).sda = true ↔ ∀ p ∈ devices, p.sda = false)

/-! ### The bus engine -/

/-- Rules R133, R134 with the pattern of rule R82: a start is launched when the bus is not held, a repeated start when it
is; rule R132 clears the flag, the status, the latch and CAP_PEND and supersedes an event in flight. Of TRACE something is
said only where nothing was superseded (U6; log 8). -/
def Obligations.StartPatternLaunches : Prop :=
  ∀ s : State, s.cfg.wf = true →
    ∃ tr, regWriteCR (patStart s.cfg.layout s.mode) s = .next { s with
        cr := patternBits s.mode false true s.cr.sto false
        sr := { s.sr with status := s.code .idle }
        latch := s.code .idle
        capPend := false
        pending := some (if s.own then .genRestart else .genStart)
        trace := tr } ∧
      (s.pending = none → tr = s.trace)

/-- Rule R135: the bus is released, nothing is posted, and the symbol `P` is emitted only when the bus is held. CR.STO
stays 1 until the stop condition is on the wires (rule R20; log 9). Of TRACE something is said only where nothing was
superseded (U6; log 8). -/
def Obligations.StopPatternReleasesBus : Prop :=
  ∀ s : State, s.cfg.wf = true →
    ∃ tr, regWriteCR (patStop s.cfg.layout s.mode) s = .next { s with
        cr := patternBits s.mode false false true false
        sr := { s.sr with status := s.code .idle }
        latch := s.code .idle
        capPend := false
        pending := none
        own := false
        phase := .idle
        trace := tr } ∧
      (s.pending = none → tr = if s.own then s.trace ++ [.p] else s.trace)

/-- Rule R136 with the patterns of rule R82: what a continuing write launches, by PHASE. Of TRACE something is said only
where nothing was superseded (U6; log 8). -/
def Obligations.ContinuePatternLaunchesByPhase : Prop :=
  ∀ (s : State) (ea : Bool) (e : BusEvent), s.cfg.wf = true →
    ((s.phase = .start ∨ s.phase = .restart) ∧ e = .txAddr s.dr ∨
     (s.phase = .addrWAck ∨ s.phase = .dataWAck) ∧ e = .txData s.dr ∨
     (s.phase = .addrRAck ∨ s.phase = .dataRMore) ∧ e = .rxData (if ea then .ack else .nack)) →
    ∃ tr, regWriteCR ((if ea then patAck else patPlain) s.cfg.layout s.mode) s = .next { s with
        cr := patternBits s.mode ea false s.cr.sto false
        sr := { s.sr with status := s.code .idle }
        latch := s.code .idle
        capPend := false
        pending := some e
        trace := tr } ∧
      (s.pending = none → tr = s.trace)

/-- Rules R148, R152: a continuing write in the five phases without a continuation, a write with both STA and STO, and a
write with EN = 0 (also without INTC: log 10) are given no meaning. -/
def Obligations.UnspecifiedLaunchRefused : Prop :=
  ∀ (s : State) (v : Byte) (c : Control), c = Control.ofByte s.cfg.layout v →
    (c.en = false → regWriteCR v s = .refused .peripheralDisable) ∧
    (c.en = true → c.int = true → c.sta = true → c.sto = true → regWriteCR v s = .refused .startWithStop) ∧
    (c.en = true → c.int = true → c.sta = false → c.sto = false →
      s.phase = .idle ∨ s.phase = .addrWNack ∨ s.phase = .dataWNack ∨ s.phase = .addrRNack ∨ s.phase = .dataRLast →
      regWriteCR v s = .refused .unspecifiedContinue)

/-- Rule R137: the completion of a start condition. That CR.STO reads 0 afterwards is the model's reading of rule R135
(log 9), and that CR.EN is needed its reading of rule R130 (log 22). -/
def Obligations.StartCompletionHoldsBus : Prop :=
  ∀ (s : State) (k : Ack) (d : Byte), s.cr.en = true → s.pending = some .genStart →
    engineStep k d s = { s with
      own := true, trace := s.trace ++ [.s], phase := .start, sr := { s.sr with status := s.code .start }
      cr := { s.cr with int := true, sto := false }, capPend := true, pending := none }

/-- Rules R138, R139, R140, R141, R142: what each other completion emits, posts and writes, CR.EN being set (log 22). Of
DR after a transmit event nothing is said (U9; log 6). -/
def Obligations.CompletionsEmitAndPost : Prop :=
  ∀ (s : State) (k : Ack) (d b : Byte) (a : Ack), s.cr.en = true →
    (s.pending = some .genRestart → engineStep k d s = { s with
      trace := s.trace ++ [.sr], phase := .restart, sr := { s.sr with status := s.code .restart }
      cr := { s.cr with int := true }, capPend := true, pending := none }) ∧
    (∀ st : BusStatus, s.pending = some (.txAddr b) →
      (b.getLsbD 0 = false ∧ k = .ack ∧ st = .addrWAck ∨ b.getLsbD 0 = false ∧ k = .nack ∧ st = .addrWNack ∨
        b.getLsbD 0 = true ∧ k = .ack ∧ st = .addrRAck ∨ b.getLsbD 0 = true ∧ k = .nack ∧ st = .addrRNack) →
      ∃ x, engineStep k d s = { s with
        dr := x, trace := s.trace ++ [.tx b k], phase := st, sr := { s.sr with status := s.code st }
        cr := { s.cr with int := true }, capPend := true, pending := none }) ∧
    (∀ st : BusStatus, s.pending = some (.txData b) → (k = .ack ∧ st = .dataWAck ∨ k = .nack ∧ st = .dataWNack) →
      ∃ x, engineStep k d s = { s with
        dr := x, trace := s.trace ++ [.tx b k], phase := st, sr := { s.sr with status := s.code st }
        cr := { s.cr with int := true }, capPend := true, pending := none }) ∧
    (∀ st : BusStatus, s.pending = some (.rxData a) → (a = .ack ∧ st = .dataRMore ∨ a = .nack ∧ st = .dataRLast) →
      engineStep k d s = { s with
        dr := d, trace := s.trace ++ [.rx d a], phase := st, sr := { s.sr with status := s.code st }
        cr := { s.cr with int := true }, capPend := true, pending := none })

/-- Rule R112: the capture step copies the masked status and clears CAP_PEND, and nothing else; it does nothing unless
MODE = IRQ, CAP_PEND, CR.IE and GIE. In a state with the bus invariants the copy is the posted status itself. -/
def Obligations.CaptureCopiesStatusOnce : Prop :=
  ∀ s : State,
    (s.mode = .irq ∧ s.capPend = true ∧ s.cr.ie = true ∧ s.gie = true →
      captureStep s = { s with latch := s.srByte &&& s.cfg.statusMask, capPend := false } ∧
      captureStep (captureStep s) = captureStep s ∧
      (BusInv s → (captureStep s).current = s.code s.phase)) ∧
    (¬ (s.mode = .irq ∧ s.capPend = true ∧ s.cr.ie = true ∧ s.gie = true) → captureStep s = s)

/-- Rules R69, R113, R132: after any control write with INTC that the spec gives a meaning, no sample sees an earlier
status: `current()` is the idle code in both realizations, and nothing is left to capture. -/
def Obligations.ControlWriteInvalidatesStatus : Prop :=
  ∀ (s t : State) (v : Byte), s.cfg.wf = true → v.getLsbD s.cfg.layout.crInt.val = true → regWriteCR v s = .next t →
    t.current = s.code .idle ∧ t.latch = s.code .idle ∧ t.sr.status = s.code .idle ∧ t.cr.int = false ∧
    t.capPend = false

/-- Rule R143. With an event in flight, as a control write leaves it, at most one status is posted and one symbol emitted,
however the other agents move: either nothing has happened yet, or the event has completed once and nothing is in flight.
After a completion, and whenever nothing is in flight, the engine is at rest until the next control write: no further
status is posted, no symbol emitted, and DR keeps its byte. -/
def Obligations.OnePostPerControlWrite : Prop :=
  ∀ (s : State) (g : Gap),
    let t := g.foldl envMove s
    (s.pending = none →
      t.sr = s.sr ∧ t.phase = s.phase ∧ t.trace = s.trace ∧ t.dr = s.dr ∧ t.own = s.own ∧ t.cr.int = s.cr.int ∧
      t.pending = none) ∧
    (∀ e : BusEvent, s.pending = some e →
      t.pending = some e ∧ t.sr = s.sr ∧ t.phase = s.phase ∧ t.trace = s.trace ∧ t.dr = s.dr ∧ t.own = s.own ∧
        t.cr.int = s.cr.int ∨
      t.pending = none ∧ t.cr.int = true ∧ t.sr.status = s.code t.phase ∧ t.sr.ps = s.sr.ps ∧
        ∃ x : Sym, t.trace = s.trace ++ [x])

/-- Rule R151: a DR write over an event in flight is given no meaning. -/
def Obligations.DataWriteInFlightRefused : Prop :=
  ∀ (s : State) (v : Byte) (e : BusEvent), s.pending = some e → regWriteDR v s = .refused .dataWriteInFlight

/-! ### The timed wait -/

/-- Rules R115, R116, for every wait, with a sibling or without. It is never refused: it answers, or reset ends it (rule
R250). CNT never exceeds the budget; the wait times out exactly at the budget, succeeds only on a sample of the target, and
answers another error only as that of its sibling, with NACK_CLASSIFY, on a sample of the sibling. -/
def Obligations.WaitEndsWithinBudget : Prop :=
  ∀ (s : State) (target : BusStatus) (nack : Sibling),
    (∀ (st : BusStatus) (e : ResultKind), nack = some (st, e) → e ≠ .ok ∧ e ≠ .timeout) →
    (∃ t, waitUntil target nack s = .abandoned t ∧ ResetMeanwhile s t) ∨
    ∃ (r : ResultKind) (t : State), waitUntil target nack s = .next (r, t) ∧
      t.cnt ≤ s.cfg.timeoutBudget ∧
      (r = .timeout → t.cnt = s.cfg.timeoutBudget) ∧
      (r = .ok → t.cnt < s.cfg.timeoutBudget ∧ t.current = s.code target) ∧
      (r ≠ .ok → r ≠ .timeout → t.cnt < s.cfg.timeoutBudget ∧ s.cfg.nackClassify = true ∧
        ∃ st, nack = some (st, r) ∧ t.current = s.code st)

/-- Rules R115, R117 with no move of another agent, for a wait with a not-acknowledged sibling or without: where the status is
not the target, and is not the sibling either or NACK_CLASSIFY is off, TIMEOUT after exactly TIMEOUT_BUDGET samples, and the
wait has written CNT only. -/
def Obligations.QuietWaitTimesOut : Prop :=
  ∀ (s : State) (target : BusStatus) (nack : Sibling) (rest : List Gap), s.current ≠ s.code target →
    (∀ (st : BusStatus) (e : ResultKind), nack = some (st, e) → s.cfg.nackClassify = false ∨ s.current ≠ s.code st) →
    s.env.plan = quiet s.cfg.timeoutBudget.toNat ++ rest →
    waitUntil target nack s =
      .next (.timeout, { s with cnt := s.cfg.timeoutBudget, env := { s.env with plan := rest } })

/-- Rule R259: with GIE kept at 0 in the interrupt realization every primitive that waits ends in TIMEOUT, whatever the
engine does, unless reset ends it (rule R250). -/
def Obligations.MaskedInterruptTimesOut : Prop :=
  ∀ (i : Instr) (s t : State), Ready s → isWaiting i → s.mode = .irq → s.gie = false → s.env.hostGie = false →
    exec i s = .next t → ResetMeanwhile s t ∨ t.err = .timeout ∧ t.cnt = s.cfg.timeoutBudget

/-! ### The primitives -/

/-- Rule R161: START with the bus not held, the start condition generated after `k` idle samples (CR.STO: log 9). -/
def Obligations.StartSucceeds : Prop :=
  ∀ (s : State) (k : Nat) (a : Ack) (d : Byte) (rest : List Gap), Ready s → CanCapture s →
    s.pending = none → s.own = false → k < s.cfg.timeoutBudget.toNat → s.env.plan = answered s.mode 1 k a d ++ rest →
    exec .start s = .next { s.afterEvent .ok .start .s (BitVec.ofNat 16 k) rest with
      cr := patternBits s.mode false true false true
      own := true }

/-- Rules R134, R161, R169: START while the bus is held produces a repeated start and ends in TIMEOUT. -/
def Obligations.StartWhileHeldTimesOut : Prop :=
  ∀ (s : State) (k : Nat) (a : Ack) (d : Byte) (rest : List Gap), Ready s → CanCapture s →
    s.pending = none → s.own = true → k < s.cfg.timeoutBudget.toNat →
    s.env.plan = answered s.mode 1 k a d ++ (quiet (s.cfg.timeoutBudget.toNat - k - 1) ++ rest) →
    exec .start s = .next { s.afterEvent .timeout .restart .sr s.cfg.timeoutBudget rest with
      cr := patternBits s.mode false true s.cr.sto true }

/-- Rule R162: RESTART with the bus held, the repeated start generated after `k` idle samples. -/
def Obligations.RestartSucceeds : Prop :=
  ∀ (s : State) (k : Nat) (a : Ack) (d : Byte) (rest : List Gap), Ready s → CanCapture s →
    s.pending = none → s.own = true → k < s.cfg.timeoutBudget.toNat → s.env.plan = answered s.mode 1 k a d ++ rest →
    exec .restart s = .next { s.afterEvent .ok .restart .sr (BitVec.ofNat 16 k) rest with
      cr := patternBits s.mode false true s.cr.sto true }

/-- Rules R134, R162, R169: RESTART with the bus not held produces a start, ends in TIMEOUT, and the bus is then held
(CR.STO: log 9). -/
def Obligations.RestartWhileFreeTimesOut : Prop :=
  ∀ (s : State) (k : Nat) (a : Ack) (d : Byte) (rest : List Gap), Ready s → CanCapture s →
    s.pending = none → s.own = false → k < s.cfg.timeoutBudget.toNat →
    s.env.plan = answered s.mode 1 k a d ++ (quiet (s.cfg.timeoutBudget.toNat - k - 1) ++ rest) →
    exec .restart s = .next { s.afterEvent .timeout .start .s s.cfg.timeoutBudget rest with
      cr := patternBits s.mode false true false true
      own := true }

/-- Rules R119, R161: a start condition that is never generated: TIMEOUT, the event still in flight. Nothing is said of
TRACE (U6; log 8). -/
def Obligations.UnansweredStartTimesOut : Prop :=
  ∀ (s : State) (rest : List Gap), Ready s → s.own = false →
    s.env.plan = quiet (1 + s.cfg.timeoutBudget.toNat) ++ rest →
    ∃ tr, exec .start s = .next { s with
      cr := patternBits s.mode false true s.cr.sto false
      sr := { s.sr with status := s.code .idle }
      latch := s.code .idle
      capPend := false
      cnt := s.cfg.timeoutBudget
      pending := some .genStart
      seq := { s.seq with op := none, step := .single }
      err := .timeout
      response := [1]
      trace := tr
      env := { s.env with plan := rest } }

/-- Rule R163: STOP, no other agent moving before its control write. CNT is not touched. CR.STO as in log 9; of TRACE
something is said only where nothing was superseded (U6; log 8). -/
def Obligations.StopReleasesBus : Prop :=
  ∀ (s : State) (rest : List Gap), Ready s → s.env.plan = [] :: rest →
    ∃ tr, exec .stop s = .next { s with
        cr := patternBits s.mode false false true false
        sr := { s.sr with status := s.code .idle }
        latch := s.code .idle
        capPend := false
        pending := none
        own := false
        phase := .idle
        trace := tr
        seq := { s.seq with op := none, step := .single }
        err := .ok
        response := [0]
        env := { s.env with plan := rest } } ∧
      (s.pending = none → tr = if s.own then s.trace ++ [.p] else s.trace)

/-- Rule R163: STOP cannot fail, whatever the other agents do and whatever is in flight; only reset can end it earlier (rule
R250). -/
def Obligations.StopNeverFails : Prop :=
  ∀ s : State, Ready s →
    ∃ t, exec .stop s = .next t ∧
      (ResetMeanwhile s t ∨
        t.err = .ok ∧ t.response = [0] ∧ Rest t ∧ t.cnt = s.cnt ∧ t.sr.status = s.code .idle ∧ t.latch = s.code .idle ∧
          t.cr.int = false)

/-- Rule R164: ADDR_W after a start or repeated start, acknowledged after `k` idle samples.
That DR keeps the byte sent is the model's reading (log 6). -/
def Obligations.AddrWSucceeds : Prop :=
  ∀ (s : State) (a : Addr7) (k : Nat) (d : Byte) (rest : List Gap), Ready s → CanCapture s → s.pending = none →
    s.phase = .start ∨ s.phase = .restart → k < s.cfg.timeoutBudget.toNat →
    s.env.plan = answered s.mode 2 k .ack d ++ rest →
    exec (.addrW a) s = .next { s.afterEvent .ok .addrWAck (.tx (writeFrame a) .ack) (BitVec.ofNat 16 k) rest with
      addr := a
      dr := writeFrame a
      cr := patternBits s.mode false false s.cr.sto true }

/-- Rule R165: ADDR_R after a start or repeated start, acknowledged after `k` idle samples.
That DR keeps the byte sent is the model's reading (log 6). -/
def Obligations.AddrRSucceeds : Prop :=
  ∀ (s : State) (a : Addr7) (k : Nat) (d : Byte) (rest : List Gap), Ready s → CanCapture s → s.pending = none →
    s.phase = .start ∨ s.phase = .restart → k < s.cfg.timeoutBudget.toNat →
    s.env.plan = answered s.mode 2 k .ack d ++ rest →
    exec (.addrR a) s = .next { s.afterEvent .ok .addrRAck (.tx (readFrame a) .ack) (BitVec.ofNat 16 k) rest with
      addr := a
      dr := readFrame a
      cr := patternBits s.mode false false s.cr.sto true }

/-- Rules R117, R222: a not-acknowledged address ends the wait at its sample with ADDRESS_NACK when NACK_CLASSIFY, else the
wait ends in TIMEOUT after the full budget. That DR keeps the byte sent is the model's reading (log 6). -/
def Obligations.AddressNackByConfiguration : Prop :=
  ∀ (s : State) (a : Addr7) (k : Nat) (d : Byte) (rest : List Gap), Ready s → CanCapture s → s.pending = none →
    s.phase = .start ∨ s.phase = .restart → k < s.cfg.timeoutBudget.toNat →
    (s.cfg.nackClassify = true → s.env.plan = answered s.mode 2 k .nack d ++ rest →
      exec (.addrW a) s = .next { s.afterEvent .addressNack .addrWNack (.tx (writeFrame a) .nack) (BitVec.ofNat 16 k) rest
        with
        addr := a
        dr := writeFrame a
        cr := patternBits s.mode false false s.cr.sto true } ∧
      exec (.addrR a) s = .next { s.afterEvent .addressNack .addrRNack (.tx (readFrame a) .nack) (BitVec.ofNat 16 k) rest
        with
        addr := a
        dr := readFrame a
        cr := patternBits s.mode false false s.cr.sto true }) ∧
    (s.cfg.nackClassify = false →
      s.env.plan = answered s.mode 2 k .nack d ++ (quiet (s.cfg.timeoutBudget.toNat - k - 1) ++ rest) →
      exec (.addrW a) s = .next { s.afterEvent .timeout .addrWNack (.tx (writeFrame a) .nack) s.cfg.timeoutBudget rest with
        addr := a
        dr := writeFrame a
        cr := patternBits s.mode false false s.cr.sto true } ∧
      exec (.addrR a) s = .next { s.afterEvent .timeout .addrRNack (.tx (readFrame a) .nack) s.cfg.timeoutBudget rest with
        addr := a
        dr := readFrame a
        cr := patternBits s.mode false false s.cr.sto true })

/-- Rule R166: DATA_W after an acknowledged write address or data byte, acknowledged after `k` idle samples.
That DR keeps the byte sent is the model's reading (log 6). -/
def Obligations.DataWSucceeds : Prop :=
  ∀ (s : State) (b : Byte) (k : Nat) (d : Byte) (rest : List Gap), Ready s → CanCapture s → s.pending = none →
    s.phase = .addrWAck ∨ s.phase = .dataWAck → k < s.cfg.timeoutBudget.toNat →
    s.env.plan = answered s.mode 2 k .ack d ++ rest →
    exec (.dataW b) s = .next { s.afterEvent .ok .dataWAck (.tx b .ack) (BitVec.ofNat 16 k) rest with
      data := b
      dr := b
      cr := patternBits s.mode false false s.cr.sto true }

/-- Rules R117, R223: a not-acknowledged data byte: DATA_NACK when NACK_CLASSIFY, else TIMEOUT after the full budget.
That DR keeps the byte sent is the model's reading (log 6). -/
def Obligations.DataNackByConfiguration : Prop :=
  ∀ (s : State) (b : Byte) (k : Nat) (d : Byte) (rest : List Gap), Ready s → CanCapture s → s.pending = none →
    s.phase = .addrWAck ∨ s.phase = .dataWAck → k < s.cfg.timeoutBudget.toNat →
    (s.cfg.nackClassify = true → s.env.plan = answered s.mode 2 k .nack d ++ rest →
      exec (.dataW b) s = .next { s.afterEvent .dataNack .dataWNack (.tx b .nack) (BitVec.ofNat 16 k) rest with
        data := b
        dr := b
        cr := patternBits s.mode false false s.cr.sto true }) ∧
    (s.cfg.nackClassify = false →
      s.env.plan = answered s.mode 2 k .nack d ++ (quiet (s.cfg.timeoutBudget.toNat - k - 1) ++ rest) →
      exec (.dataW b) s = .next { s.afterEvent .timeout .dataWNack (.tx b .nack) s.cfg.timeoutBudget rest with
        data := b
        dr := b
        cr := patternBits s.mode false false s.cr.sto true })

/-- Rule R167: DATA_R answers ACK when more bytes are expected and NACK for the last one, and returns the byte the slave
sent. -/
def Obligations.DataRReturnsByte : Prop :=
  ∀ (s : State) (more : Bool) (k : Nat) (a : Ack) (d : Byte) (rest : List Gap), Ready s → CanCapture s →
    s.pending = none → s.phase = .addrRAck ∨ s.phase = .dataRMore → k < s.cfg.timeoutBudget.toNat →
    s.env.plan = answered s.mode 1 k a d ++ ([] :: rest) →
    exec (.dataR more) s = .next
      { s.afterEvent .ok (if more then .dataRMore else .dataRLast) (.rx d (if more then .ack else .nack))
          (BitVec.ofNat 16 k) rest with
        more := more
        dr := d
        cr := patternBits s.mode more false s.cr.sto true
        response := [0, d] }

/-- Rules R148, R169, R262: DATA_R after the last byte of a read is given no meaning. -/
def Obligations.DataRAfterLastRefused : Prop :=
  ∀ (s : State) (more : Bool) (rest : List Gap), Ready s → s.phase = .dataRLast → s.env.plan = [] :: rest →
    exec (.dataR more) s = .refused .unspecifiedContinue

/-- Rule R169, the column "can succeed when": a primitive that succeeded began in such a state. (`t.inited`: it was not
abandoned in reset, rule R250.) -/
def Obligations.SuccessOnlyInPlace : Prop :=
  ∀ (i : Instr) (s t : State), Inv s → s.inited = true → s.pending = none → exec i s = .next t →
    t.inited = true → t.err = .ok →
    (i = .start → s.own = false) ∧
    (i = .restart → s.own = true) ∧
    (∀ a, i = .addrW a ∨ i = .addrR a → s.phase = .start ∨ s.phase = .restart) ∧
    (∀ d, i = .dataW d → s.phase = .addrWAck ∨ s.phase = .dataWAck) ∧
    (∀ m, i = .dataR m → s.phase = .addrRAck ∨ s.phase = .dataRMore)

/-- The frame of the seven primitives: what none of them writes (rules R161 to R167), whatever its result; ADDR, DATA and
MORE are written by the commands that carry them only (rule R31), CNT not by STOP (rule R163), DR not by START, RESTART
and STOP unless a receive was still in flight (that a transmit event leaves DR is the model's reading, log 6). A
command that reset ends leaves the power-on state instead (rule R250). -/
def Obligations.PrimitivesFrame : Prop :=
  ∀ (i : Instr) (s t : State), isPrimitive i → exec i s = .next t → ResetMeanwhile s t ∨
    t.brr = s.brr ∧ t.sr.ps = s.sr.ps ∧ t.inited = s.inited ∧ t.mode = s.mode ∧ t.reg = s.reg ∧ t.count = s.count ∧
    t.txbuf = s.txbuf ∧ t.fBus = s.fBus ∧ t.fCore = s.fCore ∧ t.rxbuf = s.rxbuf ∧ t.rxlen = s.rxlen ∧
    t.seq.idx = s.seq.idx ∧ t.seq.op = s.seq.op ∧ t.port = s.port ∧ t.cfg = s.cfg ∧
    (s.env.hostGie = false → t.gie = s.gie) ∧
    ((∀ a, i ≠ .addrW a ∧ i ≠ .addrR a) → t.addr = s.addr) ∧
    ((∀ d, i ≠ .dataW d) → t.data = s.data) ∧
    ((∀ m, i ≠ .dataR m) → t.more = s.more) ∧
    (i = .stop → t.cnt = s.cnt) ∧
    (i = .start ∨ i = .restart ∨ i = .stop → (∀ k, s.pending ≠ some (.rxData k)) → t.dr = s.dr)

/-! ### READ and WRITE -/

/-- Rules R180, R190: a READ whose every event completes within the budget and is acknowledged returns exactly the bytes
the slave sent, first received first, with the bus trace of rule R180, and leaves the rest state of rule R188. -/
def Obligations.ReadReturnsBytes : Prop :=
  ∀ (s : State) (a : Addr7) (r : Byte) (bs : List Byte) (b : Byte) (k : Nat) (rest : List Gap),
    Ready s → Rest s → CanCapture s → bs.length + 1 ≤ s.cfg.maxLen.toNat → k < s.cfg.timeoutBudget.toNat →
    s.env.plan = readPlan s.mode k (bs ++ [b]) ++ rest →
    ∃ t, exec (.read a r (BitVec.ofNat 16 (bs.length + 1))) s = .next t ∧ t.err = .ok ∧ Rest t ∧
      t.rxbuf = bs ++ [b] ∧ t.rxlen.toNat = bs.length + 1 ∧
      t.response = 0 :: BitVec.ofNat 8 (bs.length + 1) :: BitVec.ofNat 8 ((bs.length + 1) / 256) :: (bs ++ [b]) ∧
      t.trace = s.trace ++ ([.s, .tx (writeFrame a) .ack, .tx r .ack, .sr, .tx (readFrame a) .ack] ++
        bs.map (fun x => .rx x .ack) ++ [.rx b .nack, .p]) ∧
      t.addr = a ∧ t.reg = r ∧ t.count.toNat = bs.length + 1 ∧ t.seq.idx = t.count ∧ t.env.plan = rest

/-- Rules R181, R184: a WRITE whose every event completes within the budget and is acknowledged sends the register
selector and the bytes in list order; an empty list is legal. -/
def Obligations.WriteSendsBytes : Prop :=
  ∀ (s : State) (a : Addr7) (r : Byte) (bs : List Byte) (k : Nat) (rest : List Gap),
    Ready s → Rest s → CanCapture s → bs.length ≤ s.cfg.maxLen.toNat → k < s.cfg.timeoutBudget.toNat →
    s.env.plan = writePlan s.mode k bs.length ++ rest →
    ∃ t, exec (.write a r bs) s = .next t ∧ t.err = .ok ∧ Rest t ∧ t.response = [0] ∧
      t.trace = s.trace ++ ([.s, .tx (writeFrame a) .ack, .tx r .ack] ++ bs.map (fun x => .tx x .ack) ++ [.p]) ∧
      t.addr = a ∧ t.reg = r ∧ t.txbuf = bs ∧ t.seq.idx.toNat = bs.length ∧ t.env.plan = rest

/-- Rules R186, R187, R188, R191: from rest, in every environment, a READ that passes its checks ends: in the rest state,
with the bytes or with an error and none of them, unless reset ends it (rule R250). -/
def Obligations.ReadFromRestCompletes : Prop :=
  ∀ (s : State) (a : Addr7) (r : Byte) (n : Half), Inv s → s.inited = true → Rest s → 0 < n → n ≤ s.cfg.maxLen →
    ∃ t, exec (.read a r n) s = .next t ∧
      (ResetMeanwhile s t ∨
        Rest t ∧ t.addr = a ∧ t.reg = r ∧ t.count = n ∧ t.err ≠ .precondition ∧
        (t.err = .ok → t.rxlen = n ∧ t.rxbuf.length = n.toNat ∧
          t.response = 0 :: n.extractLsb' 0 8 :: n.extractLsb' 8 8 :: t.rxbuf) ∧
        (t.err ≠ .ok → t.rxlen = 0 ∧ t.response = [resultByte t.err]))

/-- Rules R186, R187, R188, R191: from rest, in every environment, a WRITE that passes its checks ends in the rest state
with its result, unless reset ends it (rule R250); that a failed one leaves RXLEN is the model's reading (log 12). -/
def Obligations.WriteFromRestCompletes : Prop :=
  ∀ (s : State) (a : Addr7) (r : Byte) (bs : List Byte), Inv s → s.inited = true → Rest s →
    bs.length ≤ s.cfg.maxLen.toNat →
    ∃ t, exec (.write a r bs) s = .next t ∧
      (ResetMeanwhile s t ∨
        Rest t ∧ t.addr = a ∧ t.reg = r ∧ t.txbuf = bs ∧ t.err ≠ .precondition ∧ t.response = [resultByte t.err] ∧
        t.rxlen = s.rxlen ∧ t.rxbuf = s.rxbuf)

/-- Rule R182 on the bus: a READ or WRITE from rest that ended without a TIMEOUT put a start condition first, one stop
condition last, and no stop condition between. (After a TIMEOUT nothing is claimed of the trace, U6;
`t.inited`: it was not abandoned in reset, rule R250.) -/
def Obligations.OneStopPerTransaction : Prop :=
  ∀ (i : Instr) (s t : State), Inv s → s.inited = true → Rest s → i.opcode = .read ∨ i.opcode = .write →
    exec i s = .next t → t.inited = true → t.err ≠ .timeout → t.err ≠ .precondition →
    ∃ mid : List Sym, t.trace = s.trace ++ (.s :: (mid ++ [.p])) ∧ .p ∉ mid

/-- The frame of READ and WRITE: what neither writes (rules R180, R181), whatever the result; one that reset ends leaves the
power-on state instead (rule R250). -/
def Obligations.TransactionsFrame : Prop :=
  ∀ (s t : State) (a : Addr7) (r : Byte) (n : Half) (bs : List Byte),
    exec (.read a r n) s = .next t ∨ exec (.write a r bs) s = .next t →
    ResetMeanwhile s t ∨
    t.brr = s.brr ∧ t.sr.ps = s.sr.ps ∧ t.inited = s.inited ∧ t.mode = s.mode ∧ t.data = s.data ∧ t.more = s.more ∧
    t.fBus = s.fBus ∧ t.fCore = s.fCore ∧ t.seq.op = s.seq.op ∧ t.port = s.port ∧ t.cfg = s.cfg ∧
    (s.env.hostGie = false → t.gie = s.gie) ∧
    (exec (.read a r n) s = .next t → t.txbuf = s.txbuf) ∧
    (exec (.write a r bs) s = .next t → t.count = s.count ∧ t.rxbuf = s.rxbuf)

/-- Rules R183, R185, R224, R263: a READ of no bytes, a READ or WRITE longer than MAX_LEN: PRECONDITION, RXLEN cleared,
nothing else touched. That a rejected command loads no operand register is the model's reading (log 11). -/
def Obligations.LengthChecksReject : Prop :=
  ∀ (s : State) (a : Addr7) (r : Byte) (n : Half) (bs : List Byte), Ready s →
    exec (.read a r 0) s = .next (s.rejected (.read a r 0)) ∧
    (s.cfg.maxLen < n → exec (.read a r n) s = .next (s.rejected (.read a r n))) ∧
    (s.cfg.maxLen.toNat < bs.length → exec (.write a r bs) s = .next (s.rejected (.write a r bs)))

/-! ### INIT and the checks -/

/-- Rules R200 to R206: INIT of a controller with nothing in flight configures the divisor, the prescaler, the realization
and the enables, launches nothing, emits nothing, and writes nothing else; GIE is what INIT leaves unless the surrounding
system changes it (rule R259). Where reset may come (rule R250) it can end INIT first, and nothing else can. -/
def Obligations.InitConfigures : Prop :=
  ∀ (s : State) (m : Mode) (bus core : Hertz), s.seq.op = none → s.inited = false → s.cfg.wf = true → bus ≠ 0 →
    s.pending = none → s.capPend = false → s.cr.sto = false →
    let configured : Prop := ∃ (g : Bool) (e : Env), exec (.init m bus core) s = .next { s with
        brr := BitVec.ofNat 8 (min 255 ((core.toNat / bus.toNat - 16) / 2))
        sr := { s.sr with ps := 0 }
        mode := m
        cr := { int := s.cr.int, ea := false, sta := false, sto := false, en := true, ie := decide (m = .irq) }
        gie := g
        inited := true
        fBus := bus
        fCore := core
        seq := { s.seq with op := none, step := .single }
        err := .ok
        response := [0]
        env := e } ∧
      e.cfg = s.env.cfg ∧ (s.env.hostGie = false → g = (s.gie || decide (m = .irq)))
    (s.env.mayReset = false → configured) ∧
      (configured ∨ ∃ t, exec (.init m bus core) s = .next t ∧ ResetMeanwhile s t)

/-- Rule R208: a bus frequency of 0 is rejected and no register is written; a core frequency of 0 gives the divisor 0
(that such an INIT is accepted is `InitConfigures`, which holds for every core frequency). -/
def Obligations.InitZeroBusRejected : Prop :=
  (∀ (s : State) (m : Mode) (core : Hertz), s.seq.op = none → s.inited = false →
    exec (.init m 0 core) s = .next (s.rejected (.init m 0 core))) ∧
  ∀ bus : Hertz, bus ≠ 0 → divisor 0 bus = 0

/-- Rule R207: an INIT while busy and a second INIT at rest are given no meaning, in particular no PRECONDITION, whatever
the operands. -/
def Obligations.SecondInitRefused : Prop :=
  ∀ (s : State) (m : Mode) (bus core : Hertz),
    (s.busy = true → exec (.init m bus core) s = .refused .commandWhileBusy) ∧
    (Ready s → exec (.init m bus core) s = .refused .secondInit)

/-- Rule R255: a command while busy is given no meaning. -/
def Obligations.CommandWhileBusyRefused : Prop :=
  ∀ (i : Instr) (s : State), s.busy = true → exec i s = .refused .commandWhileBusy

/-- Rules R170, R183, R252: before INIT every other command is rejected and touches nothing. -/
def Obligations.UninitializedRejected : Prop :=
  ∀ (i : Instr) (s : State), i.opcode ≠ .init → s.seq.op = none → s.inited = false →
    exec i s = .next (s.rejected i)

/-- Rule R110: in the polling realization the latch is never read: two machines that differ in it alone end in states
that differ in it alone, or stop alike. -/
def Obligations.PollingIgnoresLatch : Prop :=
  ∀ (i : Instr) (s : State) (v : Byte), s.mode = .poll →
    (∀ t, exec i s = .next t → ∃ w, exec i { s with latch := v } = .next { t with latch := w }) ∧
    (∀ x, exec i s = .refused x → exec i { s with latch := v } = .refused x)

/-! ### The held clock line, and reset -/

/-- Rule R143 on the wires: with the completion of an event the bus trace ends with SCL low, and the controller holds the
clock line low, the bus trace unchanged, however the other agents move, until a control write clears the interrupt flag.
In the expansion of a trace to line levels every bus symbol but the stop condition leaves SCL low; the stop condition leaves
both lines high, which presumes that no slave holds a line (the model's choice, log 20): rule R265 says that otherwise the
stop condition may not appear on the wires, so this is no claim that the bus is idle after a STOP. That "the next control
write" is the next one with INTC is the model's reading (log 20). -/
def Obligations.ClockHeldLowAfterPost : Prop :=
  (∀ (s : State) (e : BusEvent) (k : Ack) (d : Byte) (g : Gap), s.pending = some e → s.cr.en = true →
    let t := g.foldl envMove (engineStep k d s)
    t.holdsClockLow = true ∧ (linesAfter t.trace).scl = false ∧ t.trace = (engineStep k d s).trace ∧
    ∀ (v : Byte) (u : State), v.getLsbD t.cfg.layout.crInt.val = true → regWriteCR v t = .next u →
      u.holdsClockLow = false) ∧
  ∀ (trace : List Sym) (x : Sym), (linesAfter (trace ++ [x])).scl = decide (x = .p) ∧
    (x = .p → (linesAfter (trace ++ [x])).sda = true)

/-- Rule R250: reset may occur at any time, and what is in progress is abandoned without a stop. Whatever command runs in an
initialized controller, it ends initialized or as reset left it. And reset does end any command, INIT too, at any of its
micro-steps: wherever a run of it to its end takes a gap from the plan (`gs` before that gap), it ends there in the power-on
state when reset is asserted in that gap, the gaps after it untouched. In particular so do START, READ and WRITE after `j`
gaps without a move, for every `j` up to the last sample of the first wait. `Abandoned` says what reset leaves: nothing of the
registers the reset table leaves unspecified (R42, U9; log 4, log 5). That reset falls in a gap, that the bytes on the command
port stay and that no response is given is the model's choice (log 13). -/
def Obligations.ResetAbandonsCommand : Prop :=
  (∀ (i : Instr) (s t : State), s.inited = true → exec i s = .next t → t.inited = true ∨ ResetMeanwhile s t) ∧
  (∀ (i : Instr) (s t : State) (gs more rest : List Gap) (g0 g : Gap), s.env.mayReset = true →
    s.env.plan = gs ++ g0 :: more → exec i s = .next t → t.env.plan.length ≤ more.length → .reset ∈ g →
    ∃ u, exec i (s.withPlan (gs ++ g :: rest)) = .next u ∧ Abandoned s u ∧ u.env.plan = rest) ∧
  ∀ (i : Instr) (s : State) (j : Nat) (g : Gap) (rest : List Gap), Ready s → Rest s → s.env.mayReset = true →
    i = .start ∨ (∃ (a : Addr7) (r : Byte) (n : Half), i = .read a r n ∧ 0 < n ∧ n ≤ s.cfg.maxLen) ∨
      (∃ (a : Addr7) (r : Byte) (bs : List Byte), i = .write a r bs ∧ bs.length ≤ s.cfg.maxLen.toNat) →
    j ≤ s.cfg.timeoutBudget.toNat → .reset ∈ g → s.env.plan = quiet j ++ g :: rest →
    ∃ u, exec i s = .next u ∧ Abandoned s u ∧ u.env.plan = rest
end

