-- ==== Sys2Proof/Laws/State.lean ====
section
/-!
SUPPORT. What each named update of the state leaves in each field, by `rfl`: with these a proof about an operation
never unfolds a record update.
-/
namespace Sys2Proof.Machine

variable (s : State)

/-! ### emit -/

@[simp] theorem emit_cr (x : Sym) : (s.emit x).cr = s.cr := rfl
@[simp] theorem emit_sr (x : Sym) : (s.emit x).sr = s.sr := rfl
@[simp] theorem emit_dr (x : Sym) : (s.emit x).dr = s.dr := rfl
@[simp] theorem emit_brr (x : Sym) : (s.emit x).brr = s.brr := rfl
@[simp] theorem emit_latch (x : Sym) : (s.emit x).latch = s.latch := rfl
@[simp] theorem emit_cnt (x : Sym) : (s.emit x).cnt = s.cnt := rfl
@[simp] theorem emit_gie (x : Sym) : (s.emit x).gie = s.gie := rfl
@[simp] theorem emit_inited (x : Sym) : (s.emit x).inited = s.inited := rfl
@[simp] theorem emit_mode (x : Sym) : (s.emit x).mode = s.mode := rfl
@[simp] theorem emit_addr (x : Sym) : (s.emit x).addr = s.addr := rfl
@[simp] theorem emit_reg (x : Sym) : (s.emit x).reg = s.reg := rfl
@[simp] theorem emit_count (x : Sym) : (s.emit x).count = s.count := rfl
@[simp] theorem emit_txbuf (x : Sym) : (s.emit x).txbuf = s.txbuf := rfl
@[simp] theorem emit_data (x : Sym) : (s.emit x).data = s.data := rfl
@[simp] theorem emit_more (x : Sym) : (s.emit x).more = s.more := rfl
@[simp] theorem emit_fBus (x : Sym) : (s.emit x).fBus = s.fBus := rfl
@[simp] theorem emit_fCore (x : Sym) : (s.emit x).fCore = s.fCore := rfl
@[simp] theorem emit_rxbuf (x : Sym) : (s.emit x).rxbuf = s.rxbuf := rfl
@[simp] theorem emit_rxlen (x : Sym) : (s.emit x).rxlen = s.rxlen := rfl
@[simp] theorem emit_seq (x : Sym) : (s.emit x).seq = s.seq := rfl
@[simp] theorem emit_err (x : Sym) : (s.emit x).err = s.err := rfl
@[simp] theorem emit_phase (x : Sym) : (s.emit x).phase = s.phase := rfl
@[simp] theorem emit_own (x : Sym) : (s.emit x).own = s.own := rfl
@[simp] theorem emit_pending (x : Sym) : (s.emit x).pending = s.pending := rfl
@[simp] theorem emit_capPend (x : Sym) : (s.emit x).capPend = s.capPend := rfl
@[simp] theorem emit_trace (x : Sym) : (s.emit x).trace = s.trace ++ [x] := rfl
@[simp] theorem emit_port (x : Sym) : (s.emit x).port = s.port := rfl
@[simp] theorem emit_response (x : Sym) : (s.emit x).response = s.response := rfl
@[simp] theorem emit_env (x : Sym) : (s.emit x).env = s.env := rfl
@[simp] theorem emit_cfg (x : Sym) : (s.emit x).cfg = s.cfg := rfl
@[simp] theorem emit_code (x : Sym) (c : BusStatus) : (s.emit x).code c = s.code c := rfl

/-! ### post -/

@[simp] theorem post_cr (st : BusStatus) : (s.post st).cr = { s.cr with int := true } := rfl
@[simp] theorem post_sr (st : BusStatus) : (s.post st).sr = { s.sr with status := s.code st } := rfl
@[simp] theorem post_dr (st : BusStatus) : (s.post st).dr = s.dr := rfl
@[simp] theorem post_brr (st : BusStatus) : (s.post st).brr = s.brr := rfl
@[simp] theorem post_latch (st : BusStatus) : (s.post st).latch = s.latch := rfl
@[simp] theorem post_cnt (st : BusStatus) : (s.post st).cnt = s.cnt := rfl
@[simp] theorem post_gie (st : BusStatus) : (s.post st).gie = s.gie := rfl
@[simp] theorem post_inited (st : BusStatus) : (s.post st).inited = s.inited := rfl
@[simp] theorem post_mode (st : BusStatus) : (s.post st).mode = s.mode := rfl
@[simp] theorem post_addr (st : BusStatus) : (s.post st).addr = s.addr := rfl
@[simp] theorem post_reg (st : BusStatus) : (s.post st).reg = s.reg := rfl
@[simp] theorem post_count (st : BusStatus) : (s.post st).count = s.count := rfl
@[simp] theorem post_txbuf (st : BusStatus) : (s.post st).txbuf = s.txbuf := rfl
@[simp] theorem post_data (st : BusStatus) : (s.post st).data = s.data := rfl
@[simp] theorem post_more (st : BusStatus) : (s.post st).more = s.more := rfl
@[simp] theorem post_fBus (st : BusStatus) : (s.post st).fBus = s.fBus := rfl
@[simp] theorem post_fCore (st : BusStatus) : (s.post st).fCore = s.fCore := rfl
@[simp] theorem post_rxbuf (st : BusStatus) : (s.post st).rxbuf = s.rxbuf := rfl
@[simp] theorem post_rxlen (st : BusStatus) : (s.post st).rxlen = s.rxlen := rfl
@[simp] theorem post_seq (st : BusStatus) : (s.post st).seq = s.seq := rfl
@[simp] theorem post_err (st : BusStatus) : (s.post st).err = s.err := rfl
@[simp] theorem post_phase (st : BusStatus) : (s.post st).phase = st := rfl
@[simp] theorem post_own (st : BusStatus) : (s.post st).own = s.own := rfl
@[simp] theorem post_pending (st : BusStatus) : (s.post st).pending = none := rfl
@[simp] theorem post_capPend (st : BusStatus) : (s.post st).capPend = true := rfl
@[simp] theorem post_trace (st : BusStatus) : (s.post st).trace = s.trace := rfl
@[simp] theorem post_port (st : BusStatus) : (s.post st).port = s.port := rfl
@[simp] theorem post_response (st : BusStatus) : (s.post st).response = s.response := rfl
@[simp] theorem post_env (st : BusStatus) : (s.post st).env = s.env := rfl
@[simp] theorem post_cfg (st : BusStatus) : (s.post st).cfg = s.cfg := rfl
@[simp] theorem post_code (st : BusStatus) (c : BusStatus) : (s.post st).code c = s.code c := rfl

/-! ### holdBus -/

@[simp] theorem holdBus_cr : s.holdBus.cr = { s.cr with sto := false } := rfl
@[simp] theorem holdBus_sr : s.holdBus.sr = s.sr := rfl
@[simp] theorem holdBus_dr : s.holdBus.dr = s.dr := rfl
@[simp] theorem holdBus_brr : s.holdBus.brr = s.brr := rfl
@[simp] theorem holdBus_latch : s.holdBus.latch = s.latch := rfl
@[simp] theorem holdBus_cnt : s.holdBus.cnt = s.cnt := rfl
@[simp] theorem holdBus_gie : s.holdBus.gie = s.gie := rfl
@[simp] theorem holdBus_inited : s.holdBus.inited = s.inited := rfl
@[simp] theorem holdBus_mode : s.holdBus.mode = s.mode := rfl
@[simp] theorem holdBus_addr : s.holdBus.addr = s.addr := rfl
@[simp] theorem holdBus_reg : s.holdBus.reg = s.reg := rfl
@[simp] theorem holdBus_count : s.holdBus.count = s.count := rfl
@[simp] theorem holdBus_txbuf : s.holdBus.txbuf = s.txbuf := rfl
@[simp] theorem holdBus_data : s.holdBus.data = s.data := rfl
@[simp] theorem holdBus_more : s.holdBus.more = s.more := rfl
@[simp] theorem holdBus_fBus : s.holdBus.fBus = s.fBus := rfl
@[simp] theorem holdBus_fCore : s.holdBus.fCore = s.fCore := rfl
@[simp] theorem holdBus_rxbuf : s.holdBus.rxbuf = s.rxbuf := rfl
@[simp] theorem holdBus_rxlen : s.holdBus.rxlen = s.rxlen := rfl
@[simp] theorem holdBus_seq : s.holdBus.seq = s.seq := rfl
@[simp] theorem holdBus_err : s.holdBus.err = s.err := rfl
@[simp] theorem holdBus_phase : s.holdBus.phase = s.phase := rfl
@[simp] theorem holdBus_own : s.holdBus.own = true := rfl
@[simp] theorem holdBus_pending : s.holdBus.pending = s.pending := rfl
@[simp] theorem holdBus_capPend : s.holdBus.capPend = s.capPend := rfl
@[simp] theorem holdBus_trace : s.holdBus.trace = s.trace := rfl
@[simp] theorem holdBus_port : s.holdBus.port = s.port := rfl
@[simp] theorem holdBus_response : s.holdBus.response = s.response := rfl
@[simp] theorem holdBus_env : s.holdBus.env = s.env := rfl
@[simp] theorem holdBus_cfg : s.holdBus.cfg = s.cfg := rfl
@[simp] theorem holdBus_code (c : BusStatus) : s.holdBus.code c = s.code c := rfl

/-! ### receive -/

@[simp] theorem receive_cr (d : Byte) : (s.receive d).cr = s.cr := rfl
@[simp] theorem receive_sr (d : Byte) : (s.receive d).sr = s.sr := rfl
@[simp] theorem receive_dr (d : Byte) : (s.receive d).dr = d := rfl
@[simp] theorem receive_brr (d : Byte) : (s.receive d).brr = s.brr := rfl
@[simp] theorem receive_latch (d : Byte) : (s.receive d).latch = s.latch := rfl
@[simp] theorem receive_cnt (d : Byte) : (s.receive d).cnt = s.cnt := rfl
@[simp] theorem receive_gie (d : Byte) : (s.receive d).gie = s.gie := rfl
@[simp] theorem receive_inited (d : Byte) : (s.receive d).inited = s.inited := rfl
@[simp] theorem receive_mode (d : Byte) : (s.receive d).mode = s.mode := rfl
@[simp] theorem receive_addr (d : Byte) : (s.receive d).addr = s.addr := rfl
@[simp] theorem receive_reg (d : Byte) : (s.receive d).reg = s.reg := rfl
@[simp] theorem receive_count (d : Byte) : (s.receive d).count = s.count := rfl
@[simp] theorem receive_txbuf (d : Byte) : (s.receive d).txbuf = s.txbuf := rfl
@[simp] theorem receive_data (d : Byte) : (s.receive d).data = s.data := rfl
@[simp] theorem receive_more (d : Byte) : (s.receive d).more = s.more := rfl
@[simp] theorem receive_fBus (d : Byte) : (s.receive d).fBus = s.fBus := rfl
@[simp] theorem receive_fCore (d : Byte) : (s.receive d).fCore = s.fCore := rfl
@[simp] theorem receive_rxbuf (d : Byte) : (s.receive d).rxbuf = s.rxbuf := rfl
@[simp] theorem receive_rxlen (d : Byte) : (s.receive d).rxlen = s.rxlen := rfl
@[simp] theorem receive_seq (d : Byte) : (s.receive d).seq = s.seq := rfl
@[simp] theorem receive_err (d : Byte) : (s.receive d).err = s.err := rfl
@[simp] theorem receive_phase (d : Byte) : (s.receive d).phase = s.phase := rfl
@[simp] theorem receive_own (d : Byte) : (s.receive d).own = s.own := rfl
@[simp] theorem receive_pending (d : Byte) : (s.receive d).pending = s.pending := rfl
@[simp] theorem receive_capPend (d : Byte) : (s.receive d).capPend = s.capPend := rfl
@[simp] theorem receive_trace (d : Byte) : (s.receive d).trace = s.trace := rfl
@[simp] theorem receive_port (d : Byte) : (s.receive d).port = s.port := rfl
@[simp] theorem receive_response (d : Byte) : (s.receive d).response = s.response := rfl
@[simp] theorem receive_env (d : Byte) : (s.receive d).env = s.env := rfl
@[simp] theorem receive_cfg (d : Byte) : (s.receive d).cfg = s.cfg := rfl
@[simp] theorem receive_code (d : Byte) (c : BusStatus) : (s.receive d).code c = s.code c := rfl

/-! ### capture -/

@[simp] theorem capture_cr : s.capture.cr = s.cr := rfl
@[simp] theorem capture_sr : s.capture.sr = s.sr := rfl
@[simp] theorem capture_dr : s.capture.dr = s.dr := rfl
@[simp] theorem capture_brr : s.capture.brr = s.brr := rfl
@[simp] theorem capture_latch : s.capture.latch = s.maskedStatus := rfl
@[simp] theorem capture_cnt : s.capture.cnt = s.cnt := rfl
@[simp] theorem capture_gie : s.capture.gie = s.gie := rfl
@[simp] theorem capture_inited : s.capture.inited = s.inited := rfl
@[simp] theorem capture_mode : s.capture.mode = s.mode := rfl
@[simp] theorem capture_addr : s.capture.addr = s.addr := rfl
@[simp] theorem capture_reg : s.capture.reg = s.reg := rfl
@[simp] theorem capture_count : s.capture.count = s.count := rfl
@[simp] theorem capture_txbuf : s.capture.txbuf = s.txbuf := rfl
@[simp] theorem capture_data : s.capture.data = s.data := rfl
@[simp] theorem capture_more : s.capture.more = s.more := rfl
@[simp] theorem capture_fBus : s.capture.fBus = s.fBus := rfl
@[simp] theorem capture_fCore : s.capture.fCore = s.fCore := rfl
@[simp] theorem capture_rxbuf : s.capture.rxbuf = s.rxbuf := rfl
@[simp] theorem capture_rxlen : s.capture.rxlen = s.rxlen := rfl
@[simp] theorem capture_seq : s.capture.seq = s.seq := rfl
@[simp] theorem capture_err : s.capture.err = s.err := rfl
@[simp] theorem capture_phase : s.capture.phase = s.phase := rfl
@[simp] theorem capture_own : s.capture.own = s.own := rfl
@[simp] theorem capture_pending : s.capture.pending = s.pending := rfl
@[simp] theorem capture_capPend : s.capture.capPend = false := rfl
@[simp] theorem capture_trace : s.capture.trace = s.trace := rfl
@[simp] theorem capture_port : s.capture.port = s.port := rfl
@[simp] theorem capture_response : s.capture.response = s.response := rfl
@[simp] theorem capture_env : s.capture.env = s.env := rfl
@[simp] theorem capture_cfg : s.capture.cfg = s.cfg := rfl
@[simp] theorem capture_code (c : BusStatus) : s.capture.code c = s.code c := rfl

/-! ### stopDoneStep -/

@[simp] theorem stopDoneStep_cr : (stopDoneStep s).cr = { s.cr with sto := false } := rfl
@[simp] theorem stopDoneStep_sr : (stopDoneStep s).sr = s.sr := rfl
@[simp] theorem stopDoneStep_dr : (stopDoneStep s).dr = s.dr := rfl
@[simp] theorem stopDoneStep_brr : (stopDoneStep s).brr = s.brr := rfl
@[simp] theorem stopDoneStep_latch : (stopDoneStep s).latch = s.latch := rfl
@[simp] theorem stopDoneStep_cnt : (stopDoneStep s).cnt = s.cnt := rfl
@[simp] theorem stopDoneStep_gie : (stopDoneStep s).gie = s.gie := rfl
@[simp] theorem stopDoneStep_inited : (stopDoneStep s).inited = s.inited := rfl
@[simp] theorem stopDoneStep_mode : (stopDoneStep s).mode = s.mode := rfl
@[simp] theorem stopDoneStep_addr : (stopDoneStep s).addr = s.addr := rfl
@[simp] theorem stopDoneStep_reg : (stopDoneStep s).reg = s.reg := rfl
@[simp] theorem stopDoneStep_count : (stopDoneStep s).count = s.count := rfl
@[simp] theorem stopDoneStep_txbuf : (stopDoneStep s).txbuf = s.txbuf := rfl
@[simp] theorem stopDoneStep_data : (stopDoneStep s).data = s.data := rfl
@[simp] theorem stopDoneStep_more : (stopDoneStep s).more = s.more := rfl
@[simp] theorem stopDoneStep_fBus : (stopDoneStep s).fBus = s.fBus := rfl
@[simp] theorem stopDoneStep_fCore : (stopDoneStep s).fCore = s.fCore := rfl
@[simp] theorem stopDoneStep_rxbuf : (stopDoneStep s).rxbuf = s.rxbuf := rfl
@[simp] theorem stopDoneStep_rxlen : (stopDoneStep s).rxlen = s.rxlen := rfl
@[simp] theorem stopDoneStep_seq : (stopDoneStep s).seq = s.seq := rfl
@[simp] theorem stopDoneStep_err : (stopDoneStep s).err = s.err := rfl
@[simp] theorem stopDoneStep_phase : (stopDoneStep s).phase = s.phase := rfl
@[simp] theorem stopDoneStep_own : (stopDoneStep s).own = s.own := rfl
@[simp] theorem stopDoneStep_pending : (stopDoneStep s).pending = s.pending := rfl
@[simp] theorem stopDoneStep_capPend : (stopDoneStep s).capPend = s.capPend := rfl
@[simp] theorem stopDoneStep_trace : (stopDoneStep s).trace = s.trace := rfl
@[simp] theorem stopDoneStep_port : (stopDoneStep s).port = s.port := rfl
@[simp] theorem stopDoneStep_response : (stopDoneStep s).response = s.response := rfl
@[simp] theorem stopDoneStep_env : (stopDoneStep s).env = s.env := rfl
@[simp] theorem stopDoneStep_cfg : (stopDoneStep s).cfg = s.cfg := rfl
@[simp] theorem stopDoneStep_code (c : BusStatus) : (stopDoneStep s).code c = s.code c := rfl

/-! ### storeEnables -/

@[simp] theorem storeEnables_cr (v : Control) : (s.storeEnables v).cr = { s.cr with ea := v.ea, sta := v.sta, en := v.en, ie := v.ie } := rfl
@[simp] theorem storeEnables_sr (v : Control) : (s.storeEnables v).sr = s.sr := rfl
@[simp] theorem storeEnables_dr (v : Control) : (s.storeEnables v).dr = s.dr := rfl
@[simp] theorem storeEnables_brr (v : Control) : (s.storeEnables v).brr = s.brr := rfl
@[simp] theorem storeEnables_latch (v : Control) : (s.storeEnables v).latch = s.latch := rfl
@[simp] theorem storeEnables_cnt (v : Control) : (s.storeEnables v).cnt = s.cnt := rfl
@[simp] theorem storeEnables_gie (v : Control) : (s.storeEnables v).gie = s.gie := rfl
@[simp] theorem storeEnables_inited (v : Control) : (s.storeEnables v).inited = s.inited := rfl
@[simp] theorem storeEnables_mode (v : Control) : (s.storeEnables v).mode = s.mode := rfl
@[simp] theorem storeEnables_addr (v : Control) : (s.storeEnables v).addr = s.addr := rfl
@[simp] theorem storeEnables_reg (v : Control) : (s.storeEnables v).reg = s.reg := rfl
@[simp] theorem storeEnables_count (v : Control) : (s.storeEnables v).count = s.count := rfl
@[simp] theorem storeEnables_txbuf (v : Control) : (s.storeEnables v).txbuf = s.txbuf := rfl
@[simp] theorem storeEnables_data (v : Control) : (s.storeEnables v).data = s.data := rfl
@[simp] theorem storeEnables_more (v : Control) : (s.storeEnables v).more = s.more := rfl
@[simp] theorem storeEnables_fBus (v : Control) : (s.storeEnables v).fBus = s.fBus := rfl
@[simp] theorem storeEnables_fCore (v : Control) : (s.storeEnables v).fCore = s.fCore := rfl
@[simp] theorem storeEnables_rxbuf (v : Control) : (s.storeEnables v).rxbuf = s.rxbuf := rfl
@[simp] theorem storeEnables_rxlen (v : Control) : (s.storeEnables v).rxlen = s.rxlen := rfl
@[simp] theorem storeEnables_seq (v : Control) : (s.storeEnables v).seq = s.seq := rfl
@[simp] theorem storeEnables_err (v : Control) : (s.storeEnables v).err = s.err := rfl
@[simp] theorem storeEnables_phase (v : Control) : (s.storeEnables v).phase = s.phase := rfl
@[simp] theorem storeEnables_own (v : Control) : (s.storeEnables v).own = s.own := rfl
@[simp] theorem storeEnables_pending (v : Control) : (s.storeEnables v).pending = s.pending := rfl
@[simp] theorem storeEnables_capPend (v : Control) : (s.storeEnables v).capPend = s.capPend := rfl
@[simp] theorem storeEnables_trace (v : Control) : (s.storeEnables v).trace = s.trace := rfl
@[simp] theorem storeEnables_port (v : Control) : (s.storeEnables v).port = s.port := rfl
@[simp] theorem storeEnables_response (v : Control) : (s.storeEnables v).response = s.response := rfl
@[simp] theorem storeEnables_env (v : Control) : (s.storeEnables v).env = s.env := rfl
@[simp] theorem storeEnables_cfg (v : Control) : (s.storeEnables v).cfg = s.cfg := rfl
@[simp] theorem storeEnables_code (v : Control) (c : BusStatus) : (s.storeEnables v).code c = s.code c := rfl

/-! ### clearInterrupt -/

@[simp] theorem clearInterrupt_cr : s.clearInterrupt.cr = { s.cr with int := false } := rfl
@[simp] theorem clearInterrupt_sr : s.clearInterrupt.sr = { s.sr with status := s.code .idle } := rfl
@[simp] theorem clearInterrupt_dr : s.clearInterrupt.dr = s.dr := rfl
@[simp] theorem clearInterrupt_brr : s.clearInterrupt.brr = s.brr := rfl
@[simp] theorem clearInterrupt_latch : s.clearInterrupt.latch = s.code .idle := rfl
@[simp] theorem clearInterrupt_cnt : s.clearInterrupt.cnt = s.cnt := rfl
@[simp] theorem clearInterrupt_gie : s.clearInterrupt.gie = s.gie := rfl
@[simp] theorem clearInterrupt_inited : s.clearInterrupt.inited = s.inited := rfl
@[simp] theorem clearInterrupt_mode : s.clearInterrupt.mode = s.mode := rfl
@[simp] theorem clearInterrupt_addr : s.clearInterrupt.addr = s.addr := rfl
@[simp] theorem clearInterrupt_reg : s.clearInterrupt.reg = s.reg := rfl
@[simp] theorem clearInterrupt_count : s.clearInterrupt.count = s.count := rfl
@[simp] theorem clearInterrupt_txbuf : s.clearInterrupt.txbuf = s.txbuf := rfl
@[simp] theorem clearInterrupt_data : s.clearInterrupt.data = s.data := rfl
@[simp] theorem clearInterrupt_more : s.clearInterrupt.more = s.more := rfl
@[simp] theorem clearInterrupt_fBus : s.clearInterrupt.fBus = s.fBus := rfl
@[simp] theorem clearInterrupt_fCore : s.clearInterrupt.fCore = s.fCore := rfl
@[simp] theorem clearInterrupt_rxbuf : s.clearInterrupt.rxbuf = s.rxbuf := rfl
@[simp] theorem clearInterrupt_rxlen : s.clearInterrupt.rxlen = s.rxlen := rfl
@[simp] theorem clearInterrupt_seq : s.clearInterrupt.seq = s.seq := rfl
@[simp] theorem clearInterrupt_err : s.clearInterrupt.err = s.err := rfl
@[simp] theorem clearInterrupt_phase : s.clearInterrupt.phase = s.phase := rfl
@[simp] theorem clearInterrupt_own : s.clearInterrupt.own = s.own := rfl
@[simp] theorem clearInterrupt_pending : s.clearInterrupt.pending = none := rfl
@[simp] theorem clearInterrupt_capPend : s.clearInterrupt.capPend = false := rfl
@[simp] theorem clearInterrupt_trace : s.clearInterrupt.trace = s.trace := rfl
@[simp] theorem clearInterrupt_port : s.clearInterrupt.port = s.port := rfl
@[simp] theorem clearInterrupt_response : s.clearInterrupt.response = s.response := rfl
@[simp] theorem clearInterrupt_env : s.clearInterrupt.env = s.env := rfl
@[simp] theorem clearInterrupt_cfg : s.clearInterrupt.cfg = s.cfg := rfl
@[simp] theorem clearInterrupt_code (c : BusStatus) : s.clearInterrupt.code c = s.code c := rfl

/-! ### launch -/

@[simp] theorem launch_cr (e : BusEvent) : (s.launch e).cr = s.cr := rfl
@[simp] theorem launch_sr (e : BusEvent) : (s.launch e).sr = s.sr := rfl
@[simp] theorem launch_dr (e : BusEvent) : (s.launch e).dr = s.dr := rfl
@[simp] theorem launch_brr (e : BusEvent) : (s.launch e).brr = s.brr := rfl
@[simp] theorem launch_latch (e : BusEvent) : (s.launch e).latch = s.latch := rfl
@[simp] theorem launch_cnt (e : BusEvent) : (s.launch e).cnt = s.cnt := rfl
@[simp] theorem launch_gie (e : BusEvent) : (s.launch e).gie = s.gie := rfl
@[simp] theorem launch_inited (e : BusEvent) : (s.launch e).inited = s.inited := rfl
@[simp] theorem launch_mode (e : BusEvent) : (s.launch e).mode = s.mode := rfl
@[simp] theorem launch_addr (e : BusEvent) : (s.launch e).addr = s.addr := rfl
@[simp] theorem launch_reg (e : BusEvent) : (s.launch e).reg = s.reg := rfl
@[simp] theorem launch_count (e : BusEvent) : (s.launch e).count = s.count := rfl
@[simp] theorem launch_txbuf (e : BusEvent) : (s.launch e).txbuf = s.txbuf := rfl
@[simp] theorem launch_data (e : BusEvent) : (s.launch e).data = s.data := rfl
@[simp] theorem launch_more (e : BusEvent) : (s.launch e).more = s.more := rfl
@[simp] theorem launch_fBus (e : BusEvent) : (s.launch e).fBus = s.fBus := rfl
@[simp] theorem launch_fCore (e : BusEvent) : (s.launch e).fCore = s.fCore := rfl
@[simp] theorem launch_rxbuf (e : BusEvent) : (s.launch e).rxbuf = s.rxbuf := rfl
@[simp] theorem launch_rxlen (e : BusEvent) : (s.launch e).rxlen = s.rxlen := rfl
@[simp] theorem launch_seq (e : BusEvent) : (s.launch e).seq = s.seq := rfl
@[simp] theorem launch_err (e : BusEvent) : (s.launch e).err = s.err := rfl
@[simp] theorem launch_phase (e : BusEvent) : (s.launch e).phase = s.phase := rfl
@[simp] theorem launch_own (e : BusEvent) : (s.launch e).own = s.own := rfl
@[simp] theorem launch_pending (e : BusEvent) : (s.launch e).pending = some e := rfl
@[simp] theorem launch_capPend (e : BusEvent) : (s.launch e).capPend = s.capPend := rfl
@[simp] theorem launch_trace (e : BusEvent) : (s.launch e).trace = s.trace := rfl
@[simp] theorem launch_port (e : BusEvent) : (s.launch e).port = s.port := rfl
@[simp] theorem launch_response (e : BusEvent) : (s.launch e).response = s.response := rfl
@[simp] theorem launch_env (e : BusEvent) : (s.launch e).env = s.env := rfl
@[simp] theorem launch_cfg (e : BusEvent) : (s.launch e).cfg = s.cfg := rfl
@[simp] theorem launch_code (e : BusEvent) (c : BusStatus) : (s.launch e).code c = s.code c := rfl

/-! ### releaseBus -/

@[simp] theorem releaseBus_cr : s.releaseBus.cr = { s.cr with sto := true } := rfl
@[simp] theorem releaseBus_sr : s.releaseBus.sr = s.sr := rfl
@[simp] theorem releaseBus_dr : s.releaseBus.dr = s.dr := rfl
@[simp] theorem releaseBus_brr : s.releaseBus.brr = s.brr := rfl
@[simp] theorem releaseBus_latch : s.releaseBus.latch = s.latch := rfl
@[simp] theorem releaseBus_cnt : s.releaseBus.cnt = s.cnt := rfl
@[simp] theorem releaseBus_gie : s.releaseBus.gie = s.gie := rfl
@[simp] theorem releaseBus_inited : s.releaseBus.inited = s.inited := rfl
@[simp] theorem releaseBus_mode : s.releaseBus.mode = s.mode := rfl
@[simp] theorem releaseBus_addr : s.releaseBus.addr = s.addr := rfl
@[simp] theorem releaseBus_reg : s.releaseBus.reg = s.reg := rfl
@[simp] theorem releaseBus_count : s.releaseBus.count = s.count := rfl
@[simp] theorem releaseBus_txbuf : s.releaseBus.txbuf = s.txbuf := rfl
@[simp] theorem releaseBus_data : s.releaseBus.data = s.data := rfl
@[simp] theorem releaseBus_more : s.releaseBus.more = s.more := rfl
@[simp] theorem releaseBus_fBus : s.releaseBus.fBus = s.fBus := rfl
@[simp] theorem releaseBus_fCore : s.releaseBus.fCore = s.fCore := rfl
@[simp] theorem releaseBus_rxbuf : s.releaseBus.rxbuf = s.rxbuf := rfl
@[simp] theorem releaseBus_rxlen : s.releaseBus.rxlen = s.rxlen := rfl
@[simp] theorem releaseBus_seq : s.releaseBus.seq = s.seq := rfl
@[simp] theorem releaseBus_err : s.releaseBus.err = s.err := rfl
@[simp] theorem releaseBus_phase : s.releaseBus.phase = .idle := rfl
@[simp] theorem releaseBus_own : s.releaseBus.own = false := rfl
@[simp] theorem releaseBus_pending : s.releaseBus.pending = none := rfl
@[simp] theorem releaseBus_capPend : s.releaseBus.capPend = s.capPend := rfl
@[simp] theorem releaseBus_trace : s.releaseBus.trace = s.trace := rfl
@[simp] theorem releaseBus_port : s.releaseBus.port = s.port := rfl
@[simp] theorem releaseBus_response : s.releaseBus.response = s.response := rfl
@[simp] theorem releaseBus_env : s.releaseBus.env = s.env := rfl
@[simp] theorem releaseBus_cfg : s.releaseBus.cfg = s.cfg := rfl
@[simp] theorem releaseBus_code (c : BusStatus) : s.releaseBus.code c = s.code c := rfl

/-! ### countSample -/

@[simp] theorem countSample_cr : s.countSample.cr = s.cr := rfl
@[simp] theorem countSample_sr : s.countSample.sr = s.sr := rfl
@[simp] theorem countSample_dr : s.countSample.dr = s.dr := rfl
@[simp] theorem countSample_brr : s.countSample.brr = s.brr := rfl
@[simp] theorem countSample_latch : s.countSample.latch = s.latch := rfl
@[simp] theorem countSample_cnt : s.countSample.cnt = s.cnt + 1 := rfl
@[simp] theorem countSample_gie : s.countSample.gie = s.gie := rfl
@[simp] theorem countSample_inited : s.countSample.inited = s.inited := rfl
@[simp] theorem countSample_mode : s.countSample.mode = s.mode := rfl
@[simp] theorem countSample_addr : s.countSample.addr = s.addr := rfl
@[simp] theorem countSample_reg : s.countSample.reg = s.reg := rfl
@[simp] theorem countSample_count : s.countSample.count = s.count := rfl
@[simp] theorem countSample_txbuf : s.countSample.txbuf = s.txbuf := rfl
@[simp] theorem countSample_data : s.countSample.data = s.data := rfl
@[simp] theorem countSample_more : s.countSample.more = s.more := rfl
@[simp] theorem countSample_fBus : s.countSample.fBus = s.fBus := rfl
@[simp] theorem countSample_fCore : s.countSample.fCore = s.fCore := rfl
@[simp] theorem countSample_rxbuf : s.countSample.rxbuf = s.rxbuf := rfl
@[simp] theorem countSample_rxlen : s.countSample.rxlen = s.rxlen := rfl
@[simp] theorem countSample_seq : s.countSample.seq = s.seq := rfl
@[simp] theorem countSample_err : s.countSample.err = s.err := rfl
@[simp] theorem countSample_phase : s.countSample.phase = s.phase := rfl
@[simp] theorem countSample_own : s.countSample.own = s.own := rfl
@[simp] theorem countSample_pending : s.countSample.pending = s.pending := rfl
@[simp] theorem countSample_capPend : s.countSample.capPend = s.capPend := rfl
@[simp] theorem countSample_trace : s.countSample.trace = s.trace := rfl
@[simp] theorem countSample_port : s.countSample.port = s.port := rfl
@[simp] theorem countSample_response : s.countSample.response = s.response := rfl
@[simp] theorem countSample_env : s.countSample.env = s.env := rfl
@[simp] theorem countSample_cfg : s.countSample.cfg = s.cfg := rfl
@[simp] theorem countSample_code (c : BusStatus) : s.countSample.code c = s.code c := rfl

/-! ### begin -/

@[simp] theorem begin_cr (op : Opcode) : (s.begin op).cr = s.cr := rfl
@[simp] theorem begin_sr (op : Opcode) : (s.begin op).sr = s.sr := rfl
@[simp] theorem begin_dr (op : Opcode) : (s.begin op).dr = s.dr := rfl
@[simp] theorem begin_brr (op : Opcode) : (s.begin op).brr = s.brr := rfl
@[simp] theorem begin_latch (op : Opcode) : (s.begin op).latch = s.latch := rfl
@[simp] theorem begin_cnt (op : Opcode) : (s.begin op).cnt = s.cnt := rfl
@[simp] theorem begin_gie (op : Opcode) : (s.begin op).gie = s.gie := rfl
@[simp] theorem begin_inited (op : Opcode) : (s.begin op).inited = s.inited := rfl
@[simp] theorem begin_mode (op : Opcode) : (s.begin op).mode = s.mode := rfl
@[simp] theorem begin_addr (op : Opcode) : (s.begin op).addr = s.addr := rfl
@[simp] theorem begin_reg (op : Opcode) : (s.begin op).reg = s.reg := rfl
@[simp] theorem begin_count (op : Opcode) : (s.begin op).count = s.count := rfl
@[simp] theorem begin_txbuf (op : Opcode) : (s.begin op).txbuf = s.txbuf := rfl
@[simp] theorem begin_data (op : Opcode) : (s.begin op).data = s.data := rfl
@[simp] theorem begin_more (op : Opcode) : (s.begin op).more = s.more := rfl
@[simp] theorem begin_fBus (op : Opcode) : (s.begin op).fBus = s.fBus := rfl
@[simp] theorem begin_fCore (op : Opcode) : (s.begin op).fCore = s.fCore := rfl
@[simp] theorem begin_rxbuf (op : Opcode) : (s.begin op).rxbuf = s.rxbuf := rfl
@[simp] theorem begin_rxlen (op : Opcode) : (s.begin op).rxlen = s.rxlen := rfl
@[simp] theorem begin_seq (op : Opcode) : (s.begin op).seq = { s.seq with op := some op, step := .single } := rfl
@[simp] theorem begin_err (op : Opcode) : (s.begin op).err = s.err := rfl
@[simp] theorem begin_phase (op : Opcode) : (s.begin op).phase = s.phase := rfl
@[simp] theorem begin_own (op : Opcode) : (s.begin op).own = s.own := rfl
@[simp] theorem begin_pending (op : Opcode) : (s.begin op).pending = s.pending := rfl
@[simp] theorem begin_capPend (op : Opcode) : (s.begin op).capPend = s.capPend := rfl
@[simp] theorem begin_trace (op : Opcode) : (s.begin op).trace = s.trace := rfl
@[simp] theorem begin_port (op : Opcode) : (s.begin op).port = s.port := rfl
@[simp] theorem begin_response (op : Opcode) : (s.begin op).response = s.response := rfl
@[simp] theorem begin_env (op : Opcode) : (s.begin op).env = s.env := rfl
@[simp] theorem begin_cfg (op : Opcode) : (s.begin op).cfg = s.cfg := rfl
@[simp] theorem begin_code (op : Opcode) (c : BusStatus) : (s.begin op).code c = s.code c := rfl

/-! ### atStep -/

@[simp] theorem atStep_cr (st : SeqStep) : (s.atStep st).cr = s.cr := rfl
@[simp] theorem atStep_sr (st : SeqStep) : (s.atStep st).sr = s.sr := rfl
@[simp] theorem atStep_dr (st : SeqStep) : (s.atStep st).dr = s.dr := rfl
@[simp] theorem atStep_brr (st : SeqStep) : (s.atStep st).brr = s.brr := rfl
@[simp] theorem atStep_latch (st : SeqStep) : (s.atStep st).latch = s.latch := rfl
@[simp] theorem atStep_cnt (st : SeqStep) : (s.atStep st).cnt = s.cnt := rfl
@[simp] theorem atStep_gie (st : SeqStep) : (s.atStep st).gie = s.gie := rfl
@[simp] theorem atStep_inited (st : SeqStep) : (s.atStep st).inited = s.inited := rfl
@[simp] theorem atStep_mode (st : SeqStep) : (s.atStep st).mode = s.mode := rfl
@[simp] theorem atStep_addr (st : SeqStep) : (s.atStep st).addr = s.addr := rfl
@[simp] theorem atStep_reg (st : SeqStep) : (s.atStep st).reg = s.reg := rfl
@[simp] theorem atStep_count (st : SeqStep) : (s.atStep st).count = s.count := rfl
@[simp] theorem atStep_txbuf (st : SeqStep) : (s.atStep st).txbuf = s.txbuf := rfl
@[simp] theorem atStep_data (st : SeqStep) : (s.atStep st).data = s.data := rfl
@[simp] theorem atStep_more (st : SeqStep) : (s.atStep st).more = s.more := rfl
@[simp] theorem atStep_fBus (st : SeqStep) : (s.atStep st).fBus = s.fBus := rfl
@[simp] theorem atStep_fCore (st : SeqStep) : (s.atStep st).fCore = s.fCore := rfl
@[simp] theorem atStep_rxbuf (st : SeqStep) : (s.atStep st).rxbuf = s.rxbuf := rfl
@[simp] theorem atStep_rxlen (st : SeqStep) : (s.atStep st).rxlen = s.rxlen := rfl
@[simp] theorem atStep_seq (st : SeqStep) : (s.atStep st).seq = { s.seq with step := st } := rfl
@[simp] theorem atStep_err (st : SeqStep) : (s.atStep st).err = s.err := rfl
@[simp] theorem atStep_phase (st : SeqStep) : (s.atStep st).phase = s.phase := rfl
@[simp] theorem atStep_own (st : SeqStep) : (s.atStep st).own = s.own := rfl
@[simp] theorem atStep_pending (st : SeqStep) : (s.atStep st).pending = s.pending := rfl
@[simp] theorem atStep_capPend (st : SeqStep) : (s.atStep st).capPend = s.capPend := rfl
@[simp] theorem atStep_trace (st : SeqStep) : (s.atStep st).trace = s.trace := rfl
@[simp] theorem atStep_port (st : SeqStep) : (s.atStep st).port = s.port := rfl
@[simp] theorem atStep_response (st : SeqStep) : (s.atStep st).response = s.response := rfl
@[simp] theorem atStep_env (st : SeqStep) : (s.atStep st).env = s.env := rfl
@[simp] theorem atStep_cfg (st : SeqStep) : (s.atStep st).cfg = s.cfg := rfl
@[simp] theorem atStep_code (st : SeqStep) (c : BusStatus) : (s.atStep st).code c = s.code c := rfl

/-! ### nextIndex -/

@[simp] theorem nextIndex_cr : s.nextIndex.cr = s.cr := rfl
@[simp] theorem nextIndex_sr : s.nextIndex.sr = s.sr := rfl
@[simp] theorem nextIndex_dr : s.nextIndex.dr = s.dr := rfl
@[simp] theorem nextIndex_brr : s.nextIndex.brr = s.brr := rfl
@[simp] theorem nextIndex_latch : s.nextIndex.latch = s.latch := rfl
@[simp] theorem nextIndex_cnt : s.nextIndex.cnt = s.cnt := rfl
@[simp] theorem nextIndex_gie : s.nextIndex.gie = s.gie := rfl
@[simp] theorem nextIndex_inited : s.nextIndex.inited = s.inited := rfl
@[simp] theorem nextIndex_mode : s.nextIndex.mode = s.mode := rfl
@[simp] theorem nextIndex_addr : s.nextIndex.addr = s.addr := rfl
@[simp] theorem nextIndex_reg : s.nextIndex.reg = s.reg := rfl
@[simp] theorem nextIndex_count : s.nextIndex.count = s.count := rfl
@[simp] theorem nextIndex_txbuf : s.nextIndex.txbuf = s.txbuf := rfl
@[simp] theorem nextIndex_data : s.nextIndex.data = s.data := rfl
@[simp] theorem nextIndex_more : s.nextIndex.more = s.more := rfl
@[simp] theorem nextIndex_fBus : s.nextIndex.fBus = s.fBus := rfl
@[simp] theorem nextIndex_fCore : s.nextIndex.fCore = s.fCore := rfl
@[simp] theorem nextIndex_rxbuf : s.nextIndex.rxbuf = s.rxbuf := rfl
@[simp] theorem nextIndex_rxlen : s.nextIndex.rxlen = s.rxlen := rfl
@[simp] theorem nextIndex_seq : s.nextIndex.seq = { s.seq with idx := s.seq.idx + 1 } := rfl
@[simp] theorem nextIndex_err : s.nextIndex.err = s.err := rfl
@[simp] theorem nextIndex_phase : s.nextIndex.phase = s.phase := rfl
@[simp] theorem nextIndex_own : s.nextIndex.own = s.own := rfl
@[simp] theorem nextIndex_pending : s.nextIndex.pending = s.pending := rfl
@[simp] theorem nextIndex_capPend : s.nextIndex.capPend = s.capPend := rfl
@[simp] theorem nextIndex_trace : s.nextIndex.trace = s.trace := rfl
@[simp] theorem nextIndex_port : s.nextIndex.port = s.port := rfl
@[simp] theorem nextIndex_response : s.nextIndex.response = s.response := rfl
@[simp] theorem nextIndex_env : s.nextIndex.env = s.env := rfl
@[simp] theorem nextIndex_cfg : s.nextIndex.cfg = s.cfg := rfl
@[simp] theorem nextIndex_code (c : BusStatus) : s.nextIndex.code c = s.code c := rfl

/-! ### finish -/

@[simp] theorem finish_cr (r : ResultKind) (after : List Byte) : (s.finish r after).cr = s.cr := rfl
@[simp] theorem finish_sr (r : ResultKind) (after : List Byte) : (s.finish r after).sr = s.sr := rfl
@[simp] theorem finish_dr (r : ResultKind) (after : List Byte) : (s.finish r after).dr = s.dr := rfl
@[simp] theorem finish_brr (r : ResultKind) (after : List Byte) : (s.finish r after).brr = s.brr := rfl
@[simp] theorem finish_latch (r : ResultKind) (after : List Byte) : (s.finish r after).latch = s.latch := rfl
@[simp] theorem finish_cnt (r : ResultKind) (after : List Byte) : (s.finish r after).cnt = s.cnt := rfl
@[simp] theorem finish_gie (r : ResultKind) (after : List Byte) : (s.finish r after).gie = s.gie := rfl
@[simp] theorem finish_inited (r : ResultKind) (after : List Byte) : (s.finish r after).inited = s.inited := rfl
@[simp] theorem finish_mode (r : ResultKind) (after : List Byte) : (s.finish r after).mode = s.mode := rfl
@[simp] theorem finish_addr (r : ResultKind) (after : List Byte) : (s.finish r after).addr = s.addr := rfl
@[simp] theorem finish_reg (r : ResultKind) (after : List Byte) : (s.finish r after).reg = s.reg := rfl
@[simp] theorem finish_count (r : ResultKind) (after : List Byte) : (s.finish r after).count = s.count := rfl
@[simp] theorem finish_txbuf (r : ResultKind) (after : List Byte) : (s.finish r after).txbuf = s.txbuf := rfl
@[simp] theorem finish_data (r : ResultKind) (after : List Byte) : (s.finish r after).data = s.data := rfl
@[simp] theorem finish_more (r : ResultKind) (after : List Byte) : (s.finish r after).more = s.more := rfl
@[simp] theorem finish_fBus (r : ResultKind) (after : List Byte) : (s.finish r after).fBus = s.fBus := rfl
@[simp] theorem finish_fCore (r : ResultKind) (after : List Byte) : (s.finish r after).fCore = s.fCore := rfl
@[simp] theorem finish_rxbuf (r : ResultKind) (after : List Byte) : (s.finish r after).rxbuf = s.rxbuf := rfl
@[simp] theorem finish_rxlen (r : ResultKind) (after : List Byte) : (s.finish r after).rxlen = s.rxlen := rfl
@[simp] theorem finish_seq (r : ResultKind) (after : List Byte) : (s.finish r after).seq = { s.seq with op := none } := rfl
@[simp] theorem finish_err (r : ResultKind) (after : List Byte) : (s.finish r after).err = r := rfl
@[simp] theorem finish_phase (r : ResultKind) (after : List Byte) : (s.finish r after).phase = s.phase := rfl
@[simp] theorem finish_own (r : ResultKind) (after : List Byte) : (s.finish r after).own = s.own := rfl
@[simp] theorem finish_pending (r : ResultKind) (after : List Byte) : (s.finish r after).pending = s.pending := rfl
@[simp] theorem finish_capPend (r : ResultKind) (after : List Byte) : (s.finish r after).capPend = s.capPend := rfl
@[simp] theorem finish_trace (r : ResultKind) (after : List Byte) : (s.finish r after).trace = s.trace := rfl
@[simp] theorem finish_port (r : ResultKind) (after : List Byte) : (s.finish r after).port = s.port := rfl
@[simp] theorem finish_response (r : ResultKind) (after : List Byte) : (s.finish r after).response = responsePacket r after := rfl
@[simp] theorem finish_env (r : ResultKind) (after : List Byte) : (s.finish r after).env = s.env := rfl
@[simp] theorem finish_cfg (r : ResultKind) (after : List Byte) : (s.finish r after).cfg = s.cfg := rfl
@[simp] theorem finish_code (r : ResultKind) (after : List Byte) (c : BusStatus) : (s.finish r after).code c = s.code c := rfl

/-! ### reject -/

@[simp] theorem reject_cr (op : Option Opcode) : (s.reject op).cr = s.cr := rfl
@[simp] theorem reject_sr (op : Option Opcode) : (s.reject op).sr = s.sr := rfl
@[simp] theorem reject_dr (op : Option Opcode) : (s.reject op).dr = s.dr := rfl
@[simp] theorem reject_brr (op : Option Opcode) : (s.reject op).brr = s.brr := rfl
@[simp] theorem reject_latch (op : Option Opcode) : (s.reject op).latch = s.latch := rfl
@[simp] theorem reject_cnt (op : Option Opcode) : (s.reject op).cnt = s.cnt := rfl
@[simp] theorem reject_gie (op : Option Opcode) : (s.reject op).gie = s.gie := rfl
@[simp] theorem reject_inited (op : Option Opcode) : (s.reject op).inited = s.inited := rfl
@[simp] theorem reject_mode (op : Option Opcode) : (s.reject op).mode = s.mode := rfl
@[simp] theorem reject_addr (op : Option Opcode) : (s.reject op).addr = s.addr := rfl
@[simp] theorem reject_reg (op : Option Opcode) : (s.reject op).reg = s.reg := rfl
@[simp] theorem reject_count (op : Option Opcode) : (s.reject op).count = s.count := rfl
@[simp] theorem reject_txbuf (op : Option Opcode) : (s.reject op).txbuf = s.txbuf := rfl
@[simp] theorem reject_data (op : Option Opcode) : (s.reject op).data = s.data := rfl
@[simp] theorem reject_more (op : Option Opcode) : (s.reject op).more = s.more := rfl
@[simp] theorem reject_fBus (op : Option Opcode) : (s.reject op).fBus = s.fBus := rfl
@[simp] theorem reject_fCore (op : Option Opcode) : (s.reject op).fCore = s.fCore := rfl
@[simp] theorem reject_rxbuf (op : Option Opcode) : (s.reject op).rxbuf = s.rxbuf := rfl
@[simp] theorem reject_rxlen (op : Option Opcode) : (s.reject op).rxlen = if clearsRxlen op then 0 else s.rxlen := rfl
@[simp] theorem reject_seq (op : Option Opcode) : (s.reject op).seq = s.seq := rfl
@[simp] theorem reject_err (op : Option Opcode) : (s.reject op).err = .precondition := rfl
@[simp] theorem reject_phase (op : Option Opcode) : (s.reject op).phase = s.phase := rfl
@[simp] theorem reject_own (op : Option Opcode) : (s.reject op).own = s.own := rfl
@[simp] theorem reject_pending (op : Option Opcode) : (s.reject op).pending = s.pending := rfl
@[simp] theorem reject_capPend (op : Option Opcode) : (s.reject op).capPend = s.capPend := rfl
@[simp] theorem reject_trace (op : Option Opcode) : (s.reject op).trace = s.trace := rfl
@[simp] theorem reject_port (op : Option Opcode) : (s.reject op).port = s.port := rfl
@[simp] theorem reject_response (op : Option Opcode) : (s.reject op).response = responsePacket .precondition [] := rfl
@[simp] theorem reject_env (op : Option Opcode) : (s.reject op).env = s.env := rfl
@[simp] theorem reject_cfg (op : Option Opcode) : (s.reject op).cfg = s.cfg := rfl
@[simp] theorem reject_code (op : Option Opcode) (c : BusStatus) : (s.reject op).code c = s.code c := rfl

/-! ### dropRead -/

@[simp] theorem dropRead_cr : s.dropRead.cr = s.cr := rfl
@[simp] theorem dropRead_sr : s.dropRead.sr = s.sr := rfl
@[simp] theorem dropRead_dr : s.dropRead.dr = s.dr := rfl
@[simp] theorem dropRead_brr : s.dropRead.brr = s.brr := rfl
@[simp] theorem dropRead_latch : s.dropRead.latch = s.latch := rfl
@[simp] theorem dropRead_cnt : s.dropRead.cnt = s.cnt := rfl
@[simp] theorem dropRead_gie : s.dropRead.gie = s.gie := rfl
@[simp] theorem dropRead_inited : s.dropRead.inited = s.inited := rfl
@[simp] theorem dropRead_mode : s.dropRead.mode = s.mode := rfl
@[simp] theorem dropRead_addr : s.dropRead.addr = s.addr := rfl
@[simp] theorem dropRead_reg : s.dropRead.reg = s.reg := rfl
@[simp] theorem dropRead_count : s.dropRead.count = s.count := rfl
@[simp] theorem dropRead_txbuf : s.dropRead.txbuf = s.txbuf := rfl
@[simp] theorem dropRead_data : s.dropRead.data = s.data := rfl
@[simp] theorem dropRead_more : s.dropRead.more = s.more := rfl
@[simp] theorem dropRead_fBus : s.dropRead.fBus = s.fBus := rfl
@[simp] theorem dropRead_fCore : s.dropRead.fCore = s.fCore := rfl
@[simp] theorem dropRead_rxbuf : s.dropRead.rxbuf = freeBytes s.env.draws s.rxbuf.length := rfl
@[simp] theorem dropRead_rxlen : s.dropRead.rxlen = 0 := rfl
@[simp] theorem dropRead_seq : s.dropRead.seq = s.seq := rfl
@[simp] theorem dropRead_err : s.dropRead.err = s.err := rfl
@[simp] theorem dropRead_phase : s.dropRead.phase = s.phase := rfl
@[simp] theorem dropRead_own : s.dropRead.own = s.own := rfl
@[simp] theorem dropRead_pending : s.dropRead.pending = s.pending := rfl
@[simp] theorem dropRead_capPend : s.dropRead.capPend = s.capPend := rfl
@[simp] theorem dropRead_trace : s.dropRead.trace = s.trace := rfl
@[simp] theorem dropRead_port : s.dropRead.port = s.port := rfl
@[simp] theorem dropRead_response : s.dropRead.response = s.response := rfl
@[simp] theorem dropRead_env : s.dropRead.env = { s.env with draws := s.env.draws + s.rxbuf.length } := rfl
@[simp] theorem dropRead_cfg : s.dropRead.cfg = s.cfg := rfl
@[simp] theorem dropRead_code (c : BusStatus) : s.dropRead.code c = s.code c := rfl

/-! ### appendByte -/

@[simp] theorem appendByte_cr : s.appendByte.cr = s.cr := rfl
@[simp] theorem appendByte_sr : s.appendByte.sr = s.sr := rfl
@[simp] theorem appendByte_dr : s.appendByte.dr = s.dr := rfl
@[simp] theorem appendByte_brr : s.appendByte.brr = s.brr := rfl
@[simp] theorem appendByte_latch : s.appendByte.latch = s.latch := rfl
@[simp] theorem appendByte_cnt : s.appendByte.cnt = s.cnt := rfl
@[simp] theorem appendByte_gie : s.appendByte.gie = s.gie := rfl
@[simp] theorem appendByte_inited : s.appendByte.inited = s.inited := rfl
@[simp] theorem appendByte_mode : s.appendByte.mode = s.mode := rfl
@[simp] theorem appendByte_addr : s.appendByte.addr = s.addr := rfl
@[simp] theorem appendByte_reg : s.appendByte.reg = s.reg := rfl
@[simp] theorem appendByte_count : s.appendByte.count = s.count := rfl
@[simp] theorem appendByte_txbuf : s.appendByte.txbuf = s.txbuf := rfl
@[simp] theorem appendByte_data : s.appendByte.data = s.data := rfl
@[simp] theorem appendByte_more : s.appendByte.more = s.more := rfl
@[simp] theorem appendByte_fBus : s.appendByte.fBus = s.fBus := rfl
@[simp] theorem appendByte_fCore : s.appendByte.fCore = s.fCore := rfl
@[simp] theorem appendByte_rxbuf : s.appendByte.rxbuf = s.rxbuf ++ [s.dr] := rfl
@[simp] theorem appendByte_rxlen : s.appendByte.rxlen = s.rxlen := rfl
@[simp] theorem appendByte_seq : s.appendByte.seq = { s.seq with idx := s.seq.idx + 1 } := rfl
@[simp] theorem appendByte_err : s.appendByte.err = s.err := rfl
@[simp] theorem appendByte_phase : s.appendByte.phase = s.phase := rfl
@[simp] theorem appendByte_own : s.appendByte.own = s.own := rfl
@[simp] theorem appendByte_pending : s.appendByte.pending = s.pending := rfl
@[simp] theorem appendByte_capPend : s.appendByte.capPend = s.capPend := rfl
@[simp] theorem appendByte_trace : s.appendByte.trace = s.trace := rfl
@[simp] theorem appendByte_port : s.appendByte.port = s.port := rfl
@[simp] theorem appendByte_response : s.appendByte.response = s.response := rfl
@[simp] theorem appendByte_env : s.appendByte.env = s.env := rfl
@[simp] theorem appendByte_cfg : s.appendByte.cfg = s.cfg := rfl
@[simp] theorem appendByte_code (c : BusStatus) : s.appendByte.code c = s.code c := rfl

/-! ### setDivisor -/

@[simp] theorem setDivisor_cr : s.setDivisor.cr = s.cr := rfl
@[simp] theorem setDivisor_sr : s.setDivisor.sr = s.sr := rfl
@[simp] theorem setDivisor_dr : s.setDivisor.dr = s.dr := rfl
@[simp] theorem setDivisor_brr : s.setDivisor.brr = divisor s.fCore s.fBus := rfl
@[simp] theorem setDivisor_latch : s.setDivisor.latch = s.latch := rfl
@[simp] theorem setDivisor_cnt : s.setDivisor.cnt = s.cnt := rfl
@[simp] theorem setDivisor_gie : s.setDivisor.gie = s.gie := rfl
@[simp] theorem setDivisor_inited : s.setDivisor.inited = s.inited := rfl
@[simp] theorem setDivisor_mode : s.setDivisor.mode = s.mode := rfl
@[simp] theorem setDivisor_addr : s.setDivisor.addr = s.addr := rfl
@[simp] theorem setDivisor_reg : s.setDivisor.reg = s.reg := rfl
@[simp] theorem setDivisor_count : s.setDivisor.count = s.count := rfl
@[simp] theorem setDivisor_txbuf : s.setDivisor.txbuf = s.txbuf := rfl
@[simp] theorem setDivisor_data : s.setDivisor.data = s.data := rfl
@[simp] theorem setDivisor_more : s.setDivisor.more = s.more := rfl
@[simp] theorem setDivisor_fBus : s.setDivisor.fBus = s.fBus := rfl
@[simp] theorem setDivisor_fCore : s.setDivisor.fCore = s.fCore := rfl
@[simp] theorem setDivisor_rxbuf : s.setDivisor.rxbuf = s.rxbuf := rfl
@[simp] theorem setDivisor_rxlen : s.setDivisor.rxlen = s.rxlen := rfl
@[simp] theorem setDivisor_seq : s.setDivisor.seq = s.seq := rfl
@[simp] theorem setDivisor_err : s.setDivisor.err = s.err := rfl
@[simp] theorem setDivisor_phase : s.setDivisor.phase = s.phase := rfl
@[simp] theorem setDivisor_own : s.setDivisor.own = s.own := rfl
@[simp] theorem setDivisor_pending : s.setDivisor.pending = s.pending := rfl
@[simp] theorem setDivisor_capPend : s.setDivisor.capPend = s.capPend := rfl
@[simp] theorem setDivisor_trace : s.setDivisor.trace = s.trace := rfl
@[simp] theorem setDivisor_port : s.setDivisor.port = s.port := rfl
@[simp] theorem setDivisor_response : s.setDivisor.response = s.response := rfl
@[simp] theorem setDivisor_env : s.setDivisor.env = s.env := rfl
@[simp] theorem setDivisor_cfg : s.setDivisor.cfg = s.cfg := rfl
@[simp] theorem setDivisor_code (c : BusStatus) : s.setDivisor.code c = s.code c := rfl

/-! ### setPrescaler -/

@[simp] theorem setPrescaler_cr : s.setPrescaler.cr = s.cr := rfl
@[simp] theorem setPrescaler_sr : s.setPrescaler.sr = { s.sr with ps := 0 } := rfl
@[simp] theorem setPrescaler_dr : s.setPrescaler.dr = s.dr := rfl
@[simp] theorem setPrescaler_brr : s.setPrescaler.brr = s.brr := rfl
@[simp] theorem setPrescaler_latch : s.setPrescaler.latch = s.latch := rfl
@[simp] theorem setPrescaler_cnt : s.setPrescaler.cnt = s.cnt := rfl
@[simp] theorem setPrescaler_gie : s.setPrescaler.gie = s.gie := rfl
@[simp] theorem setPrescaler_inited : s.setPrescaler.inited = s.inited := rfl
@[simp] theorem setPrescaler_mode : s.setPrescaler.mode = s.mode := rfl
@[simp] theorem setPrescaler_addr : s.setPrescaler.addr = s.addr := rfl
@[simp] theorem setPrescaler_reg : s.setPrescaler.reg = s.reg := rfl
@[simp] theorem setPrescaler_count : s.setPrescaler.count = s.count := rfl
@[simp] theorem setPrescaler_txbuf : s.setPrescaler.txbuf = s.txbuf := rfl
@[simp] theorem setPrescaler_data : s.setPrescaler.data = s.data := rfl
@[simp] theorem setPrescaler_more : s.setPrescaler.more = s.more := rfl
@[simp] theorem setPrescaler_fBus : s.setPrescaler.fBus = s.fBus := rfl
@[simp] theorem setPrescaler_fCore : s.setPrescaler.fCore = s.fCore := rfl
@[simp] theorem setPrescaler_rxbuf : s.setPrescaler.rxbuf = s.rxbuf := rfl
@[simp] theorem setPrescaler_rxlen : s.setPrescaler.rxlen = s.rxlen := rfl
@[simp] theorem setPrescaler_seq : s.setPrescaler.seq = s.seq := rfl
@[simp] theorem setPrescaler_err : s.setPrescaler.err = s.err := rfl
@[simp] theorem setPrescaler_phase : s.setPrescaler.phase = s.phase := rfl
@[simp] theorem setPrescaler_own : s.setPrescaler.own = s.own := rfl
@[simp] theorem setPrescaler_pending : s.setPrescaler.pending = s.pending := rfl
@[simp] theorem setPrescaler_capPend : s.setPrescaler.capPend = s.capPend := rfl
@[simp] theorem setPrescaler_trace : s.setPrescaler.trace = s.trace := rfl
@[simp] theorem setPrescaler_port : s.setPrescaler.port = s.port := rfl
@[simp] theorem setPrescaler_response : s.setPrescaler.response = s.response := rfl
@[simp] theorem setPrescaler_env : s.setPrescaler.env = s.env := rfl
@[simp] theorem setPrescaler_cfg : s.setPrescaler.cfg = s.cfg := rfl
@[simp] theorem setPrescaler_code (c : BusStatus) : s.setPrescaler.code c = s.code c := rfl

/-! ### setMode -/

@[simp] theorem setMode_cr (m : Mode) : (s.setMode m).cr = s.cr := rfl
@[simp] theorem setMode_sr (m : Mode) : (s.setMode m).sr = s.sr := rfl
@[simp] theorem setMode_dr (m : Mode) : (s.setMode m).dr = s.dr := rfl
@[simp] theorem setMode_brr (m : Mode) : (s.setMode m).brr = s.brr := rfl
@[simp] theorem setMode_latch (m : Mode) : (s.setMode m).latch = s.latch := rfl
@[simp] theorem setMode_cnt (m : Mode) : (s.setMode m).cnt = s.cnt := rfl
@[simp] theorem setMode_gie (m : Mode) : (s.setMode m).gie = s.gie := rfl
@[simp] theorem setMode_inited (m : Mode) : (s.setMode m).inited = s.inited := rfl
@[simp] theorem setMode_mode (m : Mode) : (s.setMode m).mode = m := rfl
@[simp] theorem setMode_addr (m : Mode) : (s.setMode m).addr = s.addr := rfl
@[simp] theorem setMode_reg (m : Mode) : (s.setMode m).reg = s.reg := rfl
@[simp] theorem setMode_count (m : Mode) : (s.setMode m).count = s.count := rfl
@[simp] theorem setMode_txbuf (m : Mode) : (s.setMode m).txbuf = s.txbuf := rfl
@[simp] theorem setMode_data (m : Mode) : (s.setMode m).data = s.data := rfl
@[simp] theorem setMode_more (m : Mode) : (s.setMode m).more = s.more := rfl
@[simp] theorem setMode_fBus (m : Mode) : (s.setMode m).fBus = s.fBus := rfl
@[simp] theorem setMode_fCore (m : Mode) : (s.setMode m).fCore = s.fCore := rfl
@[simp] theorem setMode_rxbuf (m : Mode) : (s.setMode m).rxbuf = s.rxbuf := rfl
@[simp] theorem setMode_rxlen (m : Mode) : (s.setMode m).rxlen = s.rxlen := rfl
@[simp] theorem setMode_seq (m : Mode) : (s.setMode m).seq = s.seq := rfl
@[simp] theorem setMode_err (m : Mode) : (s.setMode m).err = s.err := rfl
@[simp] theorem setMode_phase (m : Mode) : (s.setMode m).phase = s.phase := rfl
@[simp] theorem setMode_own (m : Mode) : (s.setMode m).own = s.own := rfl
@[simp] theorem setMode_pending (m : Mode) : (s.setMode m).pending = s.pending := rfl
@[simp] theorem setMode_capPend (m : Mode) : (s.setMode m).capPend = s.capPend := rfl
@[simp] theorem setMode_trace (m : Mode) : (s.setMode m).trace = s.trace := rfl
@[simp] theorem setMode_port (m : Mode) : (s.setMode m).port = s.port := rfl
@[simp] theorem setMode_response (m : Mode) : (s.setMode m).response = s.response := rfl
@[simp] theorem setMode_env (m : Mode) : (s.setMode m).env = s.env := rfl
@[simp] theorem setMode_cfg (m : Mode) : (s.setMode m).cfg = s.cfg := rfl
@[simp] theorem setMode_code (m : Mode) (c : BusStatus) : (s.setMode m).code c = s.code c := rfl

/-! ### consume -/

@[simp] theorem consume_cr (rest : List Byte) : (s.consume rest).cr = s.cr := rfl
@[simp] theorem consume_sr (rest : List Byte) : (s.consume rest).sr = s.sr := rfl
@[simp] theorem consume_dr (rest : List Byte) : (s.consume rest).dr = s.dr := rfl
@[simp] theorem consume_brr (rest : List Byte) : (s.consume rest).brr = s.brr := rfl
@[simp] theorem consume_latch (rest : List Byte) : (s.consume rest).latch = s.latch := rfl
@[simp] theorem consume_cnt (rest : List Byte) : (s.consume rest).cnt = s.cnt := rfl
@[simp] theorem consume_gie (rest : List Byte) : (s.consume rest).gie = s.gie := rfl
@[simp] theorem consume_inited (rest : List Byte) : (s.consume rest).inited = s.inited := rfl
@[simp] theorem consume_mode (rest : List Byte) : (s.consume rest).mode = s.mode := rfl
@[simp] theorem consume_addr (rest : List Byte) : (s.consume rest).addr = s.addr := rfl
@[simp] theorem consume_reg (rest : List Byte) : (s.consume rest).reg = s.reg := rfl
@[simp] theorem consume_count (rest : List Byte) : (s.consume rest).count = s.count := rfl
@[simp] theorem consume_txbuf (rest : List Byte) : (s.consume rest).txbuf = s.txbuf := rfl
@[simp] theorem consume_data (rest : List Byte) : (s.consume rest).data = s.data := rfl
@[simp] theorem consume_more (rest : List Byte) : (s.consume rest).more = s.more := rfl
@[simp] theorem consume_fBus (rest : List Byte) : (s.consume rest).fBus = s.fBus := rfl
@[simp] theorem consume_fCore (rest : List Byte) : (s.consume rest).fCore = s.fCore := rfl
@[simp] theorem consume_rxbuf (rest : List Byte) : (s.consume rest).rxbuf = s.rxbuf := rfl
@[simp] theorem consume_rxlen (rest : List Byte) : (s.consume rest).rxlen = s.rxlen := rfl
@[simp] theorem consume_seq (rest : List Byte) : (s.consume rest).seq = s.seq := rfl
@[simp] theorem consume_err (rest : List Byte) : (s.consume rest).err = s.err := rfl
@[simp] theorem consume_phase (rest : List Byte) : (s.consume rest).phase = s.phase := rfl
@[simp] theorem consume_own (rest : List Byte) : (s.consume rest).own = s.own := rfl
@[simp] theorem consume_pending (rest : List Byte) : (s.consume rest).pending = s.pending := rfl
@[simp] theorem consume_capPend (rest : List Byte) : (s.consume rest).capPend = s.capPend := rfl
@[simp] theorem consume_trace (rest : List Byte) : (s.consume rest).trace = s.trace := rfl
@[simp] theorem consume_port (rest : List Byte) : (s.consume rest).port = rest := rfl
@[simp] theorem consume_response (rest : List Byte) : (s.consume rest).response = s.response := rfl
@[simp] theorem consume_env (rest : List Byte) : (s.consume rest).env = s.env := rfl
@[simp] theorem consume_cfg (rest : List Byte) : (s.consume rest).cfg = s.cfg := rfl
@[simp] theorem consume_code (rest : List Byte) (c : BusStatus) : (s.consume rest).code c = s.code c := rfl

/-! ### powerOn -/

@[simp] theorem powerOn_cr : (s.powerOn).cr = { int := false, ea := false, sta := false, sto := false, en := false, ie := false } := rfl
@[simp] theorem powerOn_sr : (s.powerOn).sr = { status := s.code .idle, ps := 0 } := rfl
@[simp] theorem powerOn_dr : (s.powerOn).dr = 0 := rfl
@[simp] theorem powerOn_brr : (s.powerOn).brr = 0 := rfl
@[simp] theorem powerOn_latch : (s.powerOn).latch = s.code .idle := rfl
@[simp] theorem powerOn_cnt : (s.powerOn).cnt = 0 := rfl
@[simp] theorem powerOn_gie : (s.powerOn).gie = false := rfl
@[simp] theorem powerOn_inited : (s.powerOn).inited = false := rfl
@[simp] theorem powerOn_mode : (s.powerOn).mode = .poll := rfl
@[simp] theorem powerOn_addr : (s.powerOn).addr = 0 := rfl
@[simp] theorem powerOn_reg : (s.powerOn).reg = 0 := rfl
@[simp] theorem powerOn_count : (s.powerOn).count = 0 := rfl
@[simp] theorem powerOn_txbuf : (s.powerOn).txbuf = [] := rfl
@[simp] theorem powerOn_data : (s.powerOn).data = 0 := rfl
@[simp] theorem powerOn_more : (s.powerOn).more = false := rfl
@[simp] theorem powerOn_fBus : (s.powerOn).fBus = 0 := rfl
@[simp] theorem powerOn_fCore : (s.powerOn).fCore = 0 := rfl
@[simp] theorem powerOn_rxbuf : (s.powerOn).rxbuf = [] := rfl
@[simp] theorem powerOn_rxlen : (s.powerOn).rxlen = 0 := rfl
@[simp] theorem powerOn_seq : (s.powerOn).seq = { op := none, step := .single, idx := 0 } := rfl
@[simp] theorem powerOn_err : (s.powerOn).err = .ok := rfl
@[simp] theorem powerOn_phase : (s.powerOn).phase = .idle := rfl
@[simp] theorem powerOn_own : (s.powerOn).own = false := rfl
@[simp] theorem powerOn_pending : (s.powerOn).pending = none := rfl
@[simp] theorem powerOn_capPend : (s.powerOn).capPend = false := rfl
@[simp] theorem powerOn_trace : (s.powerOn).trace = [] := rfl
@[simp] theorem powerOn_port : (s.powerOn).port = s.port := rfl
@[simp] theorem powerOn_response : (s.powerOn).response = [] := rfl
@[simp] theorem powerOn_env : (s.powerOn).env = { s.env with resetLine := false } := rfl
@[simp] theorem powerOn_cfg : (s.powerOn).cfg = s.cfg := rfl
@[simp] theorem powerOn_code (c : BusStatus) : (s.powerOn).code c = s.code c := rfl

/-! ### beginRead -/

@[simp] theorem beginRead_cr (a : Addr7) (r : Byte) (n : Half) : (s.beginRead a r n).cr = s.cr := rfl
@[simp] theorem beginRead_sr (a : Addr7) (r : Byte) (n : Half) : (s.beginRead a r n).sr = s.sr := rfl
@[simp] theorem beginRead_dr (a : Addr7) (r : Byte) (n : Half) : (s.beginRead a r n).dr = s.dr := rfl
@[simp] theorem beginRead_brr (a : Addr7) (r : Byte) (n : Half) : (s.beginRead a r n).brr = s.brr := rfl
@[simp] theorem beginRead_latch (a : Addr7) (r : Byte) (n : Half) : (s.beginRead a r n).latch = s.latch := rfl
@[simp] theorem beginRead_cnt (a : Addr7) (r : Byte) (n : Half) : (s.beginRead a r n).cnt = s.cnt := rfl
@[simp] theorem beginRead_gie (a : Addr7) (r : Byte) (n : Half) : (s.beginRead a r n).gie = s.gie := rfl
@[simp] theorem beginRead_inited (a : Addr7) (r : Byte) (n : Half) : (s.beginRead a r n).inited = s.inited := rfl
@[simp] theorem beginRead_mode (a : Addr7) (r : Byte) (n : Half) : (s.beginRead a r n).mode = s.mode := rfl
@[simp] theorem beginRead_addr (a : Addr7) (r : Byte) (n : Half) : (s.beginRead a r n).addr = a := rfl
@[simp] theorem beginRead_reg (a : Addr7) (r : Byte) (n : Half) : (s.beginRead a r n).reg = r := rfl
@[simp] theorem beginRead_count (a : Addr7) (r : Byte) (n : Half) : (s.beginRead a r n).count = n := rfl
@[simp] theorem beginRead_txbuf (a : Addr7) (r : Byte) (n : Half) : (s.beginRead a r n).txbuf = s.txbuf := rfl
@[simp] theorem beginRead_data (a : Addr7) (r : Byte) (n : Half) : (s.beginRead a r n).data = s.data := rfl
@[simp] theorem beginRead_more (a : Addr7) (r : Byte) (n : Half) : (s.beginRead a r n).more = s.more := rfl
@[simp] theorem beginRead_fBus (a : Addr7) (r : Byte) (n : Half) : (s.beginRead a r n).fBus = s.fBus := rfl
@[simp] theorem beginRead_fCore (a : Addr7) (r : Byte) (n : Half) : (s.beginRead a r n).fCore = s.fCore := rfl
@[simp] theorem beginRead_rxbuf (a : Addr7) (r : Byte) (n : Half) : (s.beginRead a r n).rxbuf = [] := rfl
@[simp] theorem beginRead_rxlen (a : Addr7) (r : Byte) (n : Half) : (s.beginRead a r n).rxlen = 0 := rfl
@[simp] theorem beginRead_seq (a : Addr7) (r : Byte) (n : Half) : (s.beginRead a r n).seq = { op := some .read, step := .single, idx := 0 } := rfl
@[simp] theorem beginRead_err (a : Addr7) (r : Byte) (n : Half) : (s.beginRead a r n).err = s.err := rfl
@[simp] theorem beginRead_phase (a : Addr7) (r : Byte) (n : Half) : (s.beginRead a r n).phase = s.phase := rfl
@[simp] theorem beginRead_own (a : Addr7) (r : Byte) (n : Half) : (s.beginRead a r n).own = s.own := rfl
@[simp] theorem beginRead_pending (a : Addr7) (r : Byte) (n : Half) : (s.beginRead a r n).pending = s.pending := rfl
@[simp] theorem beginRead_capPend (a : Addr7) (r : Byte) (n : Half) : (s.beginRead a r n).capPend = s.capPend := rfl
@[simp] theorem beginRead_trace (a : Addr7) (r : Byte) (n : Half) : (s.beginRead a r n).trace = s.trace := rfl
@[simp] theorem beginRead_port (a : Addr7) (r : Byte) (n : Half) : (s.beginRead a r n).port = s.port := rfl
@[simp] theorem beginRead_response (a : Addr7) (r : Byte) (n : Half) : (s.beginRead a r n).response = s.response := rfl
@[simp] theorem beginRead_env (a : Addr7) (r : Byte) (n : Half) : (s.beginRead a r n).env = s.env := rfl
@[simp] theorem beginRead_cfg (a : Addr7) (r : Byte) (n : Half) : (s.beginRead a r n).cfg = s.cfg := rfl
@[simp] theorem beginRead_code (a : Addr7) (r : Byte) (n : Half) (c : BusStatus) : (s.beginRead a r n).code c = s.code c := rfl

/-! ### beginWrite -/

@[simp] theorem beginWrite_cr (a : Addr7) (r : Byte) (bs : List Byte) : (s.beginWrite a r bs).cr = s.cr := rfl
@[simp] theorem beginWrite_sr (a : Addr7) (r : Byte) (bs : List Byte) : (s.beginWrite a r bs).sr = s.sr := rfl
@[simp] theorem beginWrite_dr (a : Addr7) (r : Byte) (bs : List Byte) : (s.beginWrite a r bs).dr = s.dr := rfl
@[simp] theorem beginWrite_brr (a : Addr7) (r : Byte) (bs : List Byte) : (s.beginWrite a r bs).brr = s.brr := rfl
@[simp] theorem beginWrite_latch (a : Addr7) (r : Byte) (bs : List Byte) : (s.beginWrite a r bs).latch = s.latch := rfl
@[simp] theorem beginWrite_cnt (a : Addr7) (r : Byte) (bs : List Byte) : (s.beginWrite a r bs).cnt = s.cnt := rfl
@[simp] theorem beginWrite_gie (a : Addr7) (r : Byte) (bs : List Byte) : (s.beginWrite a r bs).gie = s.gie := rfl
@[simp] theorem beginWrite_inited (a : Addr7) (r : Byte) (bs : List Byte) : (s.beginWrite a r bs).inited = s.inited := rfl
@[simp] theorem beginWrite_mode (a : Addr7) (r : Byte) (bs : List Byte) : (s.beginWrite a r bs).mode = s.mode := rfl
@[simp] theorem beginWrite_addr (a : Addr7) (r : Byte) (bs : List Byte) : (s.beginWrite a r bs).addr = a := rfl
@[simp] theorem beginWrite_reg (a : Addr7) (r : Byte) (bs : List Byte) : (s.beginWrite a r bs).reg = r := rfl
@[simp] theorem beginWrite_count (a : Addr7) (r : Byte) (bs : List Byte) : (s.beginWrite a r bs).count = s.count := rfl
@[simp] theorem beginWrite_txbuf (a : Addr7) (r : Byte) (bs : List Byte) : (s.beginWrite a r bs).txbuf = bs := rfl
@[simp] theorem beginWrite_data (a : Addr7) (r : Byte) (bs : List Byte) : (s.beginWrite a r bs).data = s.data := rfl
@[simp] theorem beginWrite_more (a : Addr7) (r : Byte) (bs : List Byte) : (s.beginWrite a r bs).more = s.more := rfl
@[simp] theorem beginWrite_fBus (a : Addr7) (r : Byte) (bs : List Byte) : (s.beginWrite a r bs).fBus = s.fBus := rfl
@[simp] theorem beginWrite_fCore (a : Addr7) (r : Byte) (bs : List Byte) : (s.beginWrite a r bs).fCore = s.fCore := rfl
@[simp] theorem beginWrite_rxbuf (a : Addr7) (r : Byte) (bs : List Byte) : (s.beginWrite a r bs).rxbuf = s.rxbuf := rfl
@[simp] theorem beginWrite_rxlen (a : Addr7) (r : Byte) (bs : List Byte) : (s.beginWrite a r bs).rxlen = s.rxlen := rfl
@[simp] theorem beginWrite_seq (a : Addr7) (r : Byte) (bs : List Byte) : (s.beginWrite a r bs).seq = { op := some .write, step := .single, idx := 0 } := rfl
@[simp] theorem beginWrite_err (a : Addr7) (r : Byte) (bs : List Byte) : (s.beginWrite a r bs).err = s.err := rfl
@[simp] theorem beginWrite_phase (a : Addr7) (r : Byte) (bs : List Byte) : (s.beginWrite a r bs).phase = s.phase := rfl
@[simp] theorem beginWrite_own (a : Addr7) (r : Byte) (bs : List Byte) : (s.beginWrite a r bs).own = s.own := rfl
@[simp] theorem beginWrite_pending (a : Addr7) (r : Byte) (bs : List Byte) : (s.beginWrite a r bs).pending = s.pending := rfl
@[simp] theorem beginWrite_capPend (a : Addr7) (r : Byte) (bs : List Byte) : (s.beginWrite a r bs).capPend = s.capPend := rfl
@[simp] theorem beginWrite_trace (a : Addr7) (r : Byte) (bs : List Byte) : (s.beginWrite a r bs).trace = s.trace := rfl
@[simp] theorem beginWrite_port (a : Addr7) (r : Byte) (bs : List Byte) : (s.beginWrite a r bs).port = s.port := rfl
@[simp] theorem beginWrite_response (a : Addr7) (r : Byte) (bs : List Byte) : (s.beginWrite a r bs).response = s.response := rfl
@[simp] theorem beginWrite_env (a : Addr7) (r : Byte) (bs : List Byte) : (s.beginWrite a r bs).env = s.env := rfl
@[simp] theorem beginWrite_cfg (a : Addr7) (r : Byte) (bs : List Byte) : (s.beginWrite a r bs).cfg = s.cfg := rfl
@[simp] theorem beginWrite_code (a : Addr7) (r : Byte) (bs : List Byte) (c : BusStatus) : (s.beginWrite a r bs).code c = s.code c := rfl

end Sys2Proof.Machine
end

