-- ==== Sys2Proof/Laws/Control.lean ====
section
/-!
SUPPORT. What a configuration within rule R8 gives: a control pattern reads back bit by bit, the codes are distinct and
survive the mask, the masked status is the status.
-/
namespace Sys2Proof.Machine

/-- One bit of a pattern is seen at its own position only. -/
theorem bitAt_getLsbD (p q : Fin 8) (on : Bool) : (bitAt p on).getLsbD q.val = (on && decide (p = q)) := by
  revert p q on; decide

/-- A pattern reads back as the named bits it was built from (rules R8, R20). -/
theorem ofByte_byte {l : Layout} (h : l.distinct = true) (c : Control) : Control.ofByte l (c.byte l) = c := by
  obtain ⟨int, ea, sta, sto, en, ie⟩ := c
  simp only [Layout.distinct, decide_eq_true_eq, List.nodup_cons, List.mem_cons, List.not_mem_nil, or_false,
    not_or, List.nodup_nil, and_true, not_false_eq_true] at h
  obtain ⟨⟨h1, h2, h3, h4, h5⟩, ⟨h6, h7, h8, h9⟩, ⟨h10, h11, h12⟩, ⟨h13, h14⟩, h15⟩ := h
  simp only [Control.ofByte, Control.byte, bitAt_getLsbD, BitVec.getLsbD_or]
  simp [h1, h2, h3, h4, h5, h6, h7, h8, h9, h10, h11, h12,
    h13, h14, h15, Ne.symm h1, Ne.symm h2, Ne.symm h3, Ne.symm h4, Ne.symm h5, Ne.symm h6, Ne.symm h7, Ne.symm h8,
    Ne.symm h9, Ne.symm h10, Ne.symm h11, Ne.symm h12, Ne.symm h13, Ne.symm h14, Ne.symm h15]

theorem wf_distinct {p : Params} (h : p.wf = true) : p.layout.distinct = true := by
  simp only [Params.wf, Bool.and_eq_true] at h; exact h.1.1.1.1

theorem wf_psApart {p : Params} (h : p.wf = true) : p.psApart = true := by
  simp only [Params.wf, Bool.and_eq_true] at h; exact h.1.1.2

theorem wf_codesFit {p : Params} (h : p.wf = true) : p.codesFit = true := by
  simp only [Params.wf, Bool.and_eq_true] at h; exact h.1.2

/-- Every code survives the mask (rule R8). -/
theorem code_masked {p : Params} (h : p.wf = true) (st : BusStatus) :
    p.codes.code st &&& p.statusMask = p.codes.code st := by
  have h := wf_codesFit h
  simp only [Params.codesFit, Bool.and_eq_true, Codes.all, List.all_cons, List.all_nil, beq_iff_eq] at h
  cases st <;> simp [Codes.code, h]

/-- The eleven values of rule R85. -/
def allStatuses : List BusStatus :=
  [.idle, .start, .restart, .addrWAck, .addrWNack, .dataWAck, .dataWNack, .addrRAck, .addrRNack, .dataRMore, .dataRLast]

theorem mem_allStatuses (a : BusStatus) : a ∈ allStatuses := by cases a <;> decide

/-- The codes are pairwise distinct (rule R8). -/
theorem code_injective {p : Params} (h : p.wf = true) {a b : BusStatus} (e : p.codes.code a = p.codes.code b) :
    a = b := by
  have h := wf_codesFit h
  simp only [Params.codesFit, Bool.and_eq_true, decide_eq_true_eq] at h
  exact List.inj_on_of_nodup_map (f := p.codes.code) (l := allStatuses) h.1 (mem_allStatuses a) (mem_allStatuses b) e

/-- The prescaler bits are outside the mask (rule R8). -/
theorem ps_masked {p : Params} (h : p.wf = true) (ps : BitVec 2) :
    (ps.zeroExtend 8 <<< p.layout.srPsLo.val) &&& p.statusMask = 0 := by
  have h := wf_psApart h
  simp only [Params.psApart, beq_iff_eq] at h
  have key : (ps.zeroExtend 8 <<< p.layout.srPsLo.val) &&& (0x03#8 <<< p.layout.srPsLo.val)
      = ps.zeroExtend 8 <<< p.layout.srPsLo.val := by
    rw [← BitVec.shiftLeft_and_distrib]; congr 1
    revert ps; decide
  rw [← key, BitVec.and_assoc, BitVec.and_comm (0x03#8 <<< _), h]; simp

/-- The masked status is the status code (rules R21, R86). -/
theorem maskedStatus_eq {s : State} (h : s.cfg.wf = true) (hs : s.sr.status &&& s.cfg.statusMask = s.sr.status) :
    s.maskedStatus = s.sr.status := by
  have := ps_masked h s.sr.ps
  simp only [State.maskedStatus, State.srByte, Status.byte]
  rw [BitVec.and_comm, BitVec.and_or_distrib_left, BitVec.and_comm, hs, BitVec.and_comm, this]; simp

end Sys2Proof.Machine
end

