-- ==== Sys2Proof/Laws/Agents.lean ====
section
/-!
SUPPORT. What the other agents can and cannot do in a gap.
-/
namespace Sys2Proof.Machine

/-- What no agent but the controller half ever writes (rules R9, R112, R142, R231): everything but the status, DR, the
latch, CR.INT, CR.STO, GIE, and the engine's own state. -/
structure AgentFrame (s t : State) : Prop where
  brr : t.brr = s.brr
  cnt : t.cnt = s.cnt
  inited : t.inited = s.inited
  mode : t.mode = s.mode
  addr : t.addr = s.addr
  reg : t.reg = s.reg
  count : t.count = s.count
  txbuf : t.txbuf = s.txbuf
  data : t.data = s.data
  more : t.more = s.more
  fBus : t.fBus = s.fBus
  fCore : t.fCore = s.fCore
  rxbuf : t.rxbuf = s.rxbuf
  rxlen : t.rxlen = s.rxlen
  seq : t.seq = s.seq
  err : t.err = s.err
  port : t.port = s.port
  response : t.response = s.response
  ps : t.sr.ps = s.sr.ps
  ea : t.cr.ea = s.cr.ea
  sta : t.cr.sta = s.cr.sta
  en : t.cr.en = s.cr.en
  ie : t.cr.ie = s.cr.ie
  cfg : t.cfg = s.cfg
  hostGie : t.env.hostGie = s.env.hostGie
  mayReset : t.env.mayReset = s.env.mayReset
  resetLine : t.env.resetLine = s.env.resetLine
  gie : s.env.hostGie = false → t.gie = s.gie

theorem AgentFrame.rfl' (s : State) : AgentFrame s s := by constructor <;> intros <;> rfl

theorem AgentFrame.trans {s t u : State} (a : AgentFrame s t) (b : AgentFrame t u) : AgentFrame s u := by
  constructor
  case gie => intro h; rw [b.gie (a.hostGie ▸ h), a.gie h]
  all_goals first
    | exact b.brr.trans a.brr | exact b.cnt.trans a.cnt | exact b.inited.trans a.inited | exact b.mode.trans a.mode
    | exact b.addr.trans a.addr | exact b.reg.trans a.reg | exact b.count.trans a.count
    | exact b.txbuf.trans a.txbuf | exact b.data.trans a.data | exact b.more.trans a.more
    | exact b.fBus.trans a.fBus | exact b.fCore.trans a.fCore | exact b.rxbuf.trans a.rxbuf
    | exact b.rxlen.trans a.rxlen | exact b.seq.trans a.seq | exact b.err.trans a.err | exact b.port.trans a.port
    | exact b.response.trans a.response | exact b.ps.trans a.ps | exact b.ea.trans a.ea | exact b.sta.trans a.sta
    | exact b.en.trans a.en | exact b.ie.trans a.ie | exact b.cfg.trans a.cfg | exact b.hostGie.trans a.hostGie
    | exact b.mayReset.trans a.mayReset | exact b.resetLine.trans a.resetLine

theorem completeEvent_frame (s : State) (k : Ack) (d : Byte) (e : BusEvent) :
    AgentFrame s (s.completeEvent k d e) := by
  cases e <;> constructor <;> intros <;> rfl

theorem engineStep_frame (k : Ack) (d : Byte) (s : State) : AgentFrame s (engineStep k d s) := by
  unfold engineStep
  split
  · exact .rfl' s
  · split
    · exact completeEvent_frame ..
    · exact .rfl' s

theorem captureStep_frame (s : State) : AgentFrame s (captureStep s) := by
  unfold captureStep
  split
  · constructor <;> intros <;> rfl
  · exact .rfl' s

theorem setGieStep_frame (on : Bool) (s : State) : AgentFrame s (setGieStep on s) := by
  unfold setGieStep
  split
  · rename_i h
    constructor
    case gie => intro h'; rw [h] at h'; cases h'
    all_goals rfl
  · exact .rfl' s

/-- One move of another agent keeps the frame. -/
theorem envMove_frame (s : State) (m : EnvMove) : AgentFrame s (envMove s m) := by
  cases m with
  | complete k d => exact engineStep_frame k d s
  | stopDone => constructor <;> intros <;> rfl
  | capture => exact captureStep_frame s
  | setGie on => exact setGieStep_frame on s
  | reset => exact .rfl' s

theorem moves_frame (g : Gap) (s : State) : AgentFrame s (g.foldl envMove s) := by
  induction g generalizing s with
  | nil => exact .rfl' s
  | cons m g ih => exact (envMove_frame s m).trans (ih _)

theorem afterGap_frame (s : State) : AgentFrame s { s with env := s.env.afterGap } := by
  constructor <;> intros <;> first | rfl | (simp only [State.cfg, Env.afterGap]; split <;> rfl)

/-- A gap keeps the frame. -/
theorem gap_frame (s : State) : AgentFrame s (gap s) := (afterGap_frame s).trans (moves_frame _ _)

/-- A planned gap takes its moves from the plan. -/
theorem gap_planned (s : State) (g : Gap) (rest : List Gap) (h : s.env.plan = g :: rest) :
    gap s = g.foldl envMove { s with env := { s.env with plan := rest } } := by
  simp [gap, Env.nextGap, Env.afterGap, h]

/-- A quiet gap only moves the plan on. -/
theorem gap_quiet (s : State) (rest : List Gap) (h : s.env.plan = [] :: rest) :
    gap s = { s with env := { s.env with plan := rest } } := gap_planned s [] rest h

/-- Everything that can stand before a micro-step: a gap, or reset where the environment may (rules R9, R250). -/
theorem pause_cases (s : State) :
    s.env.resetNext = false ∧ pause s = .next (gap s) ∨
      s.env.resetNext = true ∧ s.env.mayReset = true ∧ pause s = .abandoned s.abandon := by
  unfold pause
  cases h : s.env.resetNext with
  | false => exact .inl ⟨rfl, rfl⟩
  | true =>
    simp only [Env.resetNext, Bool.and_eq_true] at h
    exact .inr ⟨rfl, h.1, rfl⟩

/-- Without a move that asserts it there is no reset. -/
theorem resetNext_planned (s : State) (g : Gap) (rest : List Gap) (h : s.env.plan = g :: rest)
    (hg : g.any EnvMove.isReset = false) : s.env.resetNext = false := by
  simp [Env.resetNext, Env.nextGap, h, hg]

/-- Where the environment may not reset, only the gap stands before a micro-step. -/
theorem pause_noReset {s : State} (h : s.env.mayReset = false) : pause s = .next (gap s) := by
  simp [pause, Env.resetNext, h]

/-- A planned gap without reset. -/
theorem pause_planned (s : State) (g : Gap) (rest : List Gap) (h : s.env.plan = g :: rest)
    (hg : g.any EnvMove.isReset = false) :
    pause s = .next (g.foldl envMove { s with env := { s.env with plan := rest } }) := by
  rw [pause, resetNext_planned s g rest h hg, gap_planned s g rest h]; rfl

/-- A quiet gap. -/
theorem pause_quiet (s : State) (rest : List Gap) (h : s.env.plan = [] :: rest) :
    pause s = .next { s with env := { s.env with plan := rest } } := pause_planned s [] rest h rfl

/-- A gap that answered is a gap without reset. -/
theorem pause_next {s t : State} (h : pause s = .next t) : t = gap s := by
  rcases pause_cases s with ⟨-, h'⟩ | ⟨-, -, h'⟩ <;> rw [h'] at h <;> cases h
  rfl

/-- What reset leaves of a command is the power-on state (rules R42, R250). -/
theorem pause_abandoned {s t : State} (h : pause s = .abandoned t) : ResetMeanwhile s t := by
  rcases pause_cases s with ⟨-, h'⟩ | ⟨-, hm, h'⟩ <;> rw [h'] at h <;> cases h
  refine ⟨hm, s.abandon, ?_⟩
  simp only [State.abandon, State.powerOn, Env.afterGap, State.cfg]
  split <;> rfl

/-- Without an event in flight the engine does nothing (rule R143). -/
theorem engineStep_none (k : Ack) (d : Byte) {s : State} (h : s.pending = none) : engineStep k d s = s := by
  simp [engineStep, h]

/-- With an event in flight and the peripheral enabled the engine completes it (rules R137 to R141). -/
theorem engineStep_some (k : Ack) (d : Byte) {s : State} {e : BusEvent} (h : s.pending = some e)
    (he : s.cr.en = true) : engineStep k d s = s.completeEvent k d e := by
  simp [engineStep, h, he]

end Sys2Proof.Machine
end

