-- ==== Sys2Proof/Laws/Invariant.lean ====
section
/-!
SUPPORT. Every shared operation keeps the bus invariants of rule R43.
-/
namespace Sys2Proof.Machine

/-- What the bus invariants look at: two states that agree on it have the same invariants. -/
structure BusSame (s t : State) : Prop where
  cfg : t.cfg = s.cfg
  latch : t.latch = s.latch
  pending : t.pending = s.pending
  int : t.cr.int = s.cr.int
  sto : t.cr.sto = s.cr.sto
  capPend : t.capPend = s.capPend
  own : t.own = s.own
  phase : t.phase = s.phase
  status : t.sr.status = s.sr.status

theorem BusInv.congr {s t : State} (h : BusInv s) (a : BusSame s t) : BusInv t := by
  obtain ⟨c, l, p, i, o, cp, ow, ph, st⟩ := a
  constructor <;>
    simp only [State.code, c, l, p, i, o, cp, ow, ph, st]
  · exact h.cfg_wf
  · exact h.latch_masked
  · exact h.in_flight_flag_clear
  · exact h.capture_pending_flag
  · exact h.unowned_idle
  · exact h.owned_stop_clear
  · exact h.unowned_event
  · exact h.clear_idle
  · exact h.set_posted
  · exact h.latch_lags

/-- The status is a code, so the mask leaves it (rules R8, R86). -/
theorem BusInv.status_masked {s : State} (h : BusInv s) : s.sr.status &&& s.cfg.statusMask = s.sr.status := by
  cases hi : s.cr.int with
  | true => rw [h.set_posted hi]; exact code_masked h.cfg_wf _
  | false => rw [h.clear_idle hi]; exact code_masked h.cfg_wf _

theorem BusInv.maskedStatus {s : State} (h : BusInv s) : s.maskedStatus = s.sr.status :=
  maskedStatus_eq h.cfg_wf h.status_masked

/-- A post of an event in flight keeps the invariants, the bus being held after it (rule R142). -/
theorem post_inv {s t : State} (h : BusInv s) (hp : s.pending ≠ none) (st : BusStatus) (own : t.own = true)
    (sto : t.cr.sto = false) (cfg : t.cfg = s.cfg) (latch : t.latch = s.latch) :
    BusInv (t.post st) := by
  have hi := h.in_flight_flag_clear hp
  have hl : s.latch = s.code .idle := by
    rcases h.latch_lags with e | e
    · exact e
    · rw [e, h.clear_idle hi]
  constructor
  · simp [cfg, h.cfg_wf]
  · simp [cfg, latch, h.latch_masked]
  · simp
  · simp
  · simp [own]
  · simp [sto]
  · simp
  · simp
  · simp
  · left; simp only [post_latch, post_code, latch, hl]; simp [State.code, cfg]

theorem completeEvent_inv {s : State} (h : BusInv s) (k : Ack) (d : Byte) {e : BusEvent} (hp : s.pending = some e) :
    BusInv (s.completeEvent k d e) := by
  have hne : s.pending ≠ none := by simp [hp]
  have hown : e ≠ .genStart → s.own = true := by
    intro he
    cases ho : s.own with
    | true => rfl
    | false =>
      rcases h.unowned_event ho with x | x
      · exact absurd x hne
      · rw [hp] at x; exact absurd (Option.some.inj x) he
  cases e with
  | genStart => exact post_inv h hne _ (by simp) (by simp) (by simp) (by simp)
  | genRestart =>
    have ho := hown (by simp)
    exact post_inv h hne _ (by simp [ho]) (by simp [h.owned_stop_clear ho]) (by simp) (by simp)
  | txAddr b =>
    have ho := hown (by simp)
    exact post_inv h hne _ (by simp [ho]) (by simp [h.owned_stop_clear ho]) (by simp) (by simp)
  | txData b =>
    have ho := hown (by simp)
    exact post_inv h hne _ (by simp [ho]) (by simp [h.owned_stop_clear ho]) (by simp) (by simp)
  | rxData a =>
    have ho := hown (by simp)
    exact post_inv h hne _ (by simp [ho]) (by simp [h.owned_stop_clear ho]) (by simp) (by simp)

theorem engineStep_inv {s : State} (h : BusInv s) (k : Ack) (d : Byte) : BusInv (engineStep k d s) := by
  unfold engineStep
  split
  · exact h
  · split
    · exact completeEvent_inv h k d (by assumption)
    · exact h

theorem captureStep_inv {s : State} (h : BusInv s) : BusInv (captureStep s) := by
  unfold captureStep
  split
  · have hm := h.maskedStatus
    constructor <;> simp only [capture_cfg, capture_latch, capture_pending, capture_cr, capture_capPend,
      capture_own, capture_phase, capture_sr, capture_code, hm]
    · exact h.cfg_wf
    · exact h.status_masked
    · exact h.in_flight_flag_clear
    · simp
    · exact h.unowned_idle
    · exact h.owned_stop_clear
    · exact h.unowned_event
    · exact h.clear_idle
    · exact h.set_posted
    · exact .inr trivial
  · exact h

/-- One move of another agent keeps the bus invariants. -/
theorem envMove_inv {s : State} (h : BusInv s) (m : EnvMove) : BusInv (envMove s m) := by
  cases m with
  | complete k d => exact engineStep_inv h k d
  | stopDone =>
    obtain ⟨a, b, d, e, f, -, i, j, k, l⟩ := h
    exact ⟨a, b, d, e, f, fun _ => rfl, i, j, k, l⟩
  | capture => exact captureStep_inv h
  | setGie on =>
    simp only [envMove, setGieStep]
    split
    · exact h.congr ⟨rfl, rfl, rfl, rfl, rfl, rfl, rfl, rfl, rfl⟩
    · exact h
  | reset => exact h

theorem moves_inv {s : State} (h : BusInv s) (g : Gap) : BusInv (g.foldl envMove s) := by
  induction g generalizing s with
  | nil => exact h
  | cons m g ih => exact ih (envMove_inv h m)

/-- A gap keeps the bus invariants. -/
theorem gap_inv {s : State} (h : BusInv s) : BusInv (gap s) := by
  refine moves_inv (s := { s with env := s.env.afterGap }) (h.congr ⟨?_, rfl, rfl, rfl, rfl, rfl, rfl, rfl, rfl⟩) _
  simp only [State.cfg, Env.afterGap]; split <;> rfl

/-- The state after rule R132 has the bus invariants, whatever was in flight, but for what it takes to be launched. -/
theorem clearInterrupt_inv {s : State} (h : BusInv s) (v : Control) :
    BusInv (s.storeEnables v).clearInterrupt := by
  constructor <;> simp only [clearInterrupt_cfg, clearInterrupt_latch, clearInterrupt_pending,
    clearInterrupt_cr, clearInterrupt_capPend, clearInterrupt_own, clearInterrupt_phase, clearInterrupt_sr,
    clearInterrupt_code, storeEnables_cfg, storeEnables_cr, storeEnables_own, storeEnables_phase,
    storeEnables_code]
  · exact h.cfg_wf
  · exact code_masked h.cfg_wf _
  · simp
  · simp
  · exact h.unowned_idle
  · exact h.owned_stop_clear
  · intro _; exact .inl trivial
  · simp
  · simp
  · exact .inl trivial

theorem launch_inv {s : State} (h : BusInv s) (e : BusEvent) (hi : s.cr.int = false)
    (he : s.own = false → e = .genStart) : BusInv (s.launch e) := by
  constructor <;> simp only [launch_cfg, launch_latch, launch_pending, launch_cr, launch_capPend, launch_own,
    launch_phase, launch_sr, launch_code]
  · exact h.cfg_wf
  · exact h.latch_masked
  · intro _; exact hi
  · exact h.capture_pending_flag
  · exact h.unowned_idle
  · exact h.owned_stop_clear
  · intro ho; exact .inr (by rw [he ho])
  · exact h.clear_idle
  · exact h.set_posted
  · exact h.latch_lags

theorem releaseBus_inv {s : State} (h : BusInv s) (hi : s.cr.int = false) : BusInv s.releaseBus := by
  constructor <;> simp only [releaseBus_cfg, releaseBus_latch, releaseBus_pending, releaseBus_cr,
    releaseBus_capPend, releaseBus_own, releaseBus_phase, releaseBus_sr, releaseBus_code]
  · exact h.cfg_wf
  · exact h.latch_masked
  · simp
  · exact h.capture_pending_flag
  · simp
  · simp
  · simp
  · exact h.clear_idle
  · simp [hi]
  · exact h.latch_lags

theorem emit_inv {s : State} (h : BusInv s) (x : Sym) : BusInv (s.emit x) :=
  h.congr ⟨rfl, rfl, rfl, rfl, rfl, rfl, rfl, rfl, rfl⟩

/-- Everything a control-register write can do (rules R131 to R136, R148, R152): a write without INTC stores the enable
bits; a write with it clears the interrupt and then stops, starts, or continues by PHASE; the rest is refused. -/
theorem regWriteCR_cases {v : Byte} {s : State} {t : State} (h : regWriteCR v s = .next t) :
    let c := Control.ofByte s.cfg.layout v
    c.en = true ∧
      ((c.int = false ∧ t = s.storeEnables c) ∨
       (c.int = true ∧ c.sto = true ∧ c.sta = false ∧ t = ((s.storeEnables c).clearInterrupt).stopBus) ∨
       (c.int = true ∧ c.sto = false ∧ c.sta = true ∧
          t = ((s.storeEnables c).clearInterrupt).launch (startEvent s.own)) ∨
       (c.int = true ∧ c.sto = false ∧ c.sta = false ∧ ∃ e, continueEvent s.phase s.dr c.ea = some e ∧
          t = ((s.storeEnables c).clearInterrupt).launch e)) := by
  intro c
  unfold regWriteCR at h
  change (if c.en = true then _ else _) = _ at h
  split at h
  · refine ⟨by assumption, ?_⟩
    split at h
    · have hi : c.int = true := by assumption
      unfold launchByControl at h
      split at h
      · cases h
      · rename_i hss
        split at h
        · rename_i hst
          have : c.sta = false := by
            cases hx : c.sta with
            | false => rfl
            | true => exact absurd (by rw [Bool.and_eq_true]; exact ⟨hx, hst⟩) hss
          injection h with h
          exact .inr (.inl ⟨hi, hst, this, h.symm⟩)
        · rename_i hst
          have hst' : c.sto = false := by simpa using hst
          split at h
          · injection h with h
            exact .inr (.inr (.inl ⟨hi, hst', by assumption, h.symm⟩))
          · rename_i hsa
            split at h
            · rename_i e he
              injection h with h
              exact .inr (.inr (.inr ⟨hi, hst', by simpa using hsa, e, he, h.symm⟩))
            · cases h
    · injection h with h
      exact .inl ⟨by simpa using ‹¬c.int = true›, h.symm⟩
  · cases h

/-- No continuation exists while the bus is not held (rules R43 (e), R136). -/
theorem continueEvent_owned {s : State} (h : BusInv s) {ea : Bool} {e : BusEvent}
    (he : continueEvent s.phase s.dr ea = some e) : s.own = true := by
  cases ho : s.own with
  | true => rfl
  | false => rw [h.unowned_idle ho] at he; cases he

/-- A control-register write keeps the bus invariants. -/
theorem regWriteCR_inv {v : Byte} {s t : State} (h : BusInv s) (hw : regWriteCR v s = .next t) : BusInv t := by
  obtain ⟨-, ⟨-, rfl⟩ | ⟨-, -, -, rfl⟩ | ⟨-, -, -, rfl⟩ | ⟨-, -, -, e, he, rfl⟩⟩ := regWriteCR_cases hw
  · exact h.congr ⟨rfl, rfl, rfl, rfl, rfl, rfl, rfl, rfl, rfl⟩
  · unfold State.stopBus
    split
    · exact releaseBus_inv (emit_inv (clearInterrupt_inv h _) _) rfl
    · exact releaseBus_inv (clearInterrupt_inv h _) rfl
  · refine launch_inv (clearInterrupt_inv h _) _ rfl ?_
    intro ho
    simp only [clearInterrupt_own, storeEnables_own] at ho
    simp [startEvent, ho]
  · refine launch_inv (clearInterrupt_inv h _) _ rfl ?_
    intro ho
    rw [clearInterrupt_own, storeEnables_own, continueEvent_owned h he] at ho
    cases ho

end Sys2Proof.Machine
end

