-- ==== Sys2Proof/Laws/Wait.lean ====
section
/-!
SUPPORT. The timed wait, the control write and the DR write: one lemma each for everything it can do, and the induction
over a wait packaged once.
-/
namespace Sys2Proof.Machine

/-- What no primitive writes, whatever the other agents do meanwhile (rules R161 to R167): the operand and result
buffers, the sequencer, ERR, the ports, BRR, PS, INITED, MODE, the configuration. -/
structure PrimFrame (s t : State) : Prop where
  brr : t.brr = s.brr
  inited : t.inited = s.inited
  mode : t.mode = s.mode
  addr : t.addr = s.addr
  reg : t.reg = s.reg
  count : t.count = s.count
  txbuf : t.txbuf = s.txbuf
  data : t.data = s.data
  more : t.more = s.more
  fBus : t.fBus = s.fBus
  fCore : t.fCore = s.fCore
  rxbuf : t.rxbuf = s.rxbuf
  rxlen : t.rxlen = s.rxlen
  seq : t.seq = s.seq
  err : t.err = s.err
  port : t.port = s.port
  response : t.response = s.response
  ps : t.sr.ps = s.sr.ps
  cfg : t.cfg = s.cfg
  hostGie : t.env.hostGie = s.env.hostGie
  mayReset : t.env.mayReset = s.env.mayReset
  resetLine : t.env.resetLine = s.env.resetLine
  gie : s.env.hostGie = false → t.gie = s.gie

theorem PrimFrame.rfl' (s : State) : PrimFrame s s := by constructor <;> intros <;> rfl

theorem PrimFrame.trans {s t u : State} (a : PrimFrame s t) (b : PrimFrame t u) : PrimFrame s u where
  brr := b.brr.trans a.brr
  inited := b.inited.trans a.inited
  mode := b.mode.trans a.mode
  addr := b.addr.trans a.addr
  reg := b.reg.trans a.reg
  count := b.count.trans a.count
  txbuf := b.txbuf.trans a.txbuf
  data := b.data.trans a.data
  more := b.more.trans a.more
  fBus := b.fBus.trans a.fBus
  fCore := b.fCore.trans a.fCore
  rxbuf := b.rxbuf.trans a.rxbuf
  rxlen := b.rxlen.trans a.rxlen
  seq := b.seq.trans a.seq
  err := b.err.trans a.err
  port := b.port.trans a.port
  response := b.response.trans a.response
  ps := b.ps.trans a.ps
  cfg := b.cfg.trans a.cfg
  hostGie := b.hostGie.trans a.hostGie
  mayReset := b.mayReset.trans a.mayReset
  resetLine := b.resetLine.trans a.resetLine
  gie := fun h => (b.gie (by rw [a.hostGie, h])).trans (a.gie h)

theorem AgentFrame.prim {s t : State} (a : AgentFrame s t) : PrimFrame s t where
  brr := a.brr
  inited := a.inited
  mode := a.mode
  addr := a.addr
  reg := a.reg
  count := a.count
  txbuf := a.txbuf
  data := a.data
  more := a.more
  fBus := a.fBus
  fCore := a.fCore
  rxbuf := a.rxbuf
  rxlen := a.rxlen
  seq := a.seq
  err := a.err
  port := a.port
  response := a.response
  ps := a.ps
  cfg := a.cfg
  hostGie := a.hostGie
  mayReset := a.mayReset
  resetLine := a.resetLine
  gie := a.gie

theorem gap_prim (s : State) : PrimFrame s (gap s) := (gap_frame s).prim

/-- A control-register write keeps the frame of the primitives. -/
theorem regWriteCR_prim {v : Byte} {s t : State} (h : regWriteCR v s = .next t) : PrimFrame s t := by
  obtain ⟨-, ⟨-, rfl⟩ | ⟨-, -, -, rfl⟩ | ⟨-, -, -, rfl⟩ | ⟨-, -, -, e, -, rfl⟩⟩ := regWriteCR_cases h
  · constructor <;> intros <;> rfl
  · unfold State.stopBus; split <;> constructor <;> intros <;> rfl
  · constructor <;> intros <;> rfl
  · constructor <;> intros <;> rfl

/-- Everything a DR write can do (rules R22, R151). -/
theorem regWriteDR_cases {v : Byte} {s t : State} (h : regWriteDR v s = .next t) :
    s.pending = none ∧ t = { s with dr := v } := by
  unfold regWriteDR at h
  split at h
  · cases h
  · rename_i hp
    injection h with h
    exact ⟨by simpa using hp, h.symm⟩

theorem regWriteDR_prim {v : Byte} {s t : State} (h : regWriteDR v s = .next t) : PrimFrame s t := by
  obtain ⟨-, rfl⟩ := regWriteDR_cases h
  constructor <;> intros <;> rfl

/-- A DR write keeps the bus invariants. -/
theorem regWriteDR_inv {v : Byte} {s t : State} (hi : BusInv s) (h : regWriteDR v s = .next t) : BusInv t := by
  obtain ⟨-, rfl⟩ := regWriteDR_cases h
  exact hi.congr ⟨rfl, rfl, rfl, rfl, rfl, rfl, rfl, rfl, rfl⟩

/-- What every move keeps, a gap keeps. -/
theorem gap_induct {P : State → Prop} (hmove : ∀ s m, P s → P (envMove s m))
    (henv : ∀ s, P s → P { s with env := s.env.afterGap }) {s : State} (h : P s) : P (gap s) := by
  have key : ∀ (g : Gap) (s : State), P s → P (g.foldl envMove s) := by
    intro g
    induction g with
    | nil => exact fun _ h => h
    | cons m g ih => exact fun s h => ih _ (hmove s m h)
  exact key _ _ (henv s h)

/-! ### Parts of a command one after the other -/

/-- A part of a command that answered `f`'s answer first answered its own. -/
theorem andThen_next {α β : Type} {o : PartResult α} {f : α → PartResult β} {b : β} (h : andThen o f = .next b) :
    ∃ a, o = .next a ∧ f a = .next b := by
  cases o with
  | next a => exact ⟨a, rfl, h⟩
  | abandoned t => cases h
  | refused r => cases h

/-- A command abandoned in `andThen` is abandoned in one of the two parts. -/
theorem andThen_abandoned {α β : Type} {o : PartResult α} {f : α → PartResult β} {t : State} (h : andThen o f = .abandoned t) :
    o = .abandoned t ∨ ∃ a, o = .next a ∧ f a = .abandoned t := by
  cases o with
  | next a => exact .inr ⟨a, rfl, h⟩
  | abandoned u => cases h; exact .inl rfl
  | refused r => cases h

@[simp] theorem andThen_ok {α β : Type} (a : α) (f : α → PartResult β) : andThen (.next a) f = f a := rfl

@[simp] theorem andThen_reset {α β : Type} (t : State) (f : α → PartResult β) :
    andThen (.abandoned t) f = .abandoned t := rfl

@[simp] theorem andThen_refused {α β : Type} (r : Refusal) (f : α → PartResult β) :
    andThen (.refused r) f = .refused r := rfl

/-- A register write is never abandoned, and as a part of a command it answers what it answers. -/
theorem ofResult_next {α : Type} {o : Result α} {a : α} (h : PartResult.ofResult o = .next a) : o = .next a := by
  cases o with
  | next b => cases h; rfl
  | fault r => cases r
  | refused r => cases h

theorem ofResult_not_abandoned {α : Type} {o : Result α} {t : State} : PartResult.ofResult o ≠ .abandoned t := by
  cases o with
  | next b => intro h; cases h
  | fault r => cases r
  | refused r => intro h; cases h

@[simp] theorem ofResult_ok {α : Type} (a : α) : PartResult.ofResult (.next a) = .next a := rfl

@[simp] theorem ofResult_refused {α : Type} (r : Refusal) : (PartResult.ofResult (.refused r) : PartResult α) = .refused r := rfl

/-- A command that ended answered its last part's state or was abandoned. -/
theorem outcome_next {o : PartResult State} {t : State} (h : o.outcome = .next t) : o = .next t ∨ o = .abandoned t := by
  cases o with
  | next a => cases h; exact .inl rfl
  | abandoned u => cases h; exact .inr rfl
  | refused r => cases h

@[simp] theorem outcome_ok (t : State) : (PartResult.next t).outcome = .next t := rfl

@[simp] theorem outcome_refused (r : Refusal) : (PartResult.refused r).outcome = .refused r := rfl

/-! ### The wait -/

/-- One sample of a wait that answered, and what follows it (rule R115). -/
theorem sampleLoop_succ {target : BusStatus} {nack : Sibling} {n : Nat} {s t : State} {r : ResultKind}
    (h : sampleLoop target nack (n + 1) s = .next (r, t)) :
    (gap s).current = s.code target ∧ r = .ok ∧ t = gap s ∨
      (gap s).classify nack = some r ∧ t = gap s ∨
      sampleLoop target nack n (gap s).countSample = .next (r, t) := by
  obtain ⟨u, hu, h⟩ := andThen_next h
  cases pause_next hu
  split at h
  · rename_i hc
    cases h
    exact .inl ⟨hc.trans (congrArg (fun c : Params => c.codes.code target) (gap_frame s).cfg), rfl, rfl⟩
  · split at h
    · rename_i he
      cases h
      exact .inr (.inl ⟨he, rfl⟩)
    · exact .inr (.inr h)

/-- What gaps and counting keep, a wait keeps. -/
theorem sampleLoop_induct {P : State → Prop} (hgap : ∀ s, P s → P (gap s)) (hcnt : ∀ s, P s → P s.countSample)
    {target : BusStatus} {nack : Sibling} {n : Nat} {s t : State} {r : ResultKind} (h : P s)
    (hw : sampleLoop target nack n s = .next (r, t)) : P t := by
  induction n generalizing s with
  | zero => cases hw; exact h
  | succ n ih =>
    rcases sampleLoop_succ hw with ⟨-, -, rfl⟩ | ⟨-, rfl⟩ | hw
    · exact hgap s h
    · exact hgap s h
    · exact ih (hcnt _ (hgap s h)) hw

/-- How a wait of `n` samples can end (rules R115, R116, R117). -/
inductive WaitEnd (target : BusStatus) (nack : Sibling) (n : Nat) (s t : State) : ResultKind → Prop where
  | timeout (h : t.cnt = s.cnt + BitVec.ofNat 16 n) : WaitEnd target nack n s t .timeout
  | ok (j : Nat) (hj : j < n) (h : t.cnt = s.cnt + BitVec.ofNat 16 j) (hs : t.current = s.code target) :
      WaitEnd target nack n s t .ok
  | sibling (j : Nat) (hj : j < n) (h : t.cnt = s.cnt + BitVec.ofNat 16 j) (st : BusStatus) (e : ResultKind)
      (hn : nack = some (st, e)) (hc : s.cfg.nackClassify = true) (hs : t.current = s.code st) :
      WaitEnd target nack n s t e

theorem countSample_prim (s : State) : PrimFrame s s.countSample := by constructor <;> intros <;> rfl

/-- A wait keeps the frame of the primitives (rule R115: it writes CNT only). -/
theorem sampleLoop_prim {target : BusStatus} {nack : Sibling} {n : Nat} {s t : State} {r : ResultKind}
    (h : sampleLoop target nack n s = .next (r, t)) : PrimFrame s t :=
  sampleLoop_induct (P := PrimFrame s) (fun t h => h.trans (gap_prim t)) (fun t h => h.trans (countSample_prim t))
    (.rfl' s) h

theorem classify_some {s : State} {nack : Sibling} {e : ResultKind} (h : s.classify nack = some e) :
    ∃ st, nack = some (st, e) ∧ s.cfg.nackClassify = true ∧ s.current = s.code st := by
  unfold State.classify at h
  split at h
  · cases h
  · rename_i st e'
    split at h
    · rename_i hb
      simp only [Bool.and_eq_true, decide_eq_true_eq] at hb
      injection h with h
      subst h
      exact ⟨st, rfl, hb.1, hb.2⟩
    · cases h

theorem code_of_cfg {s t : State} (h : t.cfg = s.cfg) (st : BusStatus) : t.code st = s.code st := by
  simp [State.code, h]

/-- Everything a wait that answers can end with. -/
theorem sampleLoop_end {target : BusStatus} {nack : Sibling} {n : Nat} {s t : State} {r : ResultKind}
    (h : sampleLoop target nack n s = .next (r, t)) : WaitEnd target nack n s t r := by
  induction n generalizing s with
  | zero => cases h; exact .timeout (by simp)
  | succ n ih =>
    have hg := gap_frame s
    rcases sampleLoop_succ h with ⟨hc, rfl, rfl⟩ | ⟨he, rfl⟩ | h
    · exact .ok 0 (Nat.succ_pos n) (by simp [hg.cnt]) hc
    · obtain ⟨st, hn, hc, hs⟩ := classify_some he
      exact .sibling 0 (Nat.succ_pos n) (by simp [hg.cnt]) st r hn (by rw [← hg.cfg]; exact hc)
        (by rw [hs, code_of_cfg hg.cfg])
    · have h1 : ∀ j : Nat, (gap s).countSample.cnt + BitVec.ofNat 16 j = s.cnt + BitVec.ofNat 16 (j + 1) := by
        intro j
        rw [countSample_cnt, hg.cnt, BitVec.add_assoc, BitVec.add_comm 1, BitVec.ofNat_add]; rfl
      have h2 : ∀ st, (gap s).countSample.code st = s.code st := fun st => by
        rw [countSample_code, code_of_cfg hg.cfg]
      cases ih h with
      | timeout hc => exact .timeout (by rw [hc, h1])
      | ok j hj hc hs => exact .ok (j + 1) (Nat.succ_lt_succ hj) (by rw [hc, h1]) (by rw [hs, h2])
      | sibling j hj hc st _ hn hn' hs =>
        exact .sibling (j + 1) (Nat.succ_lt_succ hj) (by rw [hc, h1]) st _ hn
          (by rw [countSample_cfg, hg.cfg] at hn'; exact hn') (by rw [hs, h2])

/-- The wait with its budget (rule R115): frame and end. -/
theorem waitUntil_spec {target : BusStatus} {nack : Sibling} {s t : State} {r : ResultKind}
    (h : waitUntil target nack s = .next (r, t)) :
    PrimFrame s t ∧ WaitEnd target nack s.cfg.timeoutBudget.toNat { s with cnt := 0 } t r := by
  have h0 : PrimFrame s { s with cnt := 0 } := by constructor <;> intros <;> rfl
  exact ⟨h0.trans (sampleLoop_prim h), sampleLoop_end h⟩

/-- CNT stays within the budget through a wait (R43 (b), rule R116). -/
theorem WaitEnd.cnt_le {target : BusStatus} {nack : Sibling} {s t : State} {r : ResultKind}
    (h : WaitEnd target nack s.cfg.timeoutBudget.toNat { s with cnt := 0 } t r) : t.cnt ≤ s.cfg.timeoutBudget := by
  have aux : ∀ j : Nat, j ≤ s.cfg.timeoutBudget.toNat → (0 : Half) + BitVec.ofNat 16 j ≤ s.cfg.timeoutBudget := by
    intro j hj
    have := s.cfg.timeoutBudget.isLt
    rw [BitVec.le_def]
    simp
    omega
  cases h with
  | timeout h => rw [h]; exact aux _ (Nat.le_refl _)
  | ok j hj h _ => rw [h]; exact aux _ (Nat.le_of_lt hj)
  | sibling j hj h => rw [h]; exact aux _ (Nat.le_of_lt hj)

/-- A wait keeps the bus invariants: it writes CNT only (rule R115). -/
theorem waitUntil_inv {target : BusStatus} {nack : Sibling} {s t : State} {r : ResultKind} (h : BusInv s)
    (hw : waitUntil target nack s = .next (r, t)) : BusInv t :=
  sampleLoop_induct (P := BusInv) (fun _ h => gap_inv h)
    (fun _ h => h.congr ⟨rfl, rfl, rfl, rfl, rfl, rfl, rfl, rfl, rfl⟩)
    (s := { s with cnt := 0 }) (h.congr ⟨rfl, rfl, rfl, rfl, rfl, rfl, rfl, rfl, rfl⟩) hw

/-- A wait is never refused (rule R115). -/
theorem sampleLoop_not_refused {target : BusStatus} {nack : Sibling} {n : Nat} {s : State} {x : Refusal} :
    sampleLoop target nack n s ≠ .refused x := by
  induction n generalizing s with
  | zero => intro h; cases h
  | succ n ih =>
    rw [sampleLoop]
    rcases pause_cases s with ⟨-, h⟩ | ⟨-, -, h⟩ <;> rw [h]
    · rw [andThen_ok]
      split
      · intro h; cases h
      · split
        · intro h; cases h
        · exact ih
    · intro h; cases h

/-! ### Quiet samples and answered ones -/

theorem quiet_succ (n : Nat) : quiet (n + 1) = [] :: quiet n := rfl

/-- Samples that see nothing new: `k` of them count to `k` and leave the rest of the plan (rule R119). -/
theorem sampleLoop_quiet (target : BusStatus) (nack : Sibling) (k n : Nat) (s : State) (rest : List Gap)
    (hp : s.env.plan = quiet k ++ rest) (ht : s.current ≠ s.code target) (hn : s.classify nack = none) :
    sampleLoop target nack (k + n) s = sampleLoop target nack n
      { s with cnt := s.cnt + BitVec.ofNat 16 k, env := { s.env with plan := rest } } := by
  induction k generalizing s with
  | zero =>
    have : s = { s with cnt := s.cnt + BitVec.ofNat 16 0, env := { s.env with plan := rest } } := by
      have hp' : s.env.plan = rest := by simpa [quiet] using hp
      rw [← hp']; simp
    rw [Nat.zero_add, ← this]
  | succ k ih =>
    rw [Nat.succ_add, sampleLoop]
    rw [pause_quiet s (quiet k ++ rest) (by rw [hp]; rfl), andThen_ok]
    rw [if_neg (by exact ht)]
    have hn' : State.classify { s with env := { s.env with plan := quiet k ++ rest } } nack = none := hn
    simp only [hn']
    rw [ih _ rfl (by exact ht) (by exact hn)]
    congr 2
    simp only [State.countSample, BitVec.add_assoc]
    congr 1
    rw [BitVec.add_comm 1, BitVec.ofNat_add]; rfl

end Sys2Proof.Machine
end

