-- ==== Sys2Proof/Laws/Commands.lean ====
section
/-!
SUPPORT. What the primitives, the transactions and INIT keep, and what reset leaves of them: one relation between states,
one predicate on a part of a command, closed under composition, one lemma per building block.
-/
namespace Sys2Proof.Machine

/-- What every part of a command keeps, so that the invariants of `Inv` pass through it. -/
structure Keeps (s t : State) : Prop where
  cfg : t.cfg = s.cfg
  port : t.port = s.port
  hostGie : t.env.hostGie = s.env.hostGie
  mayReset : t.env.mayReset = s.env.mayReset
  mode : t.mode = s.mode
  inited : t.inited = s.inited
  txbuf : t.txbuf = s.txbuf
  bus : BusInv s → BusInv t
  cnt : s.cnt ≤ s.cfg.timeoutBudget → t.cnt ≤ t.cfg.timeoutBudget
  enabled : s.cfg.wf = true → s.cr.en = true ∧ s.cr.ie = modeIe s.mode → t.cr.en = true ∧ t.cr.ie = modeIe t.mode

theorem Keeps.rfl' (s : State) : Keeps s s := ⟨rfl, rfl, rfl, rfl, rfl, rfl, rfl, id, id, fun _ => id⟩

theorem Keeps.trans {s t u : State} (a : Keeps s t) (b : Keeps t u) : Keeps s u where
  cfg := b.cfg.trans a.cfg
  port := b.port.trans a.port
  hostGie := b.hostGie.trans a.hostGie
  mayReset := b.mayReset.trans a.mayReset
  mode := b.mode.trans a.mode
  inited := b.inited.trans a.inited
  txbuf := b.txbuf.trans a.txbuf
  bus := fun h => b.bus (a.bus h)
  cnt := fun h => b.cnt (a.cnt h)
  enabled := fun hw h => b.enabled (by rw [a.cfg, hw]) (a.enabled hw h)

/-- An update of fields that no invariant looks at. -/
theorem Keeps.same {s t : State} (b : BusSame s t) (port : t.port = s.port)
    (hostGie : t.env.hostGie = s.env.hostGie) (mayReset : t.env.mayReset = s.env.mayReset) (mode : t.mode = s.mode)
    (inited : t.inited = s.inited) (txbuf : t.txbuf = s.txbuf) (cnt : t.cnt = s.cnt) (en : t.cr.en = s.cr.en) (ie : t.cr.ie = s.cr.ie) :
    Keeps s t :=
  ⟨b.cfg, port, hostGie, mayReset, mode, inited, txbuf, fun h => h.congr b, fun h => by rw [cnt, b.cfg]; exact h,
    fun _ h => by rw [en, ie, mode]; exact h⟩

theorem gap_keeps (s : State) : Keeps s (gap s) :=
  have f := gap_frame s
  ⟨f.cfg, f.port, f.hostGie, f.mayReset, f.mode, f.inited, f.txbuf, gap_inv, fun h => by rw [f.cnt, f.cfg]; exact h,
    fun _ h => by rw [f.en, f.ie, f.mode]; exact h⟩

theorem regWriteDR_keeps {v : Byte} {s t : State} (h : regWriteDR v s = .next t) : Keeps s t := by
  obtain ⟨-, rfl⟩ := regWriteDR_cases h
  exact .same ⟨rfl, rfl, rfl, rfl, rfl, rfl, rfl, rfl, rfl⟩ rfl rfl rfl rfl rfl rfl rfl rfl rfl

/-- A control write of bits `c` leaves EN and IE as written. -/
theorem regWriteCR_enables {v : Byte} {s t : State} (h : regWriteCR v s = .next t) :
    t.cr.en = (Control.ofByte s.cfg.layout v).en ∧ t.cr.ie = (Control.ofByte s.cfg.layout v).ie ∧ t.cnt = s.cnt := by
  obtain ⟨-, ⟨-, rfl⟩ | ⟨-, -, -, rfl⟩ | ⟨-, -, -, rfl⟩ | ⟨-, -, -, e, -, rfl⟩⟩ := regWriteCR_cases h
  · exact ⟨rfl, rfl, rfl⟩
  · unfold State.stopBus; split <;> exact ⟨rfl, rfl, rfl⟩
  · exact ⟨rfl, rfl, rfl⟩
  · exact ⟨rfl, rfl, rfl⟩

/-- The patterns of rule R82 and INIT's enabling write: EN is set and IE follows the realization (rules R83, R204). -/
def Enabling (pattern : Layout → Mode → Byte) : Prop :=
  ∀ (l : Layout) (m : Mode), l.distinct = true →
    (Control.ofByte l (pattern l m)).en = true ∧ (Control.ofByte l (pattern l m)).ie = modeIe m

theorem patStart_enabling : Enabling patStart := fun l m h => by simp [patStart, ofByte_byte h]
theorem patStop_enabling : Enabling patStop := fun l m h => by simp [patStop, ofByte_byte h]
theorem patPlain_enabling : Enabling patPlain := fun l m h => by simp [patPlain, ofByte_byte h]
theorem patAck_enabling : Enabling patAck := fun l m h => by simp [patAck, ofByte_byte h]
theorem patEnable_enabling : Enabling patEnable := fun l m h => by simp [patEnable, ofByte_byte h]

theorem regWriteCR_keeps {pattern : Layout → Mode → Byte} (hp : Enabling pattern) {s t : State}
    (h : regWriteCR (pattern s.cfg.layout s.mode) s = .next t) : Keeps s t := by
  have f := regWriteCR_prim h
  obtain ⟨e1, e2, e3⟩ := regWriteCR_enables h
  refine ⟨f.cfg, f.port, f.hostGie, f.mayReset, f.mode, f.inited, f.txbuf, fun hi => regWriteCR_inv hi h,
    fun hc => by rw [e3, f.cfg]; exact hc, ?_⟩
  intro hw _
  obtain ⟨p1, p2⟩ := hp s.cfg.layout s.mode (wf_distinct hw)
  rw [e1, e2, f.mode]
  exact ⟨p1, p2⟩

theorem waitUntil_keeps {target : BusStatus} {nack : Sibling} {s t : State} {r : ResultKind}
    (h : waitUntil target nack s = .next (r, t)) : Keeps s t := by
  obtain ⟨f, e⟩ := waitUntil_spec h
  refine ⟨f.cfg, f.port, f.hostGie, f.mayReset, f.mode, f.inited, f.txbuf, fun hb => waitUntil_inv hb h,
    fun _ => by rw [f.cfg]; exact e.cnt_le, fun _ he => ?_⟩
  have : t.cr.en = s.cr.en ∧ t.cr.ie = s.cr.ie :=
    sampleLoop_induct (P := fun t => t.cr.en = s.cr.en ∧ t.cr.ie = s.cr.ie) (s := { s with cnt := 0 })
      (fun t h => by have g := gap_frame t; rw [g.en, g.ie]; exact h) (fun _ h => h) ⟨rfl, rfl⟩ h
  rw [this.1, this.2, f.mode]; exact he

/-! ### Reset -/

/-- What reset leaves of a command is the same, however far the command had come. -/
theorem Keeps.reset {s t u : State} (k : Keeps s t) (h : ResetMeanwhile t u) : ResetMeanwhile s u := by
  obtain ⟨hm, v, rfl⟩ := h
  exact ⟨k.mayReset ▸ hm, v, by rw [k.cfg, k.port]; simp [k.hostGie, k.mayReset, show t.env.cfg = s.env.cfg from k.cfg]⟩

/-- Everything a part of a command begun in `s` can do: it answers a state that keeps what a command keeps, it is
abandoned in reset, or it is refused. `out` is the state in its answer. -/
def Runs {α : Type} (out : α → State) (s : State) : PartResult α → Prop
  | .next a => Keeps s (out a)
  | .abandoned t => ResetMeanwhile s t
  | .refused _ => True

theorem Runs.next {α : Type} {out : α → State} {s : State} {o : PartResult α} {a : α} (h : Runs out s o) (e : o = .next a) :
    Keeps s (out a) := by subst e; exact h

theorem Runs.abandoned {α : Type} {out : α → State} {s t : State} {o : PartResult α} (h : Runs out s o)
    (e : o = .abandoned t) : ResetMeanwhile s t := by subst e; exact h

/-- What comes before a part is part of it. -/
theorem Runs.after {α : Type} {out : α → State} {s t : State} {o : PartResult α} (k : Keeps s t) (h : Runs out t o) :
    Runs out s o := by
  cases o with
  | next a => exact k.trans h
  | abandoned u => exact k.reset h
  | refused r => trivial

theorem Runs.bind {α β : Type} {out : α → State} {out' : β → State} {s : State} {o : PartResult α} {f : α → PartResult β}
    (h : Runs out s o) (hf : ∀ a, Runs out' (out a) (f a)) : Runs out' s (andThen o f) := by
  cases o with
  | next a => exact (hf a).after h
  | abandoned t => exact h
  | refused r => trivial

theorem pause_runs (s : State) : Runs id s (pause s) := by
  rcases pause_cases s with ⟨-, h⟩ | ⟨-, -, h⟩
  · rw [h]; exact gap_keeps s
  · rw [h]; exact pause_abandoned h

/-- A register write that keeps what a command keeps. -/
theorem ofResult_runs {s : State} {o : Result State} (h : ∀ t, o = .next t → Keeps s t) :
    Runs id s (PartResult.ofResult o) := by
  cases o with
  | next t => exact h t rfl
  | fault r => cases r
  | refused r => trivial

/-- A primitive, whatever the state it begins in. -/
def PrimRuns (p : Primitive) : Prop := ∀ s : State, Runs Prod.snd s (p s)

theorem sampleLoop_abandoned {target : BusStatus} {nack : Sibling} {n : Nat} {s t : State}
    (h : sampleLoop target nack n s = .abandoned t) : ResetMeanwhile s t := by
  induction n generalizing s with
  | zero => cases h
  | succ n ih =>
    rcases andThen_abandoned h with h | ⟨u, hu, h⟩
    · exact pause_abandoned h
    · cases pause_next hu
      split at h
      · cases h
      · split at h
        · cases h
        · obtain ⟨hm, v, rfl⟩ := ih h
          have f := gap_frame s
          refine ⟨f.mayReset ▸ hm, v, ?_⟩
          simp only [countSample_cfg, countSample_port, countSample_env, f.cfg, f.port]
          simp [f.hostGie, f.mayReset, show (gap s).env.cfg = s.env.cfg from f.cfg]

theorem waitUntil_runs (target : BusStatus) (nack : Sibling) : PrimRuns (waitUntil target nack) := by
  intro s
  cases h : waitUntil target nack s with
  | next a => exact waitUntil_keeps h
  | abandoned t => exact sampleLoop_abandoned (s := { s with cnt := 0 }) h
  | refused r => trivial

/-! ### The primitives -/

theorem controlStep_runs {pattern : Layout → Mode → Byte} (hp : Enabling pattern) (s : State) :
    Runs id s (controlStep pattern s) :=
  (pause_runs s).bind fun _ => ofResult_runs fun _ h => regWriteCR_keeps hp h

theorem loadStep_runs (v : Byte) (s : State) : Runs id s (loadStep v s) :=
  (pause_runs s).bind fun _ => ofResult_runs fun _ h => regWriteDR_keeps h

theorem controlAndWait_runs {pattern : Layout → Mode → Byte} (hp : Enabling pattern) (target : BusStatus)
    (nack : Sibling) : PrimRuns (controlAndWait pattern target nack) :=
  fun s => (controlStep_runs hp s).bind (waitUntil_runs target nack)

theorem startPrim_runs : PrimRuns startPrim := controlAndWait_runs patStart_enabling _ _
theorem restartPrim_runs : PrimRuns restartPrim := controlAndWait_runs patStart_enabling _ _

theorem addrPrim_runs (d : Direction) : PrimRuns (addrPrim d) :=
  fun s => (loadStep_runs _ s).bind (controlAndWait_runs patPlain_enabling _ _)

theorem dataWPrim_runs (b : Byte) : PrimRuns (dataWPrim b) :=
  fun s => (loadStep_runs b s).bind (controlAndWait_runs patPlain_enabling _ _)

theorem receivePrim_runs (more : Bool) : PrimRuns (receivePrim more) := by
  cases more
  · exact controlAndWait_runs patPlain_enabling _ _
  · exact controlAndWait_runs patAck_enabling _ _

/-- DATA_R is its control write and wait, and after an OK one more gap before DR is read (rule R167). -/
theorem dataRPrim_cases {more : Bool} {s t : State} {r : ResultKind} (h : dataRPrim more s = .next (r, t)) :
    ∃ u, receivePrim more s = .next (r, u) ∧ (r = .ok ∧ t = gap u ∨ r ≠ .ok ∧ t = u) := by
  obtain ⟨⟨r', u⟩, hu, h⟩ := andThen_next h
  cases r' with
  | ok =>
    obtain ⟨v, hv, h⟩ := andThen_next h
    cases pause_next hv
    cases h
    exact ⟨u, hu, .inl ⟨rfl, rfl⟩⟩
  | timeout | addressNack | dataNack | precondition => cases h; exact ⟨_, hu, .inr ⟨by simp, rfl⟩⟩

theorem dataRPrim_runs (more : Bool) : PrimRuns (dataRPrim more) := by
  refine fun s => (receivePrim_runs more s).bind ?_
  rintro ⟨r, s⟩
  cases r with
  | ok => exact (pause_runs s).bind fun t => Keeps.rfl' t
  | timeout | addressNack | dataNack | precondition => exact Keeps.rfl' s

theorem stopBusPrim_runs (s : State) : Runs id s (stopBusPrim s) :=
  (pause_runs s).bind fun _ => ofResult_runs fun _ h => regWriteCR_keeps patStop_enabling h

/-! ### The transactions -/

/-- A gate passes an error on and goes on after OK (rules R186, R187). -/
theorem gated_cases {o : PartResult (ResultKind × State)} {f : Primitive} {r : ResultKind} {t : State}
    (h : gated o f = .next (r, t)) :
    (∃ u, o = .next (.ok, u) ∧ f u = .next (r, t)) ∨ (r ≠ .ok ∧ o = .next (r, t)) := by
  obtain ⟨⟨r', u⟩, hu, h⟩ := andThen_next h
  cases r' with
  | ok => exact .inl ⟨u, hu, h⟩
  | timeout | addressNack | dataNack | precondition => cases h; exact .inr ⟨by simp, hu⟩

theorem gated_runs {s : State} {o : PartResult (ResultKind × State)} {f : Primitive} (ho : Runs Prod.snd s o)
    (hf : PrimRuns f) : Runs Prod.snd s (gated o f) := by
  refine ho.bind ?_
  rintro ⟨r, t⟩
  cases r with
  | ok => exact hf t
  | timeout | addressNack | dataNack | precondition => exact Keeps.rfl' t

theorem atStep_keeps (s : State) (st : SeqStep) : Keeps s (s.atStep st) :=
  .same ⟨rfl, rfl, rfl, rfl, rfl, rfl, rfl, rfl, rfl⟩ rfl rfl rfl rfl rfl rfl rfl rfl rfl

theorem appendByte_keeps (s : State) : Keeps s s.appendByte :=
  .same ⟨rfl, rfl, rfl, rfl, rfl, rfl, rfl, rfl, rfl⟩ rfl rfl rfl rfl rfl rfl rfl rfl rfl

theorem nextIndex_keeps (s : State) : Keeps s s.nextIndex :=
  .same ⟨rfl, rfl, rfl, rfl, rfl, rfl, rfl, rfl, rfl⟩ rfl rfl rfl rfl rfl rfl rfl rfl rfl

theorem finish_keeps (s : State) (r : ResultKind) (after : List Byte) : Keeps s (s.finish r after) :=
  .same ⟨rfl, rfl, rfl, rfl, rfl, rfl, rfl, rfl, rfl⟩ rfl rfl rfl rfl rfl rfl rfl rfl rfl

theorem dropRead_keeps (s : State) : Keeps s s.dropRead :=
  .same ⟨rfl, rfl, rfl, rfl, rfl, rfl, rfl, rfl, rfl⟩ rfl rfl rfl rfl rfl rfl rfl rfl rfl

theorem deliverRead_keeps (s : State) : Keeps s s.deliverRead :=
  .same ⟨rfl, rfl, rfl, rfl, rfl, rfl, rfl, rfl, rfl⟩ rfl rfl rfl rfl rfl rfl rfl rfl rfl

theorem reject_keeps (s : State) (op : Option Opcode) : Keeps s (s.reject op) :=
  .same ⟨rfl, rfl, rfl, rfl, rfl, rfl, rfl, rfl, rfl⟩ rfl rfl rfl rfl rfl rfl rfl rfl rfl

theorem begin_keeps (s : State) (op : Opcode) : Keeps s (s.begin op) :=
  .same ⟨rfl, rfl, rfl, rfl, rfl, rfl, rfl, rfl, rfl⟩ rfl rfl rfl rfl rfl rfl rfl rfl rfl

theorem beginRead_keeps (s : State) (a : Addr7) (r : Byte) (n : Half) : Keeps s (s.beginRead a r n) :=
  .same ⟨rfl, rfl, rfl, rfl, rfl, rfl, rfl, rfl, rfl⟩ rfl rfl rfl rfl rfl rfl rfl rfl rfl

theorem atStepRun_runs (st : SeqStep) {p : Primitive} (hp : PrimRuns p) : PrimRuns (atStepRun st p) :=
  fun s => (hp (s.atStep st)).after (atStep_keeps s st)

theorem selectRegister_runs (s1 s2 s3 : SeqStep) : PrimRuns (selectRegister s1 s2 s3) := fun s =>
  gated_runs (atStepRun_runs s1 startPrim_runs s) fun s =>
  gated_runs (atStepRun_runs s2 (addrPrim_runs .write) s) fun s => atStepRun_runs s3 (dataWPrim_runs _) s

theorem readOne_runs (st : SeqStep) (more : Bool) : PrimRuns (readOne st more) := fun s =>
  gated_runs (atStepRun_runs st (dataRPrim_runs more) s) appendByte_keeps

theorem readMore_runs (n : Nat) : PrimRuns (readMore n) := by
  induction n with
  | zero => exact Keeps.rfl'
  | succ n ih => exact fun s => gated_runs (readOne_runs .rd6 true s) ih

theorem readBody_runs : PrimRuns readBody := fun s =>
  gated_runs (selectRegister_runs _ _ _ s) fun s =>
  gated_runs (atStepRun_runs .rd4 restartPrim_runs s) fun s =>
  gated_runs (atStepRun_runs .rd5 (addrPrim_runs .read) s) fun s =>
  gated_runs (readMore_runs _ s) (readOne_runs _ _)

theorem writeBytes_runs (bs : List Byte) : PrimRuns (writeBytes bs) := by
  induction bs with
  | nil => exact Keeps.rfl'
  | cons b bs ih =>
    exact fun s => gated_runs (atStepRun_runs .wr4 (dataWPrim_runs b) s) fun s => (ih _).after (nextIndex_keeps s)

theorem writeBody_runs : PrimRuns writeBody := fun s =>
  gated_runs (selectRegister_runs _ _ _ s) fun s => writeBytes_runs _ s

/-- Everything a transaction that is not abandoned can end with: OK after its body and one STOP, or the body's error after
one STOP (rules R182, R187). -/
theorem runTransaction_cases {body : Primitive} {done failed : SeqStep} {drop deliver : State → State} {s t : State}
    (h : runTransaction body done failed drop deliver s = .next t) :
    ∃ r u v, body s = .next (r, u) ∧
      ((r = .ok ∧ stopBusPrim (u.atStep done) = .next v ∧ t = deliver v) ∨
       (r ≠ .ok ∧ stopBusPrim (u.atStep failed) = .next v ∧ t = (drop v).finish r [])) := by
  obtain ⟨⟨r, u⟩, hu, h⟩ := andThen_next h
  cases r with
  | ok =>
    obtain ⟨v, hv, h⟩ := andThen_next h
    cases h
    exact ⟨_, u, v, hu, .inl ⟨rfl, hv, rfl⟩⟩
  | timeout | addressNack | dataNack | precondition =>
    obtain ⟨v, hv, h⟩ := andThen_next h
    cases h
    exact ⟨_, u, v, hu, .inr ⟨by simp, hv, rfl⟩⟩

theorem unwind_runs (st : SeqStep) {drop : State → State} (hd : ∀ s, Keeps s (drop s)) (e : ResultKind) (s : State) :
    Runs id s (unwind st drop e s) :=
  ((stopBusPrim_runs _).after (atStep_keeps s st)).bind fun t => (hd t).trans (finish_keeps _ _ _)

theorem runTransaction_runs {body : Primitive} (hb : PrimRuns body) (done failed : SeqStep) {drop deliver : State → State}
    (hd : ∀ s, Keeps s (drop s)) (hl : ∀ s, Keeps s (deliver s)) (s : State) :
    Runs id s (runTransaction body done failed drop deliver s) := by
  refine (hb s).bind ?_
  rintro ⟨r, t⟩
  cases r with
  | ok => exact ((stopBusPrim_runs _).after (atStep_keeps t done)).bind hl
  | timeout | addressNack | dataNack | precondition => exact unwind_runs failed hd _ t

/-- Everything the checks before a command can do (rules R170, R183, R255). -/
theorem guarded_cases {op : Opcode} {s t : State} {go : State → PartResult State} (h : guarded op s go = .next t) :
    s.busy = false ∧ (s.inited = false ∧ t = s.reject (some op) ∨
      s.inited = true ∧ (go s = .next t ∨ go s = .abandoned t)) := by
  unfold guarded at h
  split at h
  · cases h
  · refine ⟨by simpa using ‹¬s.busy = true›, ?_⟩
    split at h
    · exact .inr ⟨by assumption, outcome_next h⟩
    · cases h
      exact .inl ⟨by simpa using ‹¬s.inited = true›, rfl⟩

theorem runPrimitive_cases {p : Primitive} {after : ResultKind → State → List Byte} {s t : State}
    (h : runPrimitive p after s = .next t) : ∃ r u, p s = .next (r, u) ∧ t = u.finish r (after r u) := by
  obtain ⟨⟨r, u⟩, hu, h⟩ := andThen_next h
  cases h
  exact ⟨r, u, hu, rfl⟩

theorem runPrimitive_runs {p : Primitive} (hp : PrimRuns p) (after : ResultKind → State → List Byte) (s : State) :
    Runs id s (runPrimitive p after s) :=
  (hp s).bind fun (_, t) => finish_keeps t _ _

end Sys2Proof.Machine
end

