-- ==== Sys2Proof/Laws/Events.lean ====
section
/-!
SUPPORT. A wait whose event completes after some idle samples: what it answers and the state it leaves (rules R115,
R117, R119), and what a gap can do while nothing is in flight (rule R143).
-/
namespace Sys2Proof.Machine

/-- The status a completion posts (rules R137 to R141). -/
def postedStatus (k : Ack) : BusEvent → BusStatus
  | .genStart => .start
  | .genRestart => .restart
  | .txAddr b => addrStatus b k
  | .txData _ => dataStatus k
  | .rxData a => recvStatus a

/-- A completion that is captured at once in the interrupt realization and left to be sampled in the polling one. -/
def State.afterCompletion (s : State) (k : Ack) (d : Byte) (e : BusEvent) : State :=
  { s.completeEvent k d e with
    latch := match s.mode with
      | .poll => s.latch
      | .irq => s.code (postedStatus k e)
    capPend := decide (s.mode = .poll) }

/-- A wait can be served: an event is in flight, the peripheral is enabled, and its post can be captured where the
realization needs that (rules R112, R145). -/
structure Served (s : State) (e : BusEvent) : Prop where
  cfg_wf : s.cfg.wf = true
  in_flight : s.pending = some e
  enabled : s.cr.en = true
  capturable : s.mode = .irq → s.cr.ie = true ∧ s.gie = true

theorem completeEvent_posts (s : State) (k : Ack) (d : Byte) (e : BusEvent) :
    (s.completeEvent k d e).sr = { s.sr with status := s.code (postedStatus k e) } ∧
    (s.completeEvent k d e).capPend = true := by
  cases e <;> exact ⟨rfl, rfl⟩

/-- The gap in which the event in flight completes. -/
theorem eventGap_moves {s : State} {e : BusEvent} (h : Served s e) (k : Ack) (d : Byte) :
    (eventGap s.mode k d).foldl envMove s = s.afterCompletion k d e := by
  obtain ⟨hsr, hcap⟩ := completeEvent_posts s k d e
  have f := completeEvent_frame s k d e
  have hl : (s.completeEvent k d e).latch = s.latch := by cases e <;> rfl
  cases hm : s.mode with
  | poll =>
    simp only [eventGap, List.foldl_cons, List.foldl_nil, envMove, engineStep_some k d h.in_flight h.enabled,
      State.afterCompletion, hm]
    rw [← hl]
    exact congrArg (fun c => { s.completeEvent k d e with capPend := c }) hcap
  | irq =>
    obtain ⟨hie, hgie⟩ := h.capturable hm
    have hg : (s.completeEvent k d e).gie = true := by rw [← hgie]; cases e <;> rfl
    have hen : (s.completeEvent k d e).captureEnabled = true := by
      simp [State.captureEnabled, f.mode, hm, hcap, f.ie, hie, hg]
    have hms : (s.completeEvent k d e).maskedStatus = s.code (postedStatus k e) := by
      rw [maskedStatus_eq (by rw [f.cfg, h.cfg_wf]) (by rw [hsr, f.cfg]; exact code_masked h.cfg_wf _), hsr]
    simp only [eventGap, List.foldl_cons, List.foldl_nil, envMove, engineStep_some k d h.in_flight h.enabled,
      State.afterCompletion, hm, captureStep, hen, if_true, State.capture, hms]
    rfl

/-- Then `current()` is the posted status in both realizations (rules R110, R111). -/
theorem afterCompletion_current {s : State} (hw : s.cfg.wf = true) (k : Ack) (d : Byte) (e : BusEvent) :
    (s.afterCompletion k d e).current = s.code (postedStatus k e) := by
  obtain ⟨hsr, -⟩ := completeEvent_posts s k d e
  have f := completeEvent_frame s k d e
  have hmode : (s.afterCompletion k d e).mode = s.mode := f.mode
  have hsr' : (s.afterCompletion k d e).sr = { s.sr with status := s.code (postedStatus k e) } := hsr
  have hcfg : (s.afterCompletion k d e).cfg = s.cfg := f.cfg
  unfold State.current
  cases hm : s.mode with
  | poll =>
    simp only [hmode, hm]
    rw [maskedStatus_eq (by rw [hcfg, hw]) (by rw [hsr', hcfg]; exact code_masked hw _), hsr']
  | irq =>
    simp only [hmode, hm]
    simp only [State.afterCompletion, hm]

/-- The state in which a wait samples an event that completed after `k` idle samples. -/
def State.sampledAt (s : State) (k : Nat) (rest : List Gap) (a : Ack) (d : Byte) (e : BusEvent) : State :=
  State.afterCompletion { s with cnt := BitVec.ofNat 16 k, env := { s.env with plan := rest } } a d e

/-- The sibling of a target that the idle code cannot show. -/
def siblingNotIdle : Sibling → Prop
  | none => True
  | some (st, _) => st ≠ .idle

theorem classify_idle {s : State} (hw : s.cfg.wf = true) (hi : s.current = s.code .idle) {nack : Sibling}
    (hn : siblingNotIdle nack) : s.classify nack = none := by
  cases nack with
  | none => rfl
  | some p =>
    obtain ⟨st, e⟩ := p
    have : ¬ s.current = s.code st := fun h => hn (code_injective hw (h.symm.trans hi))
    simp [State.classify, this]

/-- The samples before the event, and the one that sees it (rule R119). -/
theorem waitUntil_answered {s : State} {e : BusEvent} (h : Served s e) (hi : s.current = s.code .idle)
    (target : BusStatus) (nack : Sibling) (ht : target ≠ .idle) (hn : siblingNotIdle nack) (k : Nat) (a : Ack)
    (d : Byte) (rest : List Gap) (hk : k < s.cfg.timeoutBudget.toNat)
    (hp : s.env.plan = quiet k ++ (eventGap s.mode a d :: rest)) :
    waitUntil target nack s =
      if s.code (postedStatus a e) = s.code target then .next (.ok, s.sampledAt k rest a d e)
      else
        match (s.sampledAt k rest a d e).classify nack with
        | some r => .next (r, s.sampledAt k rest a d e)
        | none => sampleLoop target nack (s.cfg.timeoutBudget.toNat - k - 1) (s.sampledAt k rest a d e).countSample := by
  obtain ⟨m, hb⟩ : ∃ m, s.cfg.timeoutBudget.toNat = k + (m + 1) := ⟨s.cfg.timeoutBudget.toNat - k - 1, by omega⟩
  have hm : s.cfg.timeoutBudget.toNat - k - 1 = m := by omega
  have hne : s.current ≠ s.code target := fun x => ht (code_injective h.cfg_wf (x.symm.trans hi))
  have hcl := classify_idle h.cfg_wf hi hn
  rw [hm, waitUntil, hb, sampleLoop_quiet target nack k _ { s with cnt := 0 } _ hp hne hcl, sampleLoop]
  have e0 : (0 : Half) + BitVec.ofNat 16 k = BitVec.ofNat 16 k := by simp
  have hr : (eventGap s.mode a d).any EnvMove.isReset = false := by cases s.mode <;> rfl
  have hg : pause { s with cnt := (0 : Half) + BitVec.ofNat 16 k,
                           env := { s.env with plan := eventGap s.mode a d :: rest } } =
      .next (s.sampledAt k rest a d e) := by
    rw [pause_planned _ _ rest rfl hr, e0]
    exact congrArg PartResult.next <| eventGap_moves (s := { s with cnt := BitVec.ofNat 16 k, env := { s.env with plan := rest } })
      ⟨h.cfg_wf, h.in_flight, h.enabled, h.capturable⟩ a d
  have hc : (s.sampledAt k rest a d e).current = s.code (postedStatus a e) :=
    afterCompletion_current (s := { s with cnt := BitVec.ofNat 16 k, env := { s.env with plan := rest } }) h.cfg_wf a d e
  have hcode : ∀ st, (s.sampledAt k rest a d e).code st = s.code st :=
    fun st => code_of_cfg (completeEvent_frame { s with cnt := _, env := { s.env with plan := rest } } a d e).cfg st
  simp only [hg, andThen_ok, hc, hcode] <;> rfl

/-- The wait succeeds on its target's completion (rule R115). -/
theorem waitUntil_ok {s : State} {e : BusEvent} (h : Served s e) (hi : s.current = s.code .idle)
    {target : BusStatus} (nack : Sibling) (ht : target ≠ .idle) (hn : siblingNotIdle nack) (k : Nat) (a : Ack)
    (hs : postedStatus a e = target) (d : Byte) (rest : List Gap) (hk : k < s.cfg.timeoutBudget.toNat)
    (hp : s.env.plan = quiet k ++ (eventGap s.mode a d :: rest)) :
    waitUntil target nack s = .next (.ok, s.sampledAt k rest a d e) := by
  rw [waitUntil_answered h hi _ nack ht hn k a d rest hk hp, if_pos (by rw [hs])]

/-- The wait ends with the error of the sibling's completion when the configuration classifies (rule R117). -/
theorem waitUntil_sibling {s : State} {e : BusEvent} (h : Served s e) (hi : s.current = s.code .idle)
    {target : BusStatus} (r : ResultKind) (ht : target ≠ .idle) (k : Nat) (a : Ack)
    (hs : postedStatus a e ≠ target) (hn : postedStatus a e ≠ .idle) (hc : s.cfg.nackClassify = true) (d : Byte)
    (rest : List Gap) (hk : k < s.cfg.timeoutBudget.toNat)
    (hp : s.env.plan = quiet k ++ (eventGap s.mode a d :: rest)) :
    waitUntil target (some (postedStatus a e, r)) s = .next (r, s.sampledAt k rest a d e) := by
  have hcur : (s.sampledAt k rest a d e).current = s.code (postedStatus a e) :=
    afterCompletion_current (s := { s with cnt := BitVec.ofNat 16 k, env := { s.env with plan := rest } }) h.cfg_wf a d e
  have hcfg : (s.sampledAt k rest a d e).cfg = s.cfg := (completeEvent_frame { s with cnt := _, env := _ } a d e).cfg
  have hcl : (s.sampledAt k rest a d e).classify (some (postedStatus a e, r)) = some r := by
    simp [State.classify, hcfg, hc, hcur, State.code]
  have hne : ¬ s.code (postedStatus a e) = s.code target := fun x => hs (code_injective h.cfg_wf x)
  rw [waitUntil_answered h hi _ (some (postedStatus a e, r)) ht (by exact hn) k a d rest hk hp, if_neg hne, hcl]

/-- The wait runs out its budget after a completion it does not look for (rules R115, R120). -/
theorem waitUntil_missed {s : State} {e : BusEvent} (h : Served s e) (hi : s.current = s.code .idle)
    {target : BusStatus} (nack : Sibling) (ht : target ≠ .idle) (hn : siblingNotIdle nack) (k : Nat) (a : Ack)
    (hs : postedStatus a e ≠ target)
    (hm : nack = none ∨ s.cfg.nackClassify = false) (d : Byte) (rest : List Gap)
    (hk : k < s.cfg.timeoutBudget.toNat)
    (hp : s.env.plan = quiet k ++ (eventGap s.mode a d :: (quiet (s.cfg.timeoutBudget.toNat - k - 1) ++ rest))) :
    waitUntil target nack s = .next (.timeout, s.sampledAt s.cfg.timeoutBudget.toNat rest a d e) := by
  obtain ⟨m, hb⟩ : ∃ m, s.cfg.timeoutBudget.toNat = k + (m + 1) := ⟨s.cfg.timeoutBudget.toNat - k - 1, by omega⟩
  have hm' : s.cfg.timeoutBudget.toNat - k - 1 = m := by omega
  rw [hm'] at hp
  have hne : s.code (postedStatus a e) ≠ s.code target := fun x => hs (code_injective h.cfg_wf x)
  have f := completeEvent_frame { s with cnt := BitVec.ofNat 16 k, env := { s.env with plan := quiet m ++ rest } } a d e
  have hcfg : (s.sampledAt k (quiet m ++ rest) a d e).cfg = s.cfg := f.cfg
  have hcur : (s.sampledAt k (quiet m ++ rest) a d e).current = s.code (postedStatus a e) :=
    afterCompletion_current (s := { s with cnt := BitVec.ofNat 16 k, env := { s.env with plan := quiet m ++ rest } })
      h.cfg_wf a d e
  have hcl : (s.sampledAt k (quiet m ++ rest) a d e).classify nack = none := by
    rcases hm with rfl | hm
    · rfl
    · cases nack with
      | none => rfl
      | some p => simp [State.classify, hcfg, hm]
  rw [waitUntil_answered h hi _ nack ht hn k a d _ hk hp, if_neg hne, hcl, hm']
  have q := sampleLoop_quiet target nack m 0 (s.sampledAt k (quiet m ++ rest) a d e).countSample rest
    (by cases e <;> rfl) (by
      change (s.sampledAt k (quiet m ++ rest) a d e).current ≠ (s.sampledAt k (quiet m ++ rest) a d e).code target
      rw [hcur]; simp only [State.code, hcfg]; exact hne)
    (by exact hcl)
  rw [Nat.add_zero] at q
  have hcnt : (BitVec.ofNat 16 k + 1 : Half) + BitVec.ofNat 16 m = BitVec.ofNat 16 s.cfg.timeoutBudget.toNat := by
    rw [hb, BitVec.add_assoc, BitVec.ofNat_add, BitVec.ofNat_add, BitVec.add_comm (BitVec.ofNat 16 m)]; rfl
  refine q.trans (congrArg (fun t => PartResult.next (ResultKind.timeout, t)) ?_)
  refine Eq.trans ?_ (congrArg (fun c : Half =>
    State.afterCompletion { s with cnt := c, env := { s.env with plan := rest } } a d e) hcnt)
  cases e <;> rfl

end Sys2Proof.Machine
end

