-- ==== Sys2Proof/Laws/PerInstr.lean ====
section
/-!
SUPPORT. The statement made for every command by itself: the shape of its packet (rules R88, R89).
-/
namespace Sys2Proof.Laws.Packet

/-- A well-formed command's packet begins with its opcode byte, that byte names the command, and the packet is as long as
its own first bytes say. -/
def Statement (i : Instr) : Prop :=
  i.wf = true →
    (encode i).head? = some i.opcode.byte ∧ Opcode.ofByte i.opcode.byte = some i.opcode ∧
      (encode i).length = packetLength (encode i)

theorem start : Statement .start := fun _ => ⟨rfl, rfl, rfl⟩

theorem restart : Statement .restart := fun _ => ⟨rfl, rfl, rfl⟩

theorem stop : Statement .stop := fun _ => ⟨rfl, rfl, rfl⟩

theorem addrW (a : Addr7) : Statement (.addrW a) := fun _ => ⟨rfl, rfl, rfl⟩

theorem addrR (a : Addr7) : Statement (.addrR a) := fun _ => ⟨rfl, rfl, rfl⟩

theorem dataW (d : Byte) : Statement (.dataW d) := fun _ => ⟨rfl, rfl, rfl⟩

theorem dataR (more : Bool) : Statement (.dataR more) := fun _ => ⟨rfl, rfl, rfl⟩

theorem init (mode : Mode) (bus core : Hertz) : Statement (.init mode bus core) := fun _ => ⟨rfl, rfl, rfl⟩

theorem read (a : Addr7) (r : Byte) (n : Half) : Statement (.read a r n) := fun _ => ⟨rfl, rfl, rfl⟩

/-- A length field reads back, low byte first (rule R92). -/
theorem le16_bytes (n : Half) : le16 (n.extractLsb' 0 8) (n.extractLsb' 8 8) = n := by
  ext i hi
  simp only [le16]
  interval_cases i <;> simp [BitVec.getElem_or, BitVec.getElem_shiftLeft, BitVec.getElem_setWidth]

theorem write (a : Addr7) (r : Byte) (bytes : List Byte) : Statement (.write a r bytes) := by
  intro h
  refine ⟨rfl, rfl, ?_⟩
  have hl : (BitVec.ofNat 16 bytes.length).toNat = bytes.length := by
    simp only [Instr.wf, decide_eq_true_eq] at h
    simp only [BitVec.toNat_ofNat]
    omega
  change bytes.length + 5 = 5 + (le16 _ _).toNat
  rw [le16_bytes, hl, Nat.add_comm]

end Sys2Proof.Laws.Packet
end

