-- ==== Sys2Proof/Laws/Reset.lean ====
section
/-!
SUPPORT. Where reset falls in a command (rule R250): the building blocks take their gaps from the plan one at a time and
look at none beyond, so a gap with reset in it ends a command wherever it stands. One property, closed under composition,
one lemma per building block.
-/
namespace Sys2Proof.Machine

/-- What `Abandoned` takes from the state a command began in. -/
structure SameBase (s t : State) : Prop where
  cfg : t.cfg = s.cfg
  port : t.port = s.port
  hostGie : t.env.hostGie = s.env.hostGie
  mayReset : t.env.mayReset = s.env.mayReset

theorem SameBase.rfl' (s : State) : SameBase s s := ⟨rfl, rfl, rfl, rfl⟩

theorem SameBase.trans {s t u : State} (a : SameBase s t) (b : SameBase t u) : SameBase s u :=
  ⟨b.cfg.trans a.cfg, b.port.trans a.port, b.hostGie.trans a.hostGie, b.mayReset.trans a.mayReset⟩

theorem SameBase.abandoned {s t u : State} (a : SameBase s t) (h : Abandoned t u) : Abandoned s u := by
  obtain ⟨v, rfl⟩ := h
  exact ⟨v, by rw [a.cfg, a.port]; simp [a.hostGie, a.mayReset, show t.env.cfg = s.env.cfg from a.cfg]⟩

/-- Where the state is in an answer of a part of a command. -/
structure View (α : Type) where
  state : α → State
  withPlan : List Gap → α → α

def View.self : View State := ⟨id, fun p s => s.withPlan p⟩
def View.primitive : View (ResultKind × State) := ⟨Prod.snd, fun p (r, s) => (r, s.withPlan p)⟩

/-- The same outcome with other gaps left. -/
def PartResult.withPlan {α : Type} (v : View α) (p : List Gap) : PartResult α → PartResult α
  | .next a => .next (v.withPlan p a)
  | .abandoned t => .abandoned (t.withPlan p)
  | .refused r => .refused r

/-- How a part of a command begun in `s` meets the gaps `gs`, `run` being its outcome under each plan: it ends within them
and leaves what follows untouched, or it goes past them, and then a reset in the next gap ends it there. -/
def Meets {α : Type} (v : View α) (s : State) (run : List Gap → PartResult α) (gs : List Gap) : Prop :=
  (∃ (o : PartResult α) (left : List Gap), left.length ≤ gs.length ∧ (∀ a, o = .next a → SameBase s (v.state a)) ∧
    ∀ tail, run (gs ++ tail) = o.withPlan v (left ++ tail)) ∨
  (s.env.mayReset = true → ∀ (g : Gap) (rest : List Gap), .reset ∈ g →
    ∃ t, run (gs ++ g :: rest) = .abandoned t ∧ Abandoned s t ∧ t.env.plan = rest)

/-- A part of a command that takes its gaps one at a time, whatever the state it begins in. -/
def TakesGaps {α : Type} (v : View α) (f : State → PartResult α) : Prop :=
  ∀ (s : State) (gs : List Gap), Meets v s (fun p => f (s.withPlan p)) gs

/-- One part after the other. -/
theorem Meets.bind {α β : Type} {v : View α} {w : View β} {s : State} {run : List Gap → PartResult α}
    {f : α → PartResult β} (h : ∀ gs, Meets v s run gs)
    (hf : ∀ a gs, Meets w (v.state a) (fun p => f (v.withPlan p a)) gs) (gs : List Gap) :
    Meets w s (fun p => andThen (run p) f) gs := by
  rcases h gs with ⟨o, left, hl, hb, ho⟩ | h
  · cases o with
    | next a =>
      have b := hb a rfl
      rcases hf a left with ⟨o', left', hl', hb', ho'⟩ | h'
      · refine .inl ⟨o', left', hl'.trans hl, fun c hc => b.trans (hb' c hc), fun tail => ?_⟩
        exact (congrArg (andThen · f) (ho tail)).trans (ho' tail)
      · refine .inr fun hm g rest hg => ?_
        obtain ⟨t, e, ht, hp⟩ := h' (b.mayReset.trans hm) g rest hg
        exact ⟨t, (congrArg (andThen · f) (ho (g :: rest))).trans e, b.abandoned ht, hp⟩
    | abandoned t =>
      exact .inl ⟨.abandoned t, left, hl, fun _ hc => (by cases hc), fun tail => congrArg (andThen · f) (ho tail)⟩
    | refused r => exact .inl ⟨.refused r, left, hl, fun _ hc => (by cases hc), fun tail => congrArg (andThen · f) (ho tail)⟩
  · refine .inr fun hm g rest hg => ?_
    obtain ⟨t, e, ht, hp⟩ := h hm g rest hg
    exact ⟨t, congrArg (andThen · f) e, ht, hp⟩

/-- A part that takes no gap. -/
theorem Meets.pure {α : Type} {v : View α} {s : State} {run : List Gap → PartResult α} (o : PartResult α)
    (hb : ∀ a, o = .next a → SameBase s (v.state a)) (h : ∀ p, run p = o.withPlan v p) (gs : List Gap) :
    Meets v s run gs :=
  .inl ⟨o, gs, Nat.le_refl _, hb, fun tail => h (gs ++ tail)⟩

/-- What comes before a part is part of it. -/
theorem Meets.after {α : Type} {v : View α} {s t : State} {run : List Gap → PartResult α} (b : SameBase s t)
    {gs : List Gap} (h : Meets v t run gs) : Meets v s run gs := by
  rcases h with ⟨o, left, hl, hb, ho⟩ | h
  · exact .inl ⟨o, left, hl, fun a ha => b.trans (hb a ha), ho⟩
  · refine .inr fun hm g rest hg => ?_
    obtain ⟨t, e, ht, hp⟩ := h (b.mayReset.trans hm) g rest hg
    exact ⟨t, e, b.abandoned ht, hp⟩

/-- No move looks at the gaps to come. -/
theorem envMove_withPlan (s : State) (p : List Gap) (m : EnvMove) : envMove (s.withPlan p) m = (envMove s m).withPlan p := by
  cases m with
  | complete k d =>
    show engineStep k d (s.withPlan p) = (engineStep k d s).withPlan p
    unfold engineStep
    show (match s.pending with | none => _ | some e => _) = _
    cases s.pending with
    | none => rfl
    | some e =>
      show (if s.cr.en then _ else _) = _
      cases s.cr.en
      · rfl
      · cases e <;> rfl
  | stopDone => rfl
  | capture =>
    show (if s.captureEnabled then _ else _) = (captureStep s).withPlan p
    unfold captureStep
    split <;> rfl
  | setGie on =>
    show (if s.env.hostGie then _ else _) = (setGieStep on s).withPlan p
    unfold setGieStep
    split <;> rfl
  | reset => rfl

theorem moves_withPlan (g : Gap) (s : State) (p : List Gap) :
    g.foldl envMove (s.withPlan p) = (g.foldl envMove s).withPlan p := by
  induction g generalizing s with
  | nil => rfl
  | cons m g ih => rw [List.foldl_cons, envMove_withPlan, ih]; rfl

/-- What stands before a micro-step takes one gap. -/
theorem pause_takesGaps : TakesGaps View.self pause := by
  intro s gs
  cases gs with
  | nil =>
    refine .inr fun hm g rest hg => ?_
    have hr : ((s.withPlan (g :: rest)).env.resetNext) = true := by
      show (s.env.mayReset && g.any EnvMove.isReset) = true
      rw [hm, Bool.true_and, List.any_eq_true]
      exact ⟨.reset, hg, rfl⟩
    exact ⟨(s.withPlan (g :: rest)).abandon, by show pause _ = _; rw [pause, List.nil_append, hr]; rfl, ⟨s.withPlan rest |>.powerOn, rfl⟩, rfl⟩
  | cons g gs =>
    have hr : ∀ p, (s.withPlan (g :: p)).env.resetNext = (s.env.mayReset && g.any EnvMove.isReset) := fun _ => rfl
    cases h : s.env.mayReset && g.any EnvMove.isReset with
    | true =>
      refine .inl ⟨.abandoned s.powerOn, gs, Nat.le_succ _, fun _ hc => (by cases hc), fun tail => ?_⟩
      show pause _ = _
      rw [pause, List.cons_append, hr, h]; rfl
    | false =>
      refine .inl ⟨.next (g.foldl envMove s), gs, Nat.le_succ _, fun a ha => ?_, fun tail => ?_⟩
      · cases ha
        have f := moves_frame g s
        exact ⟨f.cfg, f.port, f.hostGie, f.mayReset⟩
      · show pause _ = _
        rw [pause, List.cons_append, hr, h]
        exact congrArg PartResult.next (moves_withPlan g s (gs ++ tail))

/-- A register write takes no gap. -/
theorem regWriteCR_meets (v : Byte) (s : State) (gs : List Gap) :
    Meets View.self s (fun p => .ofResult (regWriteCR v (s.withPlan p))) gs := by
  refine Meets.pure (.ofResult (regWriteCR v s)) (fun a ha => ?_) (fun p => ?_) gs
  · have f := regWriteCR_prim (ofResult_next ha)
    exact ⟨f.cfg, f.port, f.hostGie, f.mayReset⟩
  · have hl : ∀ (c : Control) (u : State),
        PartResult.ofResult (launchByControl c (u.withPlan p)) = (PartResult.ofResult (launchByControl c u)).withPlan View.self p := by
      intro c u
      unfold launchByControl
      split
      · rfl
      · split
        · simp only [State.stopBus]
          show PartResult.next (State.releaseBus (if u.own then _ else _)) = _
          cases u.own <;> rfl
        · split
          · rfl
          · show PartResult.ofResult (match continueEvent u.phase u.dr c.ea with | some e => _ | none => _) = _
            cases continueEvent u.phase u.dr c.ea <;> rfl
    generalize hc : Control.ofByte s.cfg.layout v = c
    have e : ∀ u : State, u.cfg = s.cfg → regWriteCR v u =
        if c.en then
          if c.int then launchByControl c (u.storeEnables c).clearInterrupt else .next (u.storeEnables c)
        else .refused .peripheralDisable := by
      intro u hu
      rw [← hc, ← hu]; rfl
    rw [e (s.withPlan p) rfl, e s rfl]
    split
    · split
      · exact hl c (s.storeEnables c).clearInterrupt
      · rfl
    · rfl

theorem controlStep_takesGaps (pattern : Layout → Mode → Byte) : TakesGaps View.self (controlStep pattern) :=
  fun s => Meets.bind (pause_takesGaps s) fun t gs => regWriteCR_meets (pattern t.cfg.layout t.mode) t gs

theorem loadStep_takesGaps (v : Byte) : TakesGaps View.self (loadStep v) := by
  refine fun s => Meets.bind (pause_takesGaps s) fun t gs => Meets.pure (.ofResult (regWriteDR v t)) (fun a ha => ?_) (fun p => ?_) gs
  · have f := regWriteDR_prim (ofResult_next ha)
    exact ⟨f.cfg, f.port, f.hostGie, f.mayReset⟩
  · unfold regWriteDR
    show PartResult.ofResult (if t.pending.isSome then _ else _) = _
    cases t.pending.isSome <;> rfl

theorem sampleLoop_takesGaps (target : BusStatus) (nack : Sibling) (n : Nat) :
    TakesGaps View.primitive (sampleLoop target nack n) := by
  induction n with
  | zero => exact fun s => Meets.pure (.next (.timeout, s)) (fun a ha => by cases ha; exact .rfl' s) fun _ => rfl
  | succ n ih =>
    refine fun s => Meets.bind (pause_takesGaps s) fun t gs => ?_
    by_cases hc : t.current = t.code target
    · refine Meets.pure (.next (.ok, t)) (fun a ha => by cases ha; exact .rfl' t) (fun p => ?_) gs
      exact if_pos hc
    · cases he : t.classify nack with
      | some e =>
        refine Meets.pure (.next (e, t)) (fun a ha => by cases ha; exact .rfl' t) (fun p => ?_) gs
        refine (if_neg hc).trans ?_
        have : (t.withPlan p).classify nack = some e := he
        show (match (t.withPlan p).classify nack with | some e => _ | none => _) = _
        rw [this]; rfl
      | none => 
        refine cast ?_ (Meets.after (s := t) (t := t.countSample) ⟨rfl, rfl, rfl, rfl⟩ (ih t.countSample gs))
        congr 1
        funext p
        refine ((if_neg hc).trans ?_).symm
        have : (t.withPlan p).classify nack = none := he
        show (match (t.withPlan p).classify nack with | some e => _ | none => _) = _
        rw [this]; rfl

theorem waitUntil_takesGaps (target : BusStatus) (nack : Sibling) : TakesGaps View.primitive (waitUntil target nack) :=
  fun s gs => Meets.after (s := s) (t := { s with cnt := 0 }) ⟨rfl, rfl, rfl, rfl⟩
    (sampleLoop_takesGaps target nack s.cfg.timeoutBudget.toNat { s with cnt := 0 } gs)

theorem controlAndWait_takesGaps (pattern : Layout → Mode → Byte) (target : BusStatus) (nack : Sibling) :
    TakesGaps View.primitive (controlAndWait pattern target nack) :=
  fun s => Meets.bind (controlStep_takesGaps pattern s) (waitUntil_takesGaps target nack)

theorem stopBusPrim_takesGaps : TakesGaps View.self stopBusPrim := controlStep_takesGaps patStop

/-! ### The primitives and the transactions -/

/-- An answer in which the state has been updated, the update looking at no gap. -/
theorem Meets.answer {α : Type} {v : View α} {s : State} (f : State → α) (hb : SameBase s (v.state (f s)))
    (h : ∀ p, f (s.withPlan p) = v.withPlan p (f s)) (gs : List Gap) :
    Meets v s (fun p => .next (f (s.withPlan p))) gs :=
  .pure (.next (f s)) (fun a ha => by cases ha; exact hb) (fun p => congrArg PartResult.next (h p)) gs

/-- A part after an update of the state that looks at no gap. -/
theorem TakesGaps.update {α : Type} {v : View α} {f : State → PartResult α} (hf : TakesGaps v f) {s : State}
    (m : State → State) (hb : SameBase s (m s)) (h : ∀ p, m (s.withPlan p) = (m s).withPlan p) (gs : List Gap) :
    Meets v s (fun p => f (m (s.withPlan p))) gs := by
  have e : (fun p => f (m (s.withPlan p))) = fun p => f ((m s).withPlan p) := funext fun p => congrArg f (h p)
  rw [e]
  exact Meets.after (s := s) (t := m s) hb (hf (m s) gs)

theorem startPrim_takesGaps : TakesGaps View.primitive startPrim := controlAndWait_takesGaps _ _ _
theorem restartPrim_takesGaps : TakesGaps View.primitive restartPrim := controlAndWait_takesGaps _ _ _

theorem addrPrim_takesGaps (d : Direction) : TakesGaps View.primitive (addrPrim d) :=
  fun s => Meets.bind (loadStep_takesGaps (frame s.addr d) s) (controlAndWait_takesGaps _ _ _)

theorem dataWPrim_takesGaps (b : Byte) : TakesGaps View.primitive (dataWPrim b) :=
  fun s => Meets.bind (loadStep_takesGaps b s) (controlAndWait_takesGaps _ _ _)

theorem receivePrim_takesGaps (more : Bool) : TakesGaps View.primitive (receivePrim more) := by
  cases more
  · exact controlAndWait_takesGaps _ _ _
  · exact controlAndWait_takesGaps _ _ _

/-- A result that is passed on. -/
theorem passOn_meets (r : ResultKind) (s : State) (gs : List Gap) :
    Meets View.primitive s (fun p => .next (r, s.withPlan p)) gs :=
  .answer (v := View.primitive) (fun s => (r, s)) (.rfl' s) (fun _ => rfl) gs

theorem dataRPrim_takesGaps (more : Bool) : TakesGaps View.primitive (dataRPrim more) := by
  refine fun s => Meets.bind (receivePrim_takesGaps more s) ?_
  rintro ⟨r, t⟩ gs
  cases r with
  | ok => exact Meets.bind (pause_takesGaps t) (fun u => passOn_meets .ok u) gs
  | timeout | addressNack | dataNack | precondition => exact passOn_meets _ t gs

theorem gated_meets {s : State} {run : List Gap → PartResult (ResultKind × State)} {f : Primitive}
    (h : ∀ gs, Meets View.primitive s run gs) (hf : TakesGaps View.primitive f) (gs : List Gap) :
    Meets View.primitive s (fun p => gated (run p) f) gs := by
  refine Meets.bind h ?_ gs
  rintro ⟨r, t⟩ gs
  cases r with
  | ok => exact hf t gs
  | timeout | addressNack | dataNack | precondition => exact passOn_meets _ t gs

theorem atStepRun_takesGaps (st : SeqStep) {f : Primitive} (hf : TakesGaps View.primitive f) :
    TakesGaps View.primitive (atStepRun st f) :=
  fun _ => hf.update (·.atStep st) ⟨rfl, rfl, rfl, rfl⟩ fun _ => rfl

theorem selectRegister_takesGaps (s1 s2 s3 : SeqStep) : TakesGaps View.primitive (selectRegister s1 s2 s3) := fun s =>
  gated_meets (atStepRun_takesGaps s1 startPrim_takesGaps s) fun s =>
  gated_meets (atStepRun_takesGaps s2 (addrPrim_takesGaps .write) s) fun s =>
  atStepRun_takesGaps s3 (dataWPrim_takesGaps s.reg) s

theorem readOne_takesGaps (st : SeqStep) (more : Bool) : TakesGaps View.primitive (readOne st more) := fun s =>
  gated_meets (atStepRun_takesGaps st (dataRPrim_takesGaps more) s) fun _ =>
  .answer (v := View.primitive) (fun s => (.ok, s.appendByte)) ⟨rfl, rfl, rfl, rfl⟩ fun _ => rfl

theorem readMore_takesGaps (n : Nat) : TakesGaps View.primitive (readMore n) := by
  induction n with
  | zero => exact fun s => passOn_meets .ok s
  | succ n ih => exact fun s => gated_meets (readOne_takesGaps .rd6 true s) ih

theorem readBody_takesGaps : TakesGaps View.primitive readBody := fun s =>
  gated_meets (selectRegister_takesGaps _ _ _ s) fun s =>
  gated_meets (atStepRun_takesGaps .rd4 restartPrim_takesGaps s) fun s =>
  gated_meets (atStepRun_takesGaps .rd5 (addrPrim_takesGaps .read) s) fun s =>
  gated_meets (readMore_takesGaps (s.count.toNat - 1) s) (readOne_takesGaps _ _)

theorem writeBytes_takesGaps (bs : List Byte) : TakesGaps View.primitive (writeBytes bs) := by
  induction bs with
  | nil => exact fun s => passOn_meets .ok s
  | cons b bs ih =>
    exact fun s => gated_meets (atStepRun_takesGaps .wr4 (dataWPrim_takesGaps b) s) fun _ =>
      ih.update State.nextIndex ⟨rfl, rfl, rfl, rfl⟩ fun _ => rfl

theorem writeBody_takesGaps : TakesGaps View.primitive writeBody := fun s =>
  gated_meets (selectRegister_takesGaps _ _ _ s) fun s => writeBytes_takesGaps s.txbuf s

/-- A transaction, its last updates looking at no gap. -/
theorem runTransaction_takesGaps {body : Primitive} (hb : TakesGaps View.primitive body) (done failed : SeqStep)
    {drop deliver : State → State} (hd : ∀ s, SameBase s (drop s)) (hl : ∀ s, SameBase s (deliver s))
    (hd' : ∀ s p, drop (s.withPlan p) = (drop s).withPlan p)
    (hl' : ∀ s p, deliver (s.withPlan p) = (deliver s).withPlan p) :
    TakesGaps View.self (runTransaction body done failed drop deliver) := by
  have stop : ∀ (st : SeqStep) (f : State → State) (s : State), (∀ s, SameBase s (f s)) →
      (∀ s p, f (s.withPlan p) = (f s).withPlan p) → ∀ gs,
      Meets View.self s (fun p => andThen (stopBusPrim ((s.withPlan p).atStep st)) fun s => .next (f s)) gs :=
    fun st f s hf hf' => Meets.bind (stopBusPrim_takesGaps.update (·.atStep st) ⟨rfl, rfl, rfl, rfl⟩ fun _ => rfl)
      fun t => .answer (v := View.self) f (hf t) (hf' t)
  have fail : ∀ (r : ResultKind) (s : State), SameBase s ((drop s).finish r []) := fun r s =>
    (hd s).trans ⟨rfl, rfl, rfl, rfl⟩
  refine fun s => Meets.bind (hb s) ?_
  rintro ⟨r, t⟩ gs
  cases r with
  | ok => exact stop done deliver t hl hl' gs
  | timeout | addressNack | dataNack | precondition =>
    exact stop failed (fun s => (drop s).finish _ []) t (fail _) (fun s p => by rw [hd']; rfl) gs

theorem runPrimitive_takesGaps {f : Primitive} (hf : TakesGaps View.primitive f) {after : ResultKind → State → List Byte}
    (ha : ∀ r s p, after r (s.withPlan p) = after r s) : TakesGaps View.self (runPrimitive f after) :=
  fun s => Meets.bind (hf s) fun (r, t) =>
    .answer (v := View.self) (fun t => t.finish r (after r t)) ⟨rfl, rfl, rfl, rfl⟩ fun p => by rw [ha]; rfl

theorem initBody_takesGaps (m : Mode) : TakesGaps View.self (initBody m) := fun s =>
  Meets.bind (pause_takesGaps s) fun _ =>
  Meets.bind (pause_takesGaps.update State.setDivisor ⟨rfl, rfl, rfl, rfl⟩ fun _ => rfl) fun _ =>
  Meets.bind (pause_takesGaps.update State.setPrescaler ⟨rfl, rfl, rfl, rfl⟩ fun _ => rfl) fun _ =>
  Meets.bind ((controlStep_takesGaps patEnable).update (·.setMode m) ⟨rfl, rfl, rfl, rfl⟩ fun _ => rfl) fun t =>
  Meets.bind (run := fun p => enableInterrupts m (t.withPlan p))
    (match m with
      | .poll => .answer (v := View.self) id (.rfl' t) fun _ => rfl
      | .irq => Meets.bind (pause_takesGaps t) fun _ =>
          .answer (v := View.self) (fun s => { s with gie := true }) ⟨rfl, rfl, rfl, rfl⟩ fun _ => rfl) fun u =>
  Meets.bind (pause_takesGaps u) fun _ => .answer (v := View.self) State.initDone ⟨rfl, rfl, rfl, rfl⟩ fun _ => rfl

/-- The outcome of a command that took the gap after `gs`, when reset comes in that gap. -/
theorem TakesGaps.outcome_reset {f : State → PartResult State} (hf : TakesGaps View.self f) {s t : State}
    {gs more rest : List Gap} {g0 g : Gap} (h : (f (s.withPlan (gs ++ g0 :: more))).outcome = .next t)
    (hl : t.env.plan.length ≤ more.length) (hm : s.env.mayReset = true) (hg : .reset ∈ g) :
    ∃ u, (f (s.withPlan (gs ++ g :: rest))).outcome = .next u ∧ Abandoned s u ∧ u.env.plan = rest := by
  rcases hf s gs with ⟨o, left, hl', -, ho⟩ | hr
  · exfalso
    have e : (o.withPlan View.self (left ++ g0 :: more)).outcome = .next t :=
      (congrArg PartResult.outcome (ho (g0 :: more))).symm.trans h
    have hp : t.env.plan = left ++ g0 :: more := by
      cases o with
      | next a => cases e; rfl
      | abandoned a => cases e; rfl
      | refused r => cases e
    rw [hp] at hl
    simp at hl
    omega
  · obtain ⟨u, e, ha, hp⟩ := hr hm g rest hg
    exact ⟨u, congrArg PartResult.outcome e, ha, hp⟩

end Sys2Proof.Machine
end

