-- ==== Sys2Proof/Laws/Wire.lean ====
section
/-!
SUPPORT. What a byte and a trace are on the two lines: the instants a receiver samples, who pulls SDA there, and the level
each symbol leaves on SCL (rules R93, R143, R146).
-/
namespace Sys2Proof.Machine

/-- A clock pulse has one instant with SCL high. -/
@[simp] theorem clockHigh_pulse (who : Side) (low : Bool) : clockHigh (pulse who low) = [instant false who low] := by
  cases who <;> cases low <;> rfl

@[simp] theorem clockHigh_append (is js : List Instant) : clockHigh (is ++ js) = clockHigh is ++ clockHigh js :=
  List.filter_append ..

theorem clockHigh_pulses (who : Side) (lows : List Bool) :
    clockHigh (lows.flatMap (pulse who)) = lows.map (instant false who) := by
  induction lows with
  | nil => rfl
  | cons l ls ih => rw [List.flatMap_cons, clockHigh_append, ih, clockHigh_pulse]; rfl

/-- The bits of a byte, written out. -/
theorem msbFirst_eq (b : Byte) : msbFirst b =
    [b.getLsbD 7, b.getLsbD 6, b.getLsbD 5, b.getLsbD 4, b.getLsbD 3, b.getLsbD 2, b.getLsbD 1, b.getLsbD 0] := rfl

/-- The nine instants of a byte at which SCL is high: the transmitter's eight, then the receiver's (rule R146). -/
theorem clockHigh_byte (who : Side) (b : Byte) (k : Ack) :
    clockHigh (byteInstants who b k) =
      (msbFirst b).map (fun bit => instant false who (!bit)) ++ [instant false who.other (ackLow k)] := by
  have h : (msbFirst b).flatMap (fun bit => pulse who (!bit)) = ((msbFirst b).map (!·)).flatMap (pulse who) :=
    List.flatMap_map .. |>.symm
  rw [byteInstants, clockHigh_append, h, clockHigh_pulses, clockHigh_pulse, List.map_map]; rfl

/-- What is sampled of a symbol are the levels of SDA at those instants. -/
theorem sampled_wire (x : Sym) : sampled x.wire = (clockHigh x.instants).map (·.lines.sda) := by
  rw [sampled, Sym.wire, List.filter_map, List.map_map]; rfl

@[simp] theorem instant_sda (scl : Bool) (who : Side) (low : Bool) : (instant scl who low).lines.sda = !low := by
  cases who <;> cases low <;> rfl

/-- The levels do not tell which side pulled. -/
theorem pulse_lines (who : Side) (low : Bool) :
    (pulse who low).map Instant.lines =
      [{ scl := false, sda := !low }, { scl := true, sda := !low }, { scl := false, sda := !low }] := by
  cases who <;> cases low <;> rfl

theorem byte_lines (who : Side) (b : Byte) (k : Ack) :
    (byteInstants who b k).map Instant.lines = (byteInstants .controller b k).map Instant.lines := by
  simp only [byteInstants, List.map_append, List.map_flatMap, pulse_lines]

/-- Pulse after pulse, SDA changes only while SCL is low (rule R146). -/
theorem changesWhileLow_pulses (ps : List (Side × Bool)) :
    changesWhileLow ((ps.flatMap fun p => pulse p.1 p.2).map Instant.lines) = true := by
  induction ps with
  | nil => rfl
  | cons p ps ih =>
    rw [List.flatMap_cons, List.map_append, pulse_lines]
    cases ps with
    | nil => simp [changesWhileLow]
    | cons q qs =>
      rw [List.flatMap_cons, List.map_append, pulse_lines] at ih ⊢
      simpa [changesWhileLow] using ih

theorem changesWhileLow_byte (who : Side) (b : Byte) (k : Ack) :
    changesWhileLow ((byteInstants who b k).map Instant.lines) = true := by
  have h : byteInstants who b k =
      (((msbFirst b).map fun bit => (who, !bit)) ++ [(who.other, ackLow k)]).flatMap fun p => pulse p.1 p.2 := by
    simp [byteInstants, List.flatMap_map]
  rw [h]; exact changesWhileLow_pulses _

/-- In a byte only the controller pulls SCL (rule R146). -/
theorem byte_slave_scl (who : Side) (b : Byte) (k : Ack) : ∀ i ∈ byteInstants who b k, i.slave.scl = false := by
  have h : ∀ (w : Side) (l : Bool), ∀ i ∈ pulse w l, i.slave.scl = false := by
    intro w l; cases w <;> cases l <;> decide
  intro i hi
  rcases List.mem_append.1 hi with hi | hi
  · obtain ⟨bit, -, hi⟩ := List.mem_flatMap.1 hi
    exact h _ _ i hi
  · exact h _ _ i hi

/-- A byte ends with SCL low. -/
theorem byte_last_scl (who : Side) (b : Byte) (k : Ack) :
    ((byteInstants who b k).map Instant.lines).getLast?.map (·.scl) = some false := by
  rw [byteInstants, List.map_append, pulse_lines, List.getLast?_append]
  rfl

/-- What a trace leaves on the lines is what its last symbol leaves. -/
theorem linesAfter_snoc (trace : List Sym) (x : Sym) :
    linesAfter (trace ++ [x]) = x.wire.getLast?.getD (linesAfter trace) := by
  simp only [linesAfter, wireOf, List.flatMap_append, List.flatMap_cons, List.flatMap_nil, List.append_nil,
    List.getLast?_append]
  cases x.wire.getLast? <;> simp

/-- Every bus symbol but the stop condition leaves SCL low (rule R143). -/
theorem linesAfter_scl (trace : List Sym) (x : Sym) : (linesAfter (trace ++ [x])).scl = decide (x = .p) := by
  rw [linesAfter_snoc]
  have byte : ∀ (who : Side) (b : Byte) (k : Ack) (l : Lines),
      (((byteInstants who b k).map Instant.lines).getLast?.getD l).scl = false := by
    intro who b k l
    have h := byte_last_scl who b k
    cases hl : ((byteInstants who b k).map Instant.lines).getLast? with
    | none => rw [hl] at h; cases h
    | some v => rw [hl] at h; exact Option.some.inj h
  cases x with
  | s => rfl
  | sr => rfl
  | p => rfl
  | tx b k => exact byte .controller b k _
  | rx b k => exact byte .slave b k _

end Sys2Proof.Machine
end

