-- ==== Sys2Proof/Tests/Slice0.lean ====
section
/-!
SUPPORT. Tests, their expected values taken from the worked vectors of spec/95_test_vectors.md (V..., P..., S...) and the
rules they name. Configuration of that file: the values rule R7 fixes, TIMEOUT_BUDGET = 4, MAX_LEN = 65535.
-/
namespace Sys2Proof.Machine.Tests

/-! ### Well-formedness and decoding -/

theorem test_wf_refuses_payload_of_65536 : (Instr.write 0x60 0 (List.replicate 65536 0)).wf = false := by
  simp only [Instr.wf, List.length_replicate]; decide

theorem test_wf_accepts_payload_of_65535 : (Instr.write 0x60 0 (List.replicate 65535 0)).wf = true := by
  simp only [Instr.wf, List.length_replicate]; decide

/-- V53 -/
theorem test_decode_start : decode [0x01] = .command .start [] := by decide
/-- V54 -/
theorem test_decode_restart : decode [0x02] = .command .restart [] := by decide
/-- V55; the byte after it stays -/
theorem test_decode_stop : decode [0x03, 0x02] = .command .stop [0x02] := by decide
/-- V56, and the greatest address -/
theorem test_decode_addrW :
    decode [0x04, 0x60] = .command (.addrW 0x60) [] ∧ decode [0x04, 0x7F] = .command (.addrW 0x7F) [] := by decide
/-- V57 -/
theorem test_decode_addrR : decode [0x05, 0x60] = .command (.addrR 0x60) [] := by decide
/-- V58 -/
theorem test_decode_dataW : decode [0x06, 0x12] = .command (.dataW 0x12) [] := by decide
/-- V59, V59a -/
theorem test_decode_dataR :
    decode [0x07, 0x01] = .command (.dataR true) [] ∧ decode [0x07, 0x00] = .command (.dataR false) [] := by decide
/-- V73 -/
theorem test_decode_init :
    decode [0x10, 0x01, 0x80, 0x1A, 0x06, 0x00, 0x00, 0x12, 0x7A, 0x00] = .command (.init .irq 400000 8000000) [] := by
  decide
/-- V52 -/
theorem test_decode_read : decode [0x11, 0x60, 0x00, 0x03, 0x00] = .command (.read 0x60 0x00 3) [] := by decide
/-- V52b -/
theorem test_decode_write :
    decode [0x12, 0x60, 0x00, 0x02, 0x00, 0x12, 0x34] = .command (.write 0x60 0x00 [0x12, 0x34]) [] := by decide
/-- P7, the other direction -/
theorem test_encode_write : encode (.write 0x50 0x10 [0xAA, 0xBB]) = [0x12, 0x50, 0x10, 0x02, 0x00, 0xAA, 0xBB] := by
  decide
/-- V47, V48 -/
theorem test_decode_reserved :
    decode [0x00] = .reserved 0x00 [] ∧ decode [0x08, 0x01] = .reserved 0x08 [0x01] ∧ decode [0x0F] = .reserved 0x0F [] ∧
      decode [0x13] = .reserved 0x13 [] ∧ decode [0xFF] = .reserved 0xFF [] := by decide
/-- V49, V49a, V49b -/
theorem test_decode_malformed :
    decode [0x04, 0xE0, 0x01] = .malformed .addrW [0x01] ∧ decode [0x07, 0x02] = .malformed .dataR [] ∧
      decode [0x10, 0x02, 0xA0, 0x86, 0x01, 0x00, 0x00, 0x24, 0xF4, 0x00] = .malformed .init [] := by decide
/-- R88: a packet that has not arrived whole -/
theorem test_decode_incomplete : decode [] = .incomplete ∧ decode [0x12, 0x60, 0x00, 0x02, 0x00, 0x12] = .incomplete := by
  decide
/-- the numbering of spec/opcode_table.json (log 17): V56 and V52 as one number, and a WRITE of no bytes -/
theorem test_decodeTableWord :
    decodeTableWord 16 0x0460 = some (.addrW 0x60) ∧ decodeTableWord 40 0x1160000300 = some (.read 0x60 0 3) ∧
      decodeTableWord 40 0x1260070000 = some (.write 0x60 0x07 []) := by decide

/-! ### Small states -/

/-- The configuration of spec/95_test_vectors.md. -/
def cfg4 : Params := .fixed 4 true 65535

/-- The same without NACK_CLASSIFY. -/
def cfgUnclassified : Params := .fixed 4 false 65535

/-- The rest state after INIT in realization `m`, with a plan. -/
def atRest (c : Params) (m : Mode) (plan : List Gap) : State :=
  { State.resetFor c with
    inited := true
    mode := m
    gie := decide (m = .irq)
    cr := { int := false, ea := false, sta := false, sto := false, en := true, ie := modeIe m }
    env := { cfg := c, plan := plan, draws := 0, hostGie := true, mayReset := true, resetLine := false } }

/-- The bus held, the last event `ph`. -/
def holding (c : Params) (m : Mode) (ph : BusStatus) (plan : List Gap) : State :=
  { atRest c m plan with
    own := true
    phase := ph
    sr := { status := c.codes.code ph, ps := 0 }
    latch := c.codes.code ph
    cr := { int := true, ea := false, sta := false, sto := false, en := true, ie := modeIe m } }

/-- An event in flight. -/
def inFlight (e : BusEvent) (own : Bool) (ph : BusStatus) (plan : List Gap) : State :=
  { atRest cfg4 .poll plan with own := own, phase := ph, pending := some e }

/-- The next state, if there is one. -/
def nextOf : Result State → Option State
  | .next t => some t
  | .fault _ => none
  | .refused _ => none

/-- The refusal, if it is one. -/
def refusalOf (o : Result State) : Option Refusal :=
  match o with
  | .next _ => none
  | .fault _ => none
  | .refused r => some r

/-- How a wait ended, and CNT then, if it answered. -/
def endOf : PartResult (ResultKind × State) → Option (ResultKind × Half)
  | .next (r, t) => some (r, t.cnt)
  | .abandoned _ => none
  | .refused _ => none

/-! ### Frames, patterns, mask, wires, divisor -/

/-- V1 to V8 -/
theorem test_frames :
    frame 0x60 .write = 0xC0 ∧ frame 0x60 .read = 0xC1 ∧ frame 0x7F .write = 0xFE ∧ frame 0x7F .read = 0xFF ∧
      frame 0x00 .write = 0x00 ∧ frame 0x00 .read = 0x01 ∧ frame 0x50 .write = 0xA0 ∧ frame 0x68 .read = 0xD1 := by
  decide

/-- V10 to V14 -/
theorem test_patterns :
    patStart .default .poll = 0xA4 ∧ patStop .default .irq = 0x95 ∧ patPlain .default .poll = 0x84 ∧
      patAck .default .irq = 0xC5 ∧ patEnable .default .poll = 0x04 := by decide

/-- V15 to V17 -/
theorem test_mask :
    (Status.byte .default { status := 0x18, ps := 3 } = 0x1B) ∧ (0x1B#8 &&& cfg4.statusMask = 0x18) ∧
      (0xF9#8 &&& cfg4.statusMask = 0xF8) := by decide

/-- V70 to V79 -/
theorem test_divisor :
    divisor 16000000 100000 = 72 ∧ divisor 16000000 400000 = 12 ∧ divisor 8000000 400000 = 2 ∧
      divisor 1600000 100000 = 0 ∧ divisor 1000000 100000 = 0 ∧ divisor 52700000 100000 = 255 ∧
      divisor 52800000 100000 = 255 ∧ divisor 4294967295 1 = 255 ∧ divisor 0 100000 = 0 := by decide

/-- R93: the start conditions are SDA falling while SCL is high, the stop condition is SDA rising while SCL is high -/
theorem test_conditions_on_the_wires :
    let w (l : List (Bool × Bool)) : List Lines := l.map fun (scl, sda) => { scl := scl, sda := sda }
    wireOf [.s] = w [(true, true), (true, false), (false, false)] ∧
      wireOf [.sr] = w [(false, true), (true, true), (true, false), (false, false)] ∧
      wireOf [.p] = w [(false, false), (true, false), (true, true)] := by decide

/-- R93: an address frame that no device answers, and one that one of two devices answers -/
theorem test_unanswered_address :
    let ninth : Option Instant := (clockHigh (Sym.instants (.tx 0xFE .nack))).getLast?
    ninth.map (fun i => (levels [i.controller, .released, .released]).sda) = some true ∧
      ninth.map (fun i => (levels [i.controller, .released, { scl := false, sda := true }]).sda) = some false := by decide

/-! ### The timed wait -/

/-- V20, V21: three samples of the budget 3 -/
theorem test_wait_last_sample_counts :
    let c : Params := { cfg4 with timeoutBudget := 3 }
    let s : State := { atRest c .poll (quiet 2 ++ [[.complete .ack 0]]) with pending := some .genStart }
    let u : State := { atRest c .poll (quiet 3) with pending := some .genStart }
    endOf (waitUntil .start none s) = some (.ok, 2) ∧
      endOf (waitUntil .start none u) = some (.timeout, 3) := by decide

/-- V23: a budget of 0 takes no sample -/
theorem test_wait_budget_zero :
    let s : State := atRest { cfg4 with timeoutBudget := 0 } .poll []
    endOf (waitUntil .start none s) = some (.timeout, 0) := by decide

/-- V25, V26: the sibling, with and without NACK_CLASSIFY -/
theorem test_wait_sibling :
    let s (c : Params) : State :=
      { atRest c .poll ([] :: [.complete .nack 0] :: quiet 2) with
        own := true, phase := .start, pending := some (.txAddr 0xC0) }
    let w (c : Params) := waitUntil .addrWAck (some (.addrWNack, .addressNack)) (s c)
    endOf (w cfg4) = some (.addressNack, 1) ∧
      endOf (w cfgUnclassified) = some (.timeout, 4) := by decide

/-- The capture lag of 95_test_vectors.md 2.3: in the interrupt realization the latch is read, not SR -/
theorem test_wait_capture_lag :
    let s : State := { atRest cfg4 .irq [[], [.complete .ack 0], [.capture]] with pending := some .genStart }
    let p : State := { atRest cfg4 .poll [[], [.complete .ack 0], []] with pending := some .genStart }
    endOf (waitUntil .start none s) = some (.ok, 2) ∧
      endOf (waitUntil .start none p) = some (.ok, 1) := by decide

/-! ### The bus engine -/

/-- V31, V32, V35, V37, V39, V41: what a control byte launches -/
theorem test_launches :
    let l (v : Byte) (s : State) := (nextOf (regWriteCR v s)).map (·.pending)
    l 0xA4 (atRest cfg4 .poll []) = some (some .genStart) ∧
      l 0xA4 (holding cfg4 .poll .dataWAck []) = some (some .genRestart) ∧
      l 0x84 { holding cfg4 .poll .start [] with dr := 0xC0 } = some (some (.txAddr 0xC0)) ∧
      l 0x84 { holding cfg4 .poll .addrWAck [] with dr := 0x12 } = some (some (.txData 0x12)) ∧
      l 0xC4 (holding cfg4 .poll .addrRAck []) = some (some (.rxData .ack)) ∧
      l 0x84 (holding cfg4 .poll .addrRAck []) = some (some (.rxData .nack)) ∧
      l 0x04 (atRest cfg4 .poll []) = some none := by decide

/-- V42, V43 and the byte 0x80 -/
theorem test_refused_launches :
    refusalOf (regWriteCR 0xB4 (atRest cfg4 .poll [])) = some .startWithStop ∧
      refusalOf (regWriteCR 0x84 (atRest cfg4 .poll [])) = some .unspecifiedContinue ∧
      refusalOf (regWriteCR 0x80 (atRest cfg4 .poll [])) = some .peripheralDisable := by decide

/-- The completion table of 95_test_vectors.md 2.4: TxAddr(0xC1) not acknowledged, RxData(NACK) of 0x34 -/
theorem test_completions :
    let f (e : BusEvent) (k : Ack) (d : Byte) :=
      let t := engineStep k d (inFlight e true .restart [])
      (t.trace, t.sr.status, t.phase, t.dr)
    f (.txAddr 0xC1) .nack 0 = ([.tx 0xC1 .nack], 0x48, .addrRNack, 0) ∧
      f (.rxData .nack) .ack 0x34 = ([.rx 0x34 .nack], 0x58, .dataRLast, 0x34) := by decide

/-! ### One step of each command -/

/-- V53 -/
theorem test_start :
    (nextOf (exec .start (atRest cfg4 .poll (answered .poll 1 1 .ack 0)))).map
      (fun t => (t.err, t.cnt, t.own, t.trace, t.response)) = some (.ok, 1, true, [.s], [0x00]) := by decide

/-- V59e: START with the bus held -/
theorem test_start_held :
    (nextOf (exec .start (holding cfg4 .poll .addrWAck (answered .poll 1 1 .ack 0 ++ quiet 2)))).map
      (fun t => (t.err, t.cnt, t.trace, t.response)) = some (.timeout, 4, [.sr], [0x01]) := by decide

/-- V54 -/
theorem test_restart :
    (nextOf (exec .restart (holding cfg4 .poll .dataWAck (answered .poll 1 1 .ack 0)))).map
      (fun t => (t.err, t.phase, t.trace, t.response)) = some (.ok, .restart, [.sr], [0x00]) := by decide

/-- V59f: RESTART with the bus free leaves it held -/
theorem test_restart_free :
    (nextOf (exec .restart (atRest cfg4 .poll (answered .poll 1 1 .ack 0 ++ quiet 2)))).map
      (fun t => (t.err, t.own, t.trace, t.response)) = some (.timeout, true, [.s], [0x01]) := by decide

/-- V55 -/
theorem test_stop :
    (nextOf (exec .stop (holding cfg4 .poll .dataWAck [[]]))).map
      (fun t => (t.err, t.own, t.phase, t.trace, t.response)) = some (.ok, false, .idle, [.p], [0x00]) := by decide

/-- V34: no symbol when the bus is free -/
theorem test_stop_free :
    (nextOf (exec .stop (atRest cfg4 .irq [[]]))).map (fun t => (t.err, t.trace, t.crByte)) =
      some (.ok, [], 0x15) := by decide

/-- V56 -/
theorem test_addrW :
    (nextOf (exec (.addrW 0x60) (holding cfg4 .poll .start (answered .poll 2 1 .ack 0)))).map
      (fun t => (t.err, t.dr, t.phase, t.trace)) = some (.ok, 0xC0, .addrWAck, [.tx 0xC0 .ack]) := by decide

/-- V59b -/
theorem test_addrW_nack :
    (nextOf (exec (.addrW 0x7F) (holding cfg4 .poll .start (answered .poll 2 1 .nack 0)))).map
      (fun t => (t.response, t.cnt, t.trace)) = some ([0x02], 1, [.tx 0xFE .nack]) := by decide

/-- V57, and the second row of P5 in the interrupt realization -/
theorem test_addrR :
    (nextOf (exec (.addrR 0x48) (holding cfg4 .irq .start (quiet 3 ++ [[.complete .ack 0], [.capture]])))).map
      (fun t => (t.err, t.cnt, t.latch, t.trace)) = some (.ok, 2, 0x40, [.tx 0x91 .ack]) := by decide

/-- V59c without NACK_CLASSIFY -/
theorem test_addrR_unclassified :
    (nextOf (exec (.addrR 0x7F) (holding cfgUnclassified .poll .restart (answered .poll 2 1 .nack 0 ++ quiet 2)))).map
      (fun t => (t.response, t.cnt, t.trace)) = some ([0x01], 4, [.tx 0xFF .nack]) := by decide

/-- V58 -/
theorem test_dataW :
    (nextOf (exec (.dataW 0x12) (holding cfg4 .poll .addrWAck (answered .poll 2 1 .ack 0)))).map
      (fun t => (t.err, t.dr, t.phase, t.trace)) = some (.ok, 0x12, .dataWAck, [.tx 0x12 .ack]) := by decide

/-- V59d -/
theorem test_dataW_nack :
    (nextOf (exec (.dataW 0xBB) (holding cfg4 .poll .dataWAck (answered .poll 2 1 .nack 0)))).map
      (fun t => (t.response, t.trace)) = some ([0x03], [.tx 0xBB .nack]) := by decide

/-- V59 -/
theorem test_dataR_more :
    (nextOf (exec (.dataR true) (holding cfg4 .poll .addrRAck (answered .poll 1 1 .nack 0x12 ++ [[]])))).map
      (fun t => (t.response, t.phase, t.trace)) = some ([0x00, 0x12], .dataRMore, [.rx 0x12 .ack]) := by decide

/-- V59a -/
theorem test_dataR_last :
    (nextOf (exec (.dataR false) (holding cfg4 .poll .dataRMore (answered .poll 1 1 .ack 0x34 ++ [[]])))).map
      (fun t => (t.response, t.phase, t.trace)) = some ([0x00, 0x34], .dataRLast, [.rx 0x34 .nack]) := by decide

/-- The controller after reset under the configuration of the vectors, with a plan. -/
def fresh (plan : List Gap) : State :=
  { State.resetFor cfg4 with env := { cfg := cfg4, plan := plan, draws := 0, hostGie := true, mayReset := true, resetLine := false } }

/-- V71 -/
theorem test_init_irq :
    (nextOf (exec (.init .irq 100000 16000000) (fresh (quiet 6)))).map
      (fun t => (t.brr, t.crByte, t.gie, t.inited, t.mode)) = some (72, 0x05, true, true, .irq) := by
  decide

/-- V77 -/
theorem test_init_poll_clamped :
    (nextOf (exec (.init .poll 100000 52800000) (fresh (quiet 5)))).map
      (fun t => (t.brr, t.crByte, t.gie, t.srByte, t.trace)) = some (255, 0x04, false, 0xF8, []) := by decide

/-- P2: the READ of the source's round trip -/
theorem test_read :
    (nextOf (exec (.read 0x60 0x00 2) (atRest cfg4 .poll (readPlan .poll 1 [0x12, 0x34])))).map
      (fun t => (t.response, t.rxlen, t.seq.idx, t.cnt, t.trace)) =
      some ([0x00, 0x02, 0x00, 0x12, 0x34], 2, 2, 1,
        [.s, .tx 0xC0 .ack, .tx 0x00 .ack, .sr, .tx 0xC1 .ack, .rx 0x12 .ack, .rx 0x34 .nack, .p]) := by decide

/-- P6: a start that never comes -/
theorem test_read_timeout :
    (nextOf (exec (.read 0x60 0x00 2) (atRest cfg4 .poll (quiet 6)))).map
      (fun t => (t.response, t.cnt, t.rxlen, t.pending, t.trace)) =
      some ([0x01], 4, 0, none, []) := by decide

/-- R250: reset in the wait of ADDR_W; the bus is held and no stop is issued, TRACE is empty as R42 says -/
theorem test_read_reset :
    (nextOf (exec (.read 0x60 0x00 2) (atRest cfg4 .poll (answered .poll 1 1 .ack 0 ++ quiet 3 ++ [[.complete .ack 0, .reset]])))).map
      (fun t => (t.response, t.inited, t.crByte, t.own, t.trace)) = some ([], false, 0x00, false, []) := by decide

/-- P1: the WRITE of the source's round trip -/
theorem test_write :
    (nextOf (exec (.write 0x60 0x00 [0x12, 0x34]) (atRest cfg4 .poll (writePlan .poll 1 2)))).map
      (fun t => (t.response, t.dr, t.seq.idx, t.srByte, t.trace)) =
      some ([0x00], 0x34, 2, 0xF8, [.s, .tx 0xC0 .ack, .tx 0x00 .ack, .tx 0x12 .ack, .tx 0x34 .ack, .p]) := by decide

/-- P7: the second data byte is not acknowledged; one stop, IDX at the byte that failed -/
theorem test_write_nack :
    (nextOf (exec (.write 0x50 0x10 [0xAA, 0xBB])
      (atRest cfg4 .poll (answered .poll 1 1 .ack 0 ++ answered .poll 2 1 .ack 0 ++ answered .poll 2 1 .ack 0 ++
        answered .poll 2 1 .ack 0 ++ answered .poll 2 1 .nack 0 ++ [[]])))).map
      (fun t => (t.response, t.seq.idx, t.dr, t.trace)) =
      some ([0x03], 1, 0xBB,
        [.s, .tx 0xA0 .ack, .tx 0x10 .ack, .tx 0xAA .ack, .tx 0xBB .nack, .p]) := by decide

/-! ### Witnesses: concrete states and operands that meet all hypotheses of a statement together -/

theorem cfg4_wf : cfg4.wf = true := by decide
theorem cfgUnclassified_wf : cfgUnclassified.wf = true := by decide

theorem ready_atRest (m : Mode) (plan : List Gap) : Ready (atRest cfg4 m plan) := ⟨rfl, rfl, cfg4_wf⟩

theorem ready_holding (m : Mode) (ph : BusStatus) (plan : List Gap) : Ready (holding cfg4 m ph plan) :=
  ⟨rfl, rfl, cfg4_wf⟩

theorem canCapture_atRest (c : Params) (m : Mode) (plan : List Gap) : CanCapture (atRest c m plan) := by
  intro h; exact decide_eq_true h

theorem canCapture_holding (m : Mode) (ph : BusStatus) (plan : List Gap) : CanCapture (holding cfg4 m ph plan) := by
  intro h; exact decide_eq_true h

theorem rest_atRest (m : Mode) (plan : List Gap) : Rest (atRest cfg4 m plan) := ⟨rfl, rfl, rfl, rfl⟩

/-- The rest state after INIT has the invariants of rule R43. -/
theorem inv_atRest (m : Mode) (plan : List Gap) : Inv (atRest cfg4 m plan) := by
  refine ⟨⟨cfg4_wf, (show (0xF8#8 &&& 0xF8#8) = 0xF8#8 by decide), fun h => absurd rfl h, ?_, fun _ => rfl, ?_, fun _ => .inl rfl, fun _ => rfl, ?_,
    .inl rfl⟩, (show (0 : Half) ≤ 4 by decide), rfl, fun _ => ⟨rfl, rfl⟩, ?_, Nat.zero_le _⟩
  all_goals intro h; cases h

/-- So has a state in which the bus is held. -/
theorem inv_holding (plan : List Gap) : Inv (holding cfg4 .poll .addrWAck plan) := by
  refine ⟨⟨cfg4_wf, (show (0x18#8 &&& 0xF8#8) = 0x18#8 by decide), fun _ => ?_, fun _ => rfl, ?_, fun _ => rfl, ?_, ?_, fun _ => rfl, .inr rfl⟩,
    (show (0 : Half) ≤ 4 by decide), rfl, fun _ => ⟨rfl, rfl⟩, ?_, Nat.zero_le _⟩
  · rename_i h; exact absurd rfl h
  all_goals intro h; cases h

/-- A machine with a START packet on its command port. -/
def withPort (s : State) (port : List Byte) : State := { s with port := port }

/-- StepKeepsInvariant, StepKeepsConfiguration, StepRunsDecodedCommand -/
theorem witness_step :
    let s := withPort (atRest cfg4 .poll (answered .poll 1 1 .ack 0)) [0x01]
    Inv s ∧ s.env.resetLine = false ∧ decode s.port = .command .start [] ∧ ∃ t, step s = .next t ∧ t.own = true := by
  refine ⟨?_, rfl, by decide, _, rfl, by decide⟩
  have h := inv_atRest .poll (answered .poll 1 1 .ack 0)
  exact ⟨⟨h.bus.cfg_wf, h.bus.latch_masked, h.bus.in_flight_flag_clear, h.bus.capture_pending_flag, h.bus.unowned_idle,
    h.bus.owned_stop_clear, h.bus.unowned_event, h.bus.clear_idle, h.bus.set_posted, h.bus.latch_lags⟩,
    h.cnt_bounded, h.not_busy, h.enabled, h.untouched, h.txbuf_bounded⟩

/-- ResetLinePowersOn -/
theorem witness_resetLine :
    let s : State := holding cfg4 .poll .dataWAck []
    ({ s with env := { s.env with resetLine := true } } : State).env.resetLine = true := rfl

/-- DecodeInvertsEncode: the longest payload -/
theorem witness_wf : (Instr.write 0x60 0 (List.replicate 65535 0)).wf = true := test_wf_accepts_payload_of_65535

/-- DecodedPacketIsTheEncoding -/
theorem witness_decoded : decode [0x11, 0x60, 0x00, 0x03, 0x00, 0x01] = .command (.read 0x60 0x00 3) [0x01] := by decide

/-- ReservedOpcodeRejected, each range at its ends -/
theorem witness_reserved :
    let p (b : Byte) : Prop := b = 0x00 ∨ (0x08 ≤ b ∧ b ≤ 0x0F) ∨ 0x13 ≤ b
    let s (b : Byte) : State := withPort (atRest cfg4 .poll []) [b]
    p 0x00 ∧ p 0x08 ∧ p 0x0F ∧ p 0x13 ∧ p 0xFF ∧ (s 0x08).env.resetLine = false ∧ (s 0x08).port = 0x08 :: [] := by
  decide

/-- MalformedOperandRejected, each clause at the least value it covers -/
theorem witness_malformed :
    let s (l : List Byte) : State := withPort (atRest cfg4 .poll []) l
    (s []).env.resetLine = false ∧ (0x80 : Byte) ≤ 0x80 ∧ (s [0x04, 0x80]).port = 0x04 :: 0x80 :: [] ∧
      (0x02 : Byte) ≤ 0x02 ∧ (s [0x07, 0x02]).port = 0x07 :: 0x02 :: [] ∧
      (s [0x10, 0x02, 0, 0, 0, 0, 0, 0, 0, 0]).port = 0x10 :: 0x02 :: 0 :: 0 :: 0 :: 0 :: 0 :: 0 :: 0 :: 0 :: [] ∧
      (s [0x11, 0x80, 0, 0, 0]).port = 0x11 :: 0x80 :: 0 :: 0 :: 0 :: [] ∧
      (s [0x12, 0xFF, 0, 1, 0, 7]).port = 0x12 :: 0xFF :: 0 :: 1 :: 0 :: ([7] ++ []) ∧
      ([7] : List Byte).length = (1 : Byte).toNat + 256 * (0 : Byte).toNat := by decide

/-- IncompletePacketWaits, both clauses -/
theorem witness_incomplete :
    let s (g : Gap) : State := withPort (atRest cfg4 .poll [g]) [0x04]
    (s []).env.resetLine = false ∧ decode (s []).port = .incomplete ∧ (s [.reset]).env.resetNext = true ∧
      (s []).env.resetNext = false := by decide

/-- DivisorSaturates, each clause where they meet and at the ends -/
theorem witness_divisor :
    (1 : Hertz) ≠ 0 ∧ (15 : Hertz).toNat / (1 : Hertz).toNat < 16 ∧ 16 ≤ (16 : Hertz).toNat / (1 : Hertz).toNat ∧
      (0 : Hertz).toNat / (1 : Hertz).toNat < 16 ∧ 16 ≤ (4294967295 : Hertz).toNat / (1 : Hertz).toNat := by decide

/-- StartPatternLaunches and StopPatternReleasesBus, with the bus free and held, and with an event in flight -/
theorem witness_patterns :
    (atRest cfg4 .poll []).cfg.wf = true ∧ (atRest cfg4 .poll []).pending = none ∧ (atRest cfg4 .poll []).own = false ∧
      (holding cfg4 .irq .dataWAck []).cfg.wf = true ∧ (holding cfg4 .irq .dataWAck []).own = true ∧
      (inFlight .genStart false .idle []).cfg.wf = true ∧ (inFlight .genStart false .idle []).pending ≠ none := by decide

/-- ContinuePatternLaunchesByPhase, each of the three clauses at both of its phases -/
theorem witness_continue :
    let p (ph : BusStatus) (ea : Bool) (e : BusEvent) : Prop :=
      let s : State := holding cfg4 .poll ph []
      s.cfg.wf = true ∧
        ((s.phase = .start ∨ s.phase = .restart) ∧ e = .txAddr s.dr ∨
         (s.phase = .addrWAck ∨ s.phase = .dataWAck) ∧ e = .txData s.dr ∨
         (s.phase = .addrRAck ∨ s.phase = .dataRMore) ∧ e = .rxData (if ea then .ack else .nack))
    p .start false (.txAddr 0) ∧ p .restart true (.txAddr 0) ∧ p .addrWAck false (.txData 0) ∧
      p .dataWAck false (.txData 0) ∧ p .addrRAck true (.rxData .ack) ∧ p .dataRMore false (.rxData .nack) := by decide

/-- UnspecifiedLaunchRefused: V42, V43 at its five phases, and a byte without EN -/
theorem witness_unspecifiedLaunch :
    let c (v : Byte) : Control := Control.ofByte cfg4.layout v
    (c 0x80).en = false ∧
      ((c 0xB4).en = true ∧ (c 0xB4).int = true ∧ (c 0xB4).sta = true ∧ (c 0xB4).sto = true) ∧
      ((c 0x84).en = true ∧ (c 0x84).int = true ∧ (c 0x84).sta = false ∧ (c 0x84).sto = false) ∧
      (atRest cfg4 .poll []).phase = .idle ∧ (holding cfg4 .poll .addrWNack []).phase = .addrWNack ∧
      (holding cfg4 .poll .dataWNack []).phase = .dataWNack ∧ (holding cfg4 .poll .addrRNack []).phase = .addrRNack ∧
      (holding cfg4 .poll .dataRLast []).phase = .dataRLast := by decide

/-- StartCompletionHoldsBus, CompletionsEmitAndPost: each event, with each direction bit and answer -/
theorem witness_completions :
    let s (e : BusEvent) : State := inFlight e true .start []
    (s .genStart).cr.en = true ∧ (s .genStart).pending = some .genStart ∧ (s .genRestart).pending = some .genRestart ∧
      (s (.txAddr 0xC0)).pending = some (.txAddr 0xC0) ∧ (0xC0 : Byte).getLsbD 0 = false ∧
      (s (.txAddr 0xC1)).pending = some (.txAddr 0xC1) ∧ (0xC1 : Byte).getLsbD 0 = true ∧
      (s (.txData 0x12)).pending = some (.txData 0x12) ∧ (s (.rxData .ack)).pending = some (.rxData .ack) ∧
      (s (.rxData .nack)).pending = some (.rxData .nack) := by decide

/-- A posted status not yet captured, in the interrupt realization. -/
def posted : State := { holding cfg4 .irq .addrWAck [] with capPend := true, latch := 0xF8 }

/-- CaptureCopiesStatusOnce, both clauses, and the bus invariants of the first -/
theorem witness_capture :
    (posted.mode = .irq ∧ posted.capPend = true ∧ posted.cr.ie = true ∧ posted.gie = true) ∧ BusInv posted ∧
      (let s : State := { posted with gie := false }
       ¬ (s.mode = .irq ∧ s.capPend = true ∧ s.cr.ie = true ∧ s.gie = true)) := by
  refine ⟨by decide, ⟨cfg4_wf, by decide, fun h => absurd rfl h, fun _ => rfl, ?_, fun _ => rfl, ?_, ?_, fun _ => rfl,
    .inl rfl⟩, by decide⟩
  all_goals intro h; cases h

/-- ControlWriteInvalidatesStatus -/
theorem witness_controlWrite :
    let s : State := holding cfg4 .irq .dataWAck []
    s.cfg.wf = true ∧ (0x95 : Byte).getLsbD s.cfg.layout.crInt.val = true ∧ ∃ t, regWriteCR 0x95 s = .next t :=
  ⟨by decide, by decide, _, rfl⟩

/-- OnePostPerControlWrite, both clauses; DataWriteInFlightRefused -/
theorem witness_pending :
    (holding cfg4 .poll .dataWAck []).pending = none ∧
      (inFlight (.txData 0x12) true .dataWAck []).pending = some (.txData 0x12) := by decide

/-- WaitEndsWithinBudget, without a sibling and with each error a sibling stands for -/
theorem witness_wait (nack : Sibling)
    (h : nack = none ∨ nack = some (.addrWNack, .addressNack) ∨ nack = some (.dataWNack, .dataNack)) (st : BusStatus)
    (e : ResultKind) (he : nack = some (st, e)) : e ≠ .ok ∧ e ≠ .timeout := by
  rcases h with rfl | rfl | rfl <;> cases he <;> decide

/-- QuietWaitTimesOut: without a sibling; with one whose status does not show; with one that shows, not classified -/
theorem witness_quietWait :
    (let s : State := atRest cfg4 .irq (quiet 4)
     s.current ≠ s.code .start ∧ s.env.plan = quiet s.cfg.timeoutBudget.toNat ++ []) ∧
      (let s : State := atRest cfg4 .poll (quiet 4)
       s.current ≠ s.code .addrWAck ∧ s.current ≠ s.code .addrWNack ∧
         s.env.plan = quiet s.cfg.timeoutBudget.toNat ++ []) ∧
      (let s : State := holding cfgUnclassified .poll .dataWNack (quiet 4)
       s.current ≠ s.code .dataWAck ∧ s.cfg.nackClassify = false ∧ s.current = s.code .dataWNack ∧
         s.env.plan = quiet s.cfg.timeoutBudget.toNat ++ []) := by decide

/-- MaskedInterruptTimesOut: a START whose event completes but cannot be captured -/
theorem witness_masked :
    let a : State := atRest cfg4 .irq (quiet 2 ++ [[.complete .ack 0, .capture]] ++ quiet 2)
    let s : State := { a with gie := false, env := { a.env with hostGie := false } }
    Ready s ∧ isWaiting .start ∧ s.mode = .irq ∧ s.gie = false ∧ s.env.hostGie = false ∧
      ∃ t, exec .start s = .next t ∧ t.phase = .start := by
  refine ⟨⟨rfl, rfl, cfg4_wf⟩, ?_, rfl, rfl, rfl, _, rfl, by decide⟩
  unfold isWaiting isPrimitive
  decide

/-- StartSucceeds and RestartWhileFreeTimesOut, at `k = 3`, the last sample of the budget 4, in both realizations -/
theorem witness_busFree (m : Mode) :
    let s : State := atRest cfg4 m (answered m 1 3 .ack 0 ++ (quiet (4 - 3 - 1) ++ []))
    Ready s ∧ CanCapture s ∧ s.pending = none ∧ s.own = false ∧ 3 < s.cfg.timeoutBudget.toNat ∧
      s.env.plan = answered s.mode 1 3 .ack 0 ++ (quiet (s.cfg.timeoutBudget.toNat - 3 - 1) ++ []) :=
  ⟨ready_atRest _ _, canCapture_atRest _ _ _, rfl, rfl, (show 3 < 4 by decide), rfl⟩

/-- RestartSucceeds and StartWhileHeldTimesOut -/
theorem witness_busHeld (m : Mode) :
    let s : State := holding cfg4 m .dataWAck (answered m 1 0 .ack 0 ++ (quiet (4 - 0 - 1) ++ []))
    Ready s ∧ CanCapture s ∧ s.pending = none ∧ s.own = true ∧ 0 < s.cfg.timeoutBudget.toNat ∧
      s.env.plan = answered s.mode 1 0 .ack 0 ++ (quiet (s.cfg.timeoutBudget.toNat - 0 - 1) ++ []) :=
  ⟨ready_holding _ _ _, canCapture_holding m _ _, rfl, rfl, (show 0 < 4 by decide), rfl⟩

/-- UnansweredStartTimesOut -/
theorem witness_unanswered :
    let s : State := atRest cfg4 .poll (quiet 5)
    Ready s ∧ s.own = false ∧ s.env.plan = quiet (1 + s.cfg.timeoutBudget.toNat) ++ [] :=
  ⟨ready_atRest _ _, rfl, rfl⟩

/-- StopReleasesBus, StopNeverFails, the second clause of SecondInitRefused, with the bus held, free, and an event in flight -/
theorem witness_stop :
    Ready (holding cfg4 .poll .addrWNack [[]]) ∧ (holding cfg4 .poll .addrWNack [[]]).env.plan = [] :: [] ∧
      Ready (atRest cfg4 .irq [[]]) ∧ Ready (inFlight .genStart false .idle [[]]) :=
  ⟨ready_holding _ _ _, rfl, ready_atRest _ _, ⟨rfl, rfl, cfg4_wf⟩⟩

/-- AddrWSucceeds, AddrRSucceeds and the first clause of AddressNackByConfiguration, after a start and after a repeated start -/
theorem witness_address (m : Mode) (k : Ack) (ph : BusStatus) (h : ph = .start ∨ ph = .restart) :
    let s : State := holding cfg4 m ph (answered m 2 1 k 0)
    Ready s ∧ CanCapture s ∧ s.pending = none ∧ (s.phase = .start ∨ s.phase = .restart) ∧
      1 < s.cfg.timeoutBudget.toNat ∧ s.cfg.nackClassify = true ∧ s.env.plan = answered s.mode 2 1 k 0 ++ [] :=
  ⟨ready_holding _ _ _, canCapture_holding m _ _, rfl, h, (show 1 < 4 by decide), rfl, (List.append_nil _).symm⟩

/-- The second clause of AddressNackByConfiguration -/
theorem witness_addressNackUnclassified :
    let s : State := holding cfgUnclassified .poll .restart (answered .poll 2 1 .nack 0 ++ (quiet 2 ++ []))
    Ready s ∧ CanCapture s ∧ s.pending = none ∧ s.phase = .restart ∧ 1 < s.cfg.timeoutBudget.toNat ∧
      s.cfg.nackClassify = false ∧
      s.env.plan = answered s.mode 2 1 .nack 0 ++ (quiet (s.cfg.timeoutBudget.toNat - 1 - 1) ++ []) :=
  ⟨⟨rfl, rfl, cfgUnclassified_wf⟩, (fun h => absurd h (by decide)), rfl, rfl, by decide, rfl, rfl⟩

/-- DataWSucceeds and the first clause of DataNackByConfiguration -/
theorem witness_dataWrite (m : Mode) (k : Ack) (ph : BusStatus) (h : ph = .addrWAck ∨ ph = .dataWAck) :
    let s : State := holding cfg4 m ph (answered m 2 1 k 0)
    Ready s ∧ CanCapture s ∧ s.pending = none ∧ (s.phase = .addrWAck ∨ s.phase = .dataWAck) ∧
      1 < s.cfg.timeoutBudget.toNat ∧ s.cfg.nackClassify = true ∧ s.env.plan = answered s.mode 2 1 k 0 ++ [] :=
  ⟨ready_holding _ _ _, canCapture_holding m _ _, rfl, h, (show 1 < 4 by decide), rfl, (List.append_nil _).symm⟩

/-- The second clause of DataNackByConfiguration -/
theorem witness_dataNackUnclassified :
    let s : State := holding cfgUnclassified .poll .dataWAck (answered .poll 2 1 .nack 0 ++ (quiet 2 ++ []))
    Ready s ∧ CanCapture s ∧ s.pending = none ∧ s.phase = .dataWAck ∧ 1 < s.cfg.timeoutBudget.toNat ∧
      s.cfg.nackClassify = false ∧
      s.env.plan = answered s.mode 2 1 .nack 0 ++ (quiet (s.cfg.timeoutBudget.toNat - 1 - 1) ++ []) :=
  ⟨⟨rfl, rfl, cfgUnclassified_wf⟩, (fun h => absurd h (by decide)), rfl, rfl, by decide, rfl, rfl⟩

/-- DataRReturnsByte -/
theorem witness_dataRead (m : Mode) (ph : BusStatus) (h : ph = .addrRAck ∨ ph = .dataRMore) :
    let s : State := holding cfg4 m ph (answered m 1 1 .ack 0x12 ++ ([] :: []))
    Ready s ∧ CanCapture s ∧ s.pending = none ∧ (s.phase = .addrRAck ∨ s.phase = .dataRMore) ∧
      1 < s.cfg.timeoutBudget.toNat ∧ s.env.plan = answered s.mode 1 1 .ack 0x12 ++ ([] :: []) :=
  ⟨ready_holding _ _ _, canCapture_holding m _ _, rfl, h, (show 1 < 4 by decide), rfl⟩

/-- DataRAfterLastRefused (V59j) -/
theorem witness_dataReadAfterLast :
    let s : State := holding cfg4 .poll .dataRLast [[]]
    Ready s ∧ s.phase = .dataRLast ∧ s.env.plan = [] :: [] := ⟨ready_holding _ _ _, rfl, rfl⟩

/-- SuccessOnlyInPlace and PrimitivesFrame: a START and a DATA_W that succeed -/
theorem witness_success :
    (let s : State := atRest cfg4 .poll (answered .poll 1 1 .ack 0)
     Inv s ∧ s.inited = true ∧ s.pending = none ∧ isPrimitive .start ∧ ∃ t, exec .start s = .next t ∧ t.inited = true ∧ t.err = .ok) ∧
      (let s : State := holding cfg4 .poll .addrWAck (answered .poll 2 1 .ack 0)
       Inv s ∧ s.inited = true ∧ s.pending = none ∧ isPrimitive (.dataW 0x12) ∧
         ∃ t, exec (.dataW 0x12) s = .next t ∧ t.inited = true ∧ t.err = .ok) := by
  refine ⟨⟨inv_atRest _ _, rfl, rfl, ?_, _, rfl, by decide⟩, inv_holding _, rfl, rfl, ?_, _, rfl, by decide⟩ <;>
    exact ⟨by decide, by decide, by decide⟩

/-- ReadReturnsBytes, of one byte and of two -/
theorem witness_read (m : Mode) (bs : List Byte) (h : bs = [] ∨ bs = [0x12]) :
    let s : State := atRest cfg4 m (readPlan m 1 (bs ++ [0x34]))
    Ready s ∧ Rest s ∧ CanCapture s ∧ bs.length + 1 ≤ s.cfg.maxLen.toNat ∧ 1 < s.cfg.timeoutBudget.toNat ∧
      s.env.plan = readPlan s.mode 1 (bs ++ [0x34]) ++ [] := by
  refine ⟨ready_atRest _ _, rest_atRest _ _, canCapture_atRest _ _ _, ?_, (show 1 < 4 by decide), (List.append_nil _).symm⟩
  change bs.length + 1 ≤ 65535
  rcases h with rfl | rfl <;> decide

/-- WriteSendsBytes, of no byte and of two -/
theorem witness_write (m : Mode) (bs : List Byte) (h : bs = [] ∨ bs = [0x12, 0x34]) :
    let s : State := atRest cfg4 m (writePlan m 1 bs.length)
    Ready s ∧ Rest s ∧ CanCapture s ∧ bs.length ≤ s.cfg.maxLen.toNat ∧ 1 < s.cfg.timeoutBudget.toNat ∧
      s.env.plan = writePlan s.mode 1 bs.length ++ [] := by
  refine ⟨ready_atRest _ _, rest_atRest _ _, canCapture_atRest _ _ _, ?_, (show 1 < 4 by decide), (List.append_nil _).symm⟩
  change bs.length ≤ 65535
  rcases h with rfl | rfl <;> decide

/-- ReadFromRestCompletes, WriteFromRestCompletes: the least and the greatest length -/
theorem witness_fromRest :
    let s : State := atRest cfg4 .poll []
    Inv s ∧ s.inited = true ∧ Rest s ∧ ((0 : Half) < 1 ∧ 1 ≤ s.cfg.maxLen) ∧ (0 : Half) < 65535 ∧
      65535 ≤ s.cfg.maxLen ∧ ([] : List Byte).length ≤ s.cfg.maxLen.toNat :=
  ⟨inv_atRest _ _, rfl, rest_atRest _ _, by decide, by decide, by decide, by decide⟩

/-- OneStopPerTransaction and TransactionsFrame: P7, a WRITE that ends in DATA_NACK, and P2, a READ that succeeds -/
theorem witness_transaction :
    let w : State := atRest cfg4 .poll (answered .poll 1 1 .ack 0 ++ answered .poll 2 1 .ack 0 ++ answered .poll 2 1 .ack 0 ++
      answered .poll 2 1 .nack 0 ++ [[]])
    let r : State := atRest cfg4 .poll (readPlan .poll 1 [0x12, 0x34])
    (Inv w ∧ w.inited = true ∧ Rest w ∧ (Instr.write 0x50 0x10 [0xBB]).opcode = .write ∧
      ∃ t, exec (.write 0x50 0x10 [0xBB]) w = .next t ∧ t.inited = true ∧ t.err = .dataNack) ∧
      (Inv r ∧ r.inited = true ∧ Rest r ∧ (Instr.read 0x60 0x00 2).opcode = .read ∧
        ∃ t, exec (.read 0x60 0x00 2) r = .next t ∧ t.inited = true ∧ t.err = .ok) :=
  ⟨⟨inv_atRest _ _, rfl, rest_atRest _ _, rfl, _, rfl, by decide⟩,
    inv_atRest _ _, rfl, rest_atRest _ _, rfl, _, rfl, by decide⟩

/-- LengthChecksReject, the two bounds at the least value they reject: `MAX_LEN = 16` (V49d) -/
theorem witness_length :
    let s : State := atRest (.fixed 4 true 16) .poll []
    Ready s ∧ s.cfg.maxLen < (17 : Half) ∧ s.cfg.maxLen.toNat < (List.replicate 17 (0 : Byte)).length :=
  ⟨⟨rfl, rfl, by decide⟩, by decide, by decide⟩

/-- InitConfigures, InitZeroBusRejected, UninitializedRejected: the controller after reset -/
theorem witness_init :
    let s : State := fresh (quiet 6)
    s.seq.op = none ∧ s.inited = false ∧ s.cfg.wf = true ∧ (100000 : Hertz) ≠ 0 ∧ s.pending = none ∧ s.capPend = false ∧
      s.cr.sto = false ∧ Instr.start.opcode ≠ .init := by decide

/-- InitConfigures, its first clause: the controller after reset, in an environment without a reset to come -/
theorem witness_init_noReset :
    let s : State := { fresh [] with env := { (fresh []).env with mayReset := false } }
    s.seq.op = none ∧ s.inited = false ∧ s.cfg.wf = true ∧ (100000 : Hertz) ≠ 0 ∧ s.pending = none ∧ s.capPend = false ∧
      s.cr.sto = false ∧ s.env.mayReset = false := by decide

/-- CommandWhileBusyRefused, and the first clause of SecondInitRefused -/
theorem witness_busy : ((atRest cfg4 .poll []).begin .read).busy = true := rfl

/-- PollingIgnoresLatch, its first and its second clause -/
theorem witness_polling :
    (let s : State := atRest cfg4 .poll (answered .poll 1 1 .ack 0)
     s.mode = .poll ∧ ∃ t, exec .start s = .next t) ∧
      (let s : State := holding cfg4 .poll .dataRLast [[]]
       s.mode = .poll ∧ exec (.dataR false) s = .refused .unspecifiedContinue) :=
  ⟨⟨rfl, _, rfl⟩, rfl, rfl⟩

/-- ByteOnTheWires: the ninth instant with SCL high, of a byte sent -/
theorem witness_byte : ((clockHigh (Sym.instants (.tx 0xC0 .ack))).getLast?).isSome = true := by decide

/-- ClockHeldLowAfterPost, with a control byte after the completion -/
theorem witness_clockHeld :
    let s : State := inFlight (.txAddr 0xC0) true .start []
    let t : State := engineStep .ack 0 s
    s.pending = some (.txAddr 0xC0) ∧ s.cr.en = true ∧ (0x84 : Byte).getLsbD t.cfg.layout.crInt.val = true ∧
      ∃ u, regWriteCR 0x84 t = .next u := ⟨rfl, rfl, by decide, _, rfl⟩

/-- ResetAbandonsCommand, its second clause: the last gap of an INIT, of a STOP (its first too) and of a READ -/
theorem witness_resetAnywhere :
    (let s : State := fresh (quiet 4 ++ [] :: [])
     s.env.mayReset = true ∧ ∃ t, exec (.init .poll 100000 16000000) s = .next t ∧ t.env.plan.length ≤ 0) ∧
      (let s : State := atRest cfg4 .poll ([] ++ [] :: [])
       s.env.mayReset = true ∧ ∃ t, exec .stop s = .next t ∧ t.env.plan.length ≤ 0) ∧
      (let s : State := atRest cfg4 .poll (readPlan .poll 1 [0x12])
       s.env.mayReset = true ∧ s.env.plan = s.env.plan.dropLast ++ [] :: [] ∧
         ∃ t, exec (.read 0x60 0x00 1) s = .next t ∧ t.env.plan.length ≤ 0) :=
  ⟨⟨rfl, _, rfl, by decide⟩, ⟨rfl, _, rfl, by decide⟩, rfl, by decide, _, rfl, by decide⟩

/-- ResetAbandonsCommand, its third clause at the first and the last gap, for each command (its first: witness_success) -/
theorem witness_reset (j : Nat) (h : j = 0 ∨ j = 4) :
    let s : State := atRest cfg4 .poll (quiet j ++ [.reset] :: [])
    Ready s ∧ Rest s ∧ s.inited = true ∧ s.env.mayReset = true ∧ ((0 : Half) < 1 ∧ 1 ≤ s.cfg.maxLen) ∧
      ([] : List Byte).length ≤ s.cfg.maxLen.toNat ∧ j ≤ s.cfg.timeoutBudget.toNat ∧ EnvMove.reset ∈ [EnvMove.reset] ∧
      s.env.plan = quiet j ++ [.reset] :: [] := by
  rcases h with rfl | rfl <;>
    exact ⟨ready_atRest _ _, rest_atRest _ _, rfl, rfl, by decide, by decide, by decide, by decide, rfl⟩

end Sys2Proof.Machine.Tests
end

section
/-!
The statements about the state as a whole (10_state.md): what reset leaves (rules R42, R43), and what every step keeps
(rules R27, R40, R43). One relation says how a command can end, `exec_ends` shows that every command ends so, and both
statements about `step` follow from it.
-/
namespace Sys2Proof.Machine

/-! ### The state after reset -/

/-- The values rule R7 fixes are within rule R8, whatever the open ones are. -/
theorem fixed_wf (budget : Half) (classify : Bool) {maxLen : Half} (h : 1 ≤ maxLen.toNat) :
    (Params.fixed budget classify maxLen).wf = true := by
  have fixedClauses : (Params.fixed 0 false 0).layout.distinct && (Params.fixed 0 false 0).maskExact &&
      (Params.fixed 0 false 0).psApart && (Params.fixed 0 false 0).codesFit := by decide
  simp only [Params.wf, Bool.and_eq_true, decide_eq_true_eq]
  simp only [Bool.and_eq_true] at fixedClauses
  exact ⟨fixedClauses, h⟩

theorem ofConfig_wf : Params.ofConfig.wf = true := by
  have hlt := Config.maxLenLessOne.isLt
  refine fixed_wf _ _ ?_
  rw [BitVec.toNat_ofNat]
  omega

/-- A control register with no bit set reads 0 at every LAYOUT (rule R20). -/
theorem byte_allClear (l : Layout) :
    Control.byte l { int := false, ea := false, sta := false, sto := false, en := false, ie := false } = 0 := by
  simp [Control.byte, bitAt]

theorem resetFor_busInv {p : Params} (hw : p.wf = true) : BusInv (State.resetFor p) where
  cfg_wf := hw
  latch_masked := code_masked hw .idle
  in_flight_flag_clear _ := rfl
  capture_pending_flag := nofun
  unowned_idle _ := rfl
  owned_stop_clear _ := rfl
  unowned_event _ := .inl rfl
  clear_idle _ := rfl
  set_posted := nofun
  latch_lags := .inl rfl

/-- Reset under a configuration within rule R8 has the invariants. -/
theorem resetFor_inv {p : Params} (hw : p.wf = true) : Inv (State.resetFor p) where
  bus := resetFor_busInv hw
  cnt_bounded := Nat.zero_le _
  not_busy := rfl
  enabled := nofun
  untouched _ := ⟨rfl, rfl, rfl, rfl, rfl⟩
  txbuf_bounded := Nat.zero_le _

/-! ### What the invariants do not look at -/

/-- No invariant looks at ERR, RXLEN, the ports or the environment but for its configuration. -/
theorem Inv.unread {s : State} (h : Inv s) (err : ResultKind) (rxlen : Half) (port response : List Byte) {env : Env}
    (he : env.cfg = s.env.cfg) :
    Inv { s with err := err, rxlen := rxlen, port := port, response := response, env := env } where
  bus := h.bus.congr ⟨he, rfl, rfl, rfl, rfl, rfl, rfl, rfl, rfl⟩
  cnt_bounded := show s.cnt ≤ env.cfg.timeoutBudget by rw [he]; exact h.cnt_bounded
  not_busy := h.not_busy
  enabled := h.enabled
  untouched := h.untouched
  txbuf_bounded := show s.txbuf.length ≤ env.cfg.maxLen.toNat by rw [he]; exact h.txbuf_bounded

theorem Inv.consume {s : State} (h : Inv s) (rest : List Byte) : Inv (s.consume rest) :=
  h.unread s.err s.rxlen rest s.response (env := s.env) rfl

theorem Inv.reject {s : State} (h : Inv s) (op : Option Opcode) : Inv (s.reject op) :=
  h.unread _ _ s.port _ (env := s.env) rfl

theorem powerOn_inv {s : State} (hw : s.cfg.wf = true) : Inv s.powerOn :=
  (resetFor_inv hw).unread .ok 0 s.port [] rfl

/-! ### What holds at every micro-step -/

/-- The invariants that hold at every micro-step, whatever INITED and SEQ.OP are. -/
structure Sound (s : State) : Prop where
  bus : BusInv s
  cnt_bounded : s.cnt ≤ s.cfg.timeoutBudget
  txbuf_bounded : s.txbuf.length ≤ s.cfg.maxLen.toNat

/-- The peripheral is enabled, and the interrupt source by MODE (rules R83, R204). -/
def Enabled (s : State) : Prop := s.cr.en = true ∧ s.cr.ie = modeIe s.mode

/-- Nothing has happened on the bus: what `Inv.untouched` says of a controller before INIT (rules R42, R252). -/
def Untouched (s : State) : Prop :=
  s.pending = none ∧ s.own = false ∧ s.cr.int = false ∧ s.cr.sto = false ∧ s.trace = []

theorem Keeps.sound {s t : State} (k : Keeps s t) (h : Sound s) : Sound t where
  bus := k.bus h.bus
  cnt_bounded := k.cnt h.cnt_bounded
  txbuf_bounded := by rw [k.txbuf, k.cfg]; exact h.txbuf_bounded

theorem Inv.sound {s : State} (h : Inv s) : Sound s := ⟨h.bus, h.cnt_bounded, h.txbuf_bounded⟩

/-- At rest, the invariants are those of every micro-step and what INITED says. -/
theorem Sound.inv {s : State} (h : Sound s) (not_busy : s.busy = false) (enabled : s.inited = true → Enabled s)
    (untouched : s.inited = false → Untouched s) : Inv s :=
  ⟨h.bus, h.cnt_bounded, not_busy, enabled, untouched, h.txbuf_bounded⟩

/-! ### A gap between two commands -/

/-- With nothing in flight no agent's move reaches the bus (rules R135, R143, R231). -/
theorem envMove_untouched (s : State) (m : EnvMove) (h : Untouched s) : Untouched (envMove s m) := by
  have ⟨hpending, hown, hint, _, htrace⟩ := h
  cases m with
  | complete k d =>
    rw [envMove, engineStep_none k d hpending]
    exact h
  | stopDone => exact ⟨hpending, hown, hint, rfl, htrace⟩
  | capture =>
    rw [envMove, captureStep]
    split <;> exact h
  | setGie on =>
    rw [envMove, setGieStep]
    split <;> exact h
  | reset => exact h

theorem gap_untouched {s : State} (h : Untouched s) : Untouched (gap s) :=
  gap_induct envMove_untouched (fun _ h => h) h

/-- A gap with no command keeps the invariants. -/
theorem Inv.gap {s : State} (h : Inv s) : Inv (gap s) := by
  have k := gap_keeps s
  have f := gap_frame s
  refine (k.sound h.sound).inv ?_ (fun hi => ?_) (fun hi => ?_)
  · rw [State.busy, f.seq]
    exact h.not_busy
  · exact k.enabled h.bus.cfg_wf (h.enabled (k.inited ▸ hi))
  · exact gap_untouched (h.untouched (k.inited ▸ hi))

/-! ### A command abandoned in reset

`Runs` says of such a state no more than the reset table does; the bound on TXBUF needs that it is the power-on state. -/

/-- If this part of a command was abandoned, it was in a power-on state (rule R250). -/
def PowersOn {α : Type} : PartResult α → Prop
  | .next _ => True
  | .abandoned t => ∃ u : State, t = u.powerOn
  | .refused _ => True

theorem powersOn_next {α : Type} (a : α) : PowersOn (.next a) := trivial

theorem powersOn_ofResult {α : Type} (o : Result α) : PowersOn (PartResult.ofResult o) := by
  cases o with
  | next a => exact trivial
  | fault r => cases r
  | refused r => exact trivial

theorem PowersOn.bind {α β : Type} {o : PartResult α} {f : α → PartResult β} (ho : PowersOn o)
    (hf : ∀ a, PowersOn (f a)) : PowersOn (andThen o f) := by
  cases o with
  | next a => exact hf a
  | abandoned t => exact ho
  | refused r => trivial

theorem pause_powersOn (s : State) : PowersOn (pause s) := by
  rcases pause_cases s with ⟨-, hp⟩ | ⟨-, -, hp⟩ <;> rw [hp]
  · trivial
  · exact ⟨_, rfl⟩

theorem controlStep_powersOn (pattern : Layout → Mode → Byte) (s : State) : PowersOn (controlStep pattern s) :=
  (pause_powersOn s).bind fun _ => powersOn_ofResult _

theorem stopBusPrim_powersOn (s : State) : PowersOn (stopBusPrim s) := controlStep_powersOn patStop s

theorem loadStep_powersOn (v : Byte) (s : State) : PowersOn (loadStep v s) :=
  (pause_powersOn s).bind fun _ => powersOn_ofResult _

theorem sampleLoop_powersOn (target : BusStatus) (nack : Sibling) (n : Nat) (s : State) :
    PowersOn (sampleLoop target nack n s) := by
  induction n generalizing s with
  | zero => exact powersOn_next _
  | succ n ih =>
    refine (pause_powersOn s).bind fun u => ?_
    split
    · exact powersOn_next _
    · split
      · exact powersOn_next _
      · exact ih _

theorem controlAndWait_powersOn (pattern : Layout → Mode → Byte) (target : BusStatus) (nack : Sibling) (s : State) :
    PowersOn (controlAndWait pattern target nack s) :=
  (controlStep_powersOn pattern s).bind fun _ => sampleLoop_powersOn _ _ _ _

theorem addrPrim_powersOn (d : Direction) (s : State) : PowersOn (addrPrim d s) :=
  (loadStep_powersOn _ s).bind fun _ => controlAndWait_powersOn _ _ _ _

theorem dataWPrim_powersOn (b : Byte) (s : State) : PowersOn (dataWPrim b s) :=
  (loadStep_powersOn b s).bind fun _ => controlAndWait_powersOn _ _ _ _

theorem receivePrim_powersOn (more : Bool) (s : State) : PowersOn (receivePrim more s) := by
  cases more <;> exact controlAndWait_powersOn _ _ _ _

theorem dataRPrim_powersOn (more : Bool) (s : State) : PowersOn (dataRPrim more s) := by
  refine (receivePrim_powersOn more s).bind ?_
  rintro ⟨r, t⟩
  cases r with
  | ok => exact (pause_powersOn t).bind fun _ => powersOn_next _
  | timeout | addressNack | dataNack | precondition => exact powersOn_next _

theorem gated_powersOn {o : PartResult (ResultKind × State)} {f : Primitive} (ho : PowersOn o)
    (hf : ∀ s, PowersOn (f s)) : PowersOn (gated o f) := by
  refine ho.bind ?_
  rintro ⟨r, t⟩
  cases r with
  | ok => exact hf t
  | timeout | addressNack | dataNack | precondition => exact powersOn_next _

theorem selectRegister_powersOn (s1 s2 s3 : SeqStep) (s : State) : PowersOn (selectRegister s1 s2 s3 s) :=
  gated_powersOn (controlAndWait_powersOn _ _ _ _) fun _ =>
  gated_powersOn (addrPrim_powersOn _ _) fun _ => dataWPrim_powersOn _ _

theorem readOne_powersOn (st : SeqStep) (more : Bool) (s : State) : PowersOn (readOne st more s) :=
  gated_powersOn (dataRPrim_powersOn _ _) fun _ => powersOn_next _

theorem readMore_powersOn (n : Nat) (s : State) : PowersOn (readMore n s) := by
  induction n generalizing s with
  | zero => exact powersOn_next _
  | succ n ih => exact gated_powersOn (readOne_powersOn .rd6 true s) ih

theorem readBody_powersOn (s : State) : PowersOn (readBody s) :=
  gated_powersOn (selectRegister_powersOn _ _ _ _) fun _ =>
  gated_powersOn (controlAndWait_powersOn _ _ _ _) fun _ =>
  gated_powersOn (addrPrim_powersOn _ _) fun _ =>
  gated_powersOn (readMore_powersOn _ _) fun _ => readOne_powersOn _ _ _

theorem writeBytes_powersOn (bs : List Byte) (s : State) : PowersOn (writeBytes bs s) := by
  induction bs generalizing s with
  | nil => exact powersOn_next _
  | cons b bs ih => exact gated_powersOn (dataWPrim_powersOn _ _) fun _ => ih _

theorem writeBody_powersOn (s : State) : PowersOn (writeBody s) :=
  gated_powersOn (selectRegister_powersOn _ _ _ _) fun _ => writeBytes_powersOn _ _

theorem runPrimitive_powersOn {p : Primitive} (hp : ∀ s, PowersOn (p s)) (after : ResultKind → State → List Byte)
    (s : State) : PowersOn (runPrimitive p after s) :=
  (hp s).bind fun _ => powersOn_next _

theorem runTransaction_powersOn {body : Primitive} (hb : ∀ s, PowersOn (body s)) (done failed : SeqStep)
    (drop deliver : State → State) (s : State) : PowersOn (runTransaction body done failed drop deliver s) := by
  refine (hb s).bind ?_
  rintro ⟨r, t⟩
  cases r with
  | ok | timeout | addressNack | dataNack | precondition =>
    exact (stopBusPrim_powersOn _).bind fun _ => powersOn_next _

/-! ### How a command ends -/

/-- A command begun in `s` ran to its end in `t`: the controller is at rest, after INIT, and has the invariants if it had
them at the beginning. -/
structure Completes (s t : State) : Prop where
  cfg : t.cfg = s.cfg
  inited : t.inited = true
  not_busy : t.busy = false
  sound : Sound s → Sound t
  enabled : s.cfg.wf = true → (s.inited = true → Enabled s) → Enabled t

theorem Completes.inv {s t : State} (c : Completes s t) (h : Inv s) : Inv t := by
  refine (c.sound h.sound).inv c.not_busy (fun _ => c.enabled h.bus.cfg_wf h.enabled) (fun hi => ?_)
  rw [c.inited] at hi
  cases hi

theorem Keeps.completes {s t : State} (k : Keeps s t) (hi : s.inited = true) (hb : t.busy = false) : Completes s t where
  cfg := k.cfg
  inited := k.inited.trans hi
  not_busy := hb
  sound := k.sound
  enabled := fun hw he => k.enabled hw (he hi)

/-- How a step from `s` that answers `t` can have ended. -/
inductive Ends (s t : State) : Prop where
  | completed (h : Completes s t)
  | rejected (op : Option Opcode) (h : t = s.reject op)
  /-- nothing but a gap (rule R9) -/
  | waited (h : t = gap s)
  /-- rule R250 -/
  | reset (cfg : t.cfg = s.cfg) (u : State) (h : t = u.powerOn)

theorem Ends.cfg {s t : State} (e : Ends s t) : t.cfg = s.cfg := by
  cases e with
  | completed h => exact h.cfg
  | rejected op h => rw [h, reject_cfg]
  | waited h => rw [h, (gap_frame s).cfg]
  | reset cfg u h => exact cfg

theorem Ends.inv {s t : State} (e : Ends s t) (h : Inv s) : Inv t := by
  cases e with
  | completed c => exact c.inv h
  | rejected op e => rw [e]; exact h.reject op
  | waited e => rw [e]; exact h.gap
  | reset cfg u e =>
    have hw : u.cfg.wf = true := by rw [← powerOn_cfg u, ← e, cfg]; exact h.bus.cfg_wf
    rw [e]; exact powerOn_inv hw

/-- Everything a whole command begun in `s` can do once it is accepted: run to its end, be abandoned in reset, or be
refused. -/
def Settles (s : State) : PartResult State → Prop
  | .next t => Completes s t
  | .abandoned t => t.cfg = s.cfg ∧ ∃ u : State, t = u.powerOn
  | .refused _ => True

theorem Settles.ends {s t : State} {o : PartResult State} (h : Settles s o) (e : o.outcome = .next t) : Ends s t := by
  rcases outcome_next e with rfl | rfl
  · exact .completed h
  · obtain ⟨cfg, u, hu⟩ := h
    exact .reset cfg u hu

theorem ResetMeanwhile.cfg {s t : State} (h : ResetMeanwhile s t) : t.cfg = s.cfg := by
  obtain ⟨-, u, rfl⟩ := h
  rfl

/-- A command that keeps what every part keeps settles, when it leaves the controller at rest. -/
theorem Runs.settles {s : State} {o : PartResult State} (h : Runs id s o) (hp : PowersOn o) (hi : s.inited = true)
    (hb : ∀ t, o = .next t → t.busy = false) : Settles s o := by
  cases o with
  | next t => exact Keeps.completes h hi (hb t rfl)
  | abandoned t => exact ⟨ResetMeanwhile.cfg h, hp⟩
  | refused r => trivial

/-- A command after the checks of rules R170, R183 and R255. -/
theorem guarded_ends {op : Opcode} {s t : State} {go : State → PartResult State}
    (h : guarded op s go = .next t) (hgo : s.busy = false → s.inited = true → Settles s (go s)) : Ends s t := by
  obtain ⟨hb, ⟨-, rfl⟩ | ⟨hi, hn⟩⟩ := guarded_cases h
  · exact .rejected _ rfl
  · refine (hgo hb hi).ends (o := go s) ?_
    rcases hn with hn | hn <;> rw [hn] <;> rfl

/-! ### The primitives and STOP -/

/-- A primitive run as a command from `s`, its operand register loaded in `b`. -/
theorem runPrimitive_settles {p : Primitive} (hr : PrimRuns p) (hp : ∀ s, PowersOn (p s))
    (after : ResultKind → State → List Byte) {s b : State} (hb : Keeps s b) (hi : s.inited = true) :
    Settles s (runPrimitive p after b) := by
  refine ((runPrimitive_runs hr after b).after hb).settles (runPrimitive_powersOn hp after b) hi fun t h => ?_
  obtain ⟨r, u, -, rfl⟩ := runPrimitive_cases h
  rfl

/-- Acceptance and the loading of an operand register no invariant looks at (rules R31, R33). -/
theorem loadOperands_keeps (s : State) (op : Opcode) (a : Addr7) (d : Byte) (more : Bool) (bus core : Hertz) :
    Keeps s { s.begin op with addr := a, data := d, more := more, fBus := bus, fCore := core } :=
  .same ⟨rfl, rfl, rfl, rfl, rfl, rfl, rfl, rfl, rfl⟩ rfl rfl rfl rfl rfl rfl rfl rfl rfl

theorem stopCommand_settles {s : State} (hi : s.inited = true) :
    Settles s (andThen (stopBusPrim (s.begin .stop)) fun s => .next (s.finish .ok [])) := by
  have hr : Runs id s (andThen (stopBusPrim (s.begin .stop)) fun s => .next (s.finish .ok [])) :=
    ((stopBusPrim_runs _).after (begin_keeps s .stop)).bind fun t => finish_keeps t .ok []
  refine hr.settles ((stopBusPrim_powersOn _).bind fun _ => powersOn_next _) hi fun t h => ?_
  obtain ⟨u, -, h⟩ := andThen_next h
  cases h
  rfl

/-! ### READ and WRITE -/

theorem runTransaction_settles {body : Primitive} (hr : PrimRuns body) (hp : ∀ s, PowersOn (body s))
    (done failed : SeqStep) {drop deliver : State → State} (hd : ∀ s, Keeps s (drop s)) (hl : ∀ s, Keeps s (deliver s))
    (hb : ∀ s, (deliver s).busy = false) {s : State} (hi : s.inited = true) :
    Settles s (runTransaction body done failed drop deliver s) := by
  refine (runTransaction_runs hr done failed hd hl s).settles (runTransaction_powersOn hp _ _ _ _ s) hi fun t h => ?_
  obtain ⟨r, u, v, -, ⟨-, -, rfl⟩ | ⟨-, -, rfl⟩⟩ := runTransaction_cases h
  · exact hb v
  · rfl

/-- A rejection by a length check, after INIT (rules R183, R185). -/
theorem reject_settles {s : State} (op : Option Opcode) (hb : s.busy = false) (hi : s.inited = true) :
    Settles s (.next (s.reject op)) :=
  (reject_keeps s op).completes hi hb

theorem Completes.after {s t u : State} (k : Keeps s t) (c : Completes t u) : Completes s u where
  cfg := c.cfg.trans k.cfg
  inited := c.inited
  not_busy := c.not_busy
  sound := fun h => c.sound (k.sound h)
  enabled := fun hw he => c.enabled (k.cfg ▸ hw) fun hi => k.enabled hw (he (k.inited ▸ hi))

/-- What comes before a command's micro-steps is part of it. -/
theorem Settles.after {s t : State} {o : PartResult State} (k : Keeps s t) (h : Settles t o) : Settles s o := by
  cases o with
  | next u => exact Completes.after k h
  | abandoned u => exact ⟨h.1.trans k.cfg, h.2⟩
  | refused r => trivial

/-- The payload WRITE loads into TXBUF is within its length check (rules R183, R185). -/
theorem Settles.of_beginWrite {s : State} {a : Addr7} {r : Byte} {bytes : List Byte} {o : PartResult State}
    (hn : bytes.length ≤ s.cfg.maxLen.toNat) (h : Settles (s.beginWrite a r bytes) o) : Settles s o := by
  cases o with
  | next t =>
    have c : Completes (s.beginWrite a r bytes) t := h
    have loaded : Sound s → Sound (s.beginWrite a r bytes) := fun hs =>
      ⟨hs.bus.congr ⟨rfl, rfl, rfl, rfl, rfl, rfl, rfl, rfl, rfl⟩, hs.cnt_bounded, hn⟩
    exact ⟨c.cfg, c.inited, c.not_busy, fun hs => c.sound (loaded hs), c.enabled⟩
  | abandoned t => exact h
  | refused x => trivial

theorem execRead_ends {a : Addr7} {r : Byte} {n : Half} {s t : State} (h : execRead a r n s = .next t) : Ends s t := by
  refine guarded_ends h fun hb hi => ?_
  split
  · exact reject_settles _ hb hi
  · split
    · exact reject_settles _ hb hi
    · exact (runTransaction_settles readBody_runs readBody_powersOn .rd8 .rdf dropRead_keeps deliverRead_keeps
        (fun _ => rfl) (s := s.beginRead a r n) hi).after (beginRead_keeps s a r n)

theorem execWrite_ends {a : Addr7} {r : Byte} {bytes : List Byte} {s t : State} (h : execWrite a r bytes s = .next t) :
    Ends s t := by
  refine guarded_ends h fun hb hi => ?_
  split
  · exact reject_settles _ hb hi
  · rename_i hn
    refine Settles.of_beginWrite (a := a) (r := r) (Nat.le_of_not_lt hn) ?_
    exact runTransaction_settles writeBody_runs writeBody_powersOn .wr5 .wrf Keeps.rfl' (fun s => finish_keeps s .ok [])
      (fun _ => rfl) hi

/-! ### INIT -/

/-- A part of a command and then the rest of it. -/
theorem Settles.bind {s : State} {o : PartResult State} {f : State → PartResult State} (hr : Runs id s o)
    (hp : PowersOn o) (hf : ∀ t, o = .next t → Keeps s t → Settles t (f t)) : Settles s (andThen o f) := by
  cases o with
  | next t => exact (hf t rfl hr).after hr
  | abandoned t => exact ⟨ResetMeanwhile.cfg hr, hp⟩
  | refused r => trivial

theorem setDivisor_keeps (s : State) : Keeps s s.setDivisor :=
  .same ⟨rfl, rfl, rfl, rfl, rfl, rfl, rfl, rfl, rfl⟩ rfl rfl rfl rfl rfl rfl rfl rfl rfl

theorem setPrescaler_keeps (s : State) : Keeps s s.setPrescaler :=
  .same ⟨rfl, rfl, rfl, rfl, rfl, rfl, rfl, rfl, rfl⟩ rfl rfl rfl rfl rfl rfl rfl rfl rfl

theorem setGie_keeps (s : State) (on : Bool) : Keeps s { s with gie := on } :=
  .same ⟨rfl, rfl, rfl, rfl, rfl, rfl, rfl, rfl, rfl⟩ rfl rfl rfl rfl rfl rfl rfl rfl rfl

theorem enableInterrupts_runs (m : Mode) (s : State) : Runs id s (enableInterrupts m s) := by
  cases m with
  | poll => exact Keeps.rfl' s
  | irq => exact (pause_runs s).bind fun t => setGie_keeps t true

theorem enableInterrupts_powersOn (m : Mode) (s : State) : PowersOn (enableInterrupts m s) := by
  cases m with
  | poll => exact powersOn_next _
  | irq => exact (pause_powersOn s).bind fun _ => powersOn_next _

/-- A control write leaves the peripheral enabled, whatever it was before (rules R83, R204). -/
theorem controlStep_enables {pattern : Layout → Mode → Byte} (hp : Enabling pattern) {s t : State}
    (hw : s.cfg.wf = true) (h : controlStep pattern s = .next t) : Enabled t := by
  obtain ⟨u, hu, h⟩ := andThen_next h
  have hu' : Keeps s u := (pause_runs s).next hu
  have h := ofResult_next h
  obtain ⟨en, ie, -⟩ := regWriteCR_enables h
  obtain ⟨hen, hie⟩ := hp u.cfg.layout u.mode (wf_distinct (hu'.cfg ▸ hw))
  exact ⟨en.trans hen, by rw [ie, hie, (regWriteCR_prim h).mode]⟩

/-- The last micro-step of INIT (rule R200). -/
theorem initDone_completes {s : State} (he : s.cfg.wf = true → Enabled s) : Completes s s.initDone where
  cfg := rfl
  inited := rfl
  not_busy := rfl
  sound := fun h => ⟨h.bus.congr ⟨rfl, rfl, rfl, rfl, rfl, rfl, rfl, rfl, rfl⟩, h.cnt_bounded, h.txbuf_bounded⟩
  enabled := fun hw _ => he hw

/-- INIT after its enabling write (rules R200, R205). -/
theorem initEnd_settles (m : Mode) {s : State} (he : s.cfg.wf = true → Enabled s) :
    Settles s (andThen (enableInterrupts m s) fun s => andThen (pause s) fun s => .next s.initDone) := by
  refine .bind (enableInterrupts_runs m s) (enableInterrupts_powersOn m s) fun t _ kt => ?_
  refine .bind (pause_runs t) (pause_powersOn t) fun u _ ku => initDone_completes fun hw => ?_
  have hs : s.cfg.wf = true := by rw [← kt.cfg, ← ku.cfg, hw]
  have k := kt.trans ku
  exact k.enabled hs (he hs)

/-- MODE is written before INITED is set, so the interrupt source need not agree with it yet (rules R200, R206). -/
theorem Settles.of_setMode {s : State} {m : Mode} {o : PartResult State} (hi : s.inited = false)
    (h : Settles (s.setMode m) o) : Settles s o := by
  cases o with
  | next t =>
    have c : Completes (s.setMode m) t := h
    have withMode : Sound s → Sound (s.setMode m) := fun hs =>
      ⟨hs.bus.congr ⟨rfl, rfl, rfl, rfl, rfl, rfl, rfl, rfl, rfl⟩, hs.cnt_bounded, hs.txbuf_bounded⟩
    refine ⟨c.cfg, c.inited, c.not_busy, fun hs => c.sound (withMode hs), fun hw _ => c.enabled hw fun hi' => ?_⟩
    rw [setMode_inited, hi] at hi'
    cases hi'
  | abandoned t => exact h
  | refused x => trivial

theorem initBody_settles (m : Mode) {s : State} (hi : s.inited = false) : Settles s (initBody m s) := by
  refine .bind (pause_runs s) (pause_powersOn s) fun t _ kt => ?_
  refine .bind ((pause_runs _).after (setDivisor_keeps t)) (pause_powersOn _) fun u _ ku => ?_
  refine .bind ((pause_runs _).after (setPrescaler_keeps u)) (pause_powersOn _) fun v _ kv => ?_
  have hv : v.inited = false := ((kt.trans ku).trans kv).inited.trans hi
  refine .of_setMode (m := m) hv ?_
  refine .bind (controlStep_runs patEnable_enabling _) (controlStep_powersOn _ _) fun w hw kw => ?_
  exact initEnd_settles m fun wf => controlStep_enables patEnable_enabling (kw.cfg ▸ wf) hw

theorem execInit_ends {m : Mode} {bus core : Hertz} {s t : State} (h : execInit m bus core s = .next t) : Ends s t := by
  unfold execInit at h
  split at h
  · cases h
  · split at h
    · cases h
    · rename_i hi
      split at h
      · cases h
        exact .rejected _ rfl
      · refine Settles.ends ?_ h
        exact (initBody_settles m (by simpa using hi)).after (loadOperands_keeps s .init s.addr s.data s.more bus core)

/-! ### Every command and every step -/

/-- Every command that answers ends in one of the ways of `Ends`. -/
theorem exec_ends {i : Instr} {s t : State} (h : exec i s = .next t) : Ends s t := by
  cases i with
  | start =>
    change execStart s = _ at h
    exact guarded_ends h fun _ => runPrimitive_settles startPrim_runs (controlAndWait_powersOn _ _ _) _
      (begin_keeps s .start)
  | restart =>
    change execRestart s = _ at h
    exact guarded_ends h fun _ => runPrimitive_settles restartPrim_runs (controlAndWait_powersOn _ _ _) _
      (begin_keeps s .restart)
  | stop =>
    change execStop s = _ at h
    exact guarded_ends h fun _ => stopCommand_settles
  | addrW a =>
    change execAddrW a s = _ at h
    exact guarded_ends h fun _ => runPrimitive_settles (addrPrim_runs .write) (addrPrim_powersOn .write) _
      (loadOperands_keeps s .addrW a s.data s.more s.fBus s.fCore)
  | addrR a =>
    change execAddrR a s = _ at h
    exact guarded_ends h fun _ => runPrimitive_settles (addrPrim_runs .read) (addrPrim_powersOn .read) _
      (loadOperands_keeps s .addrR a s.data s.more s.fBus s.fCore)
  | dataW d =>
    change execDataW d s = _ at h
    exact guarded_ends h fun _ => runPrimitive_settles (dataWPrim_runs d) (dataWPrim_powersOn d) _
      (loadOperands_keeps s .dataW s.addr d s.more s.fBus s.fCore)
  | dataR more =>
    change execDataR more s = _ at h
    exact guarded_ends h fun _ => runPrimitive_settles (dataRPrim_runs more) (dataRPrim_powersOn more) _
      (loadOperands_keeps s .dataR s.addr s.data more s.fBus s.fCore)
  | init m bus core => exact execInit_ends h
  | read a r n => exact execRead_ends h
  | write a r bytes => exact execWrite_ends h

theorem idle_ends (s : State) : Ends s s.idle := by
  unfold State.idle
  split
  · exact .reset (afterGap_frame s).cfg _ rfl
  · exact .waited rfl

/-- Everything a step that runs no command can do (rules R9, R91, R250). -/
theorem nextAction_settle {s t : State} (h : nextAction s = .settle t) : ∃ rest, Ends (s.consume rest) t := by
  unfold nextAction at h
  split at h
  · cases h
    exact ⟨s.port, .reset rfl s rfl⟩
  · split at h <;> cases h
    case _ rest _ => exact ⟨rest, .rejected none rfl⟩
    case _ op rest _ => exact ⟨rest, .rejected (some op) rfl⟩
    case _ => exact ⟨s.port, idle_ends s⟩

/-- A command runs once its packet has been consumed (rule R88). -/
theorem nextAction_run {s t : State} {i : Instr} (h : nextAction s = .run i t) : ∃ rest, t = s.consume rest := by
  unfold nextAction at h
  split at h
  · cases h
  · split at h <;> cases h
    exact ⟨_, rfl⟩

/-- Every step ends in one of the ways of `Ends`, some bytes of the command port having been consumed first. -/
theorem step_ends {s t : State} (h : step s = .next t) : ∃ rest, Ends (s.consume rest) t := by
  unfold step at h
  split at h
  case _ u hs =>
    cases h
    exact nextAction_settle hs
  case _ i u hr =>
    obtain ⟨rest, rfl⟩ := nextAction_run hr
    exact ⟨rest, exec_ends h⟩

end Sys2Proof.Machine

open Sys2Proof Sys2Proof.Machine

/-- Settles O3, by the ways a step can end: a command that completed keeps the invariants through its micro-steps, and
each of the others keeps them by itself. -/
theorem stepKeepsInvariant : Obligations.StepKeepsInvariant := by
  intro s t hs h
  obtain ⟨rest, e⟩ := step_ends h
  exact e.inv (hs.consume rest)

/-- Settles O4, by the ways a step can end, each of which leaves the configuration. -/
theorem stepKeepsConfiguration : Obligations.StepKeepsConfiguration := by
  intro s t h
  obtain ⟨rest, e⟩ := step_ends h
  exact e.cfg.trans (consume_cfg s rest)

/-- Settles O1, by the values of `State.resetFor`; only the read of CR takes a lemma. -/
theorem resetLeavesTableValues : Obligations.ResetLeavesTableValues :=
  ⟨rfl, rfl, rfl, byte_allClear _, rfl, rfl, rfl, rfl, rfl, rfl, rfl, rfl, rfl, rfl, rfl, rfl, rfl, rfl, rfl⟩

/-- Settles O2: reset has the invariants under every configuration within rule R8, and rule R7's is one. -/
theorem resetMeetsInvariant : Obligations.ResetMeetsInvariant := resetFor_inv ofConfig_wf
end

section
/-!
The statements about the encoding (30_encoding.md): the decoder and the encoder are inverse to each other (rules R88 to
R92), what a step does with the bytes on the command port, and the bytes of frames, patterns and wires (rules R80 to R93).
-/
namespace Sys2Proof

/-! ### Fields of more than one byte -/

/-- A number below `2 ^ i` and the bits from `i` up do not overlap. -/
theorem or_shiftLeft {x i : Nat} (h : x < 2 ^ i) (y : Nat) : x ||| y <<< i = x + y * 2 ^ i := by
  rw [Nat.lor_comm, ← Nat.shiftLeft_add_eq_or_of_lt h, Nat.shiftLeft_eq, Nat.add_comm]

/-- A word loses no bit on its way to its place in a wider one. -/
theorem zeroExtend_shiftLeft_toNat {v w k : Nat} (x : BitVec v) (h : v + k ≤ w) :
    (x.zeroExtend w <<< k).toNat = x.toNat <<< k := by
  have hx : x.toNat * 2 ^ k < 2 ^ w := calc
    x.toNat * 2 ^ k < 2 ^ v * 2 ^ k := Nat.mul_lt_mul_of_pos_right x.isLt (Nat.two_pow_pos k)
    _ = 2 ^ (v + k) := (Nat.pow_add ..).symm
    _ ≤ 2 ^ w := Nat.pow_le_pow_right (by decide) h
  have hlow : (x.zeroExtend w).toNat = x.toNat := BitVec.toNat_setWidth_of_le (by omega)
  rw [BitVec.toNat_shiftLeft, hlow, Nat.shiftLeft_eq, Nat.mod_eq_of_lt hx]

theorem le16_toNat (lo hi : Byte) : (le16 lo hi).toNat = lo.toNat + hi.toNat * 2 ^ 8 := by
  have hlow : (lo.zeroExtend 16).toNat = lo.toNat := BitVec.toNat_setWidth_of_le (by decide)
  rw [le16, BitVec.toNat_or, hlow, zeroExtend_shiftLeft_toNat hi (by decide), or_shiftLeft lo.isLt]

theorem le32_toNat (b0 b1 b2 b3 : Byte) :
    (le32 b0 b1 b2 b3).toNat = b0.toNat + b1.toNat * 2 ^ 8 + b2.toNat * 2 ^ 16 + b3.toNat * 2 ^ 24 := by
  have h0 := b0.isLt
  have h1 := b1.isLt
  have h2 := b2.isLt
  have hlow : (b0.zeroExtend 32).toNat = b0.toNat := BitVec.toNat_setWidth_of_le (by decide)
  simp only [le32, BitVec.toNat_or, hlow, zeroExtend_shiftLeft_toNat, Nat.reduceLeDiff, Nat.reduceAdd]
  rw [or_shiftLeft h0, or_shiftLeft (i := 16) (by omega), or_shiftLeft (i := 24) (by omega)]

/-- The bytes of a field just read are the bytes it was read from (rule R92). -/
@[simp] theorem bytes16_le16 (lo hi : Byte) : bytes16 (le16 lo hi) = [lo, hi] := by
  have hlo := lo.isLt
  have hhi := hi.isLt
  simp only [bytes16, List.cons.injEq, and_true, ← BitVec.toNat_inj, BitVec.extractLsb'_toNat, le16_toNat,
    Nat.shiftRight_eq_div_pow]
  omega

@[simp] theorem bytes32_le32 (b0 b1 b2 b3 : Byte) : bytes32 (le32 b0 b1 b2 b3) = [b0, b1, b2, b3] := by
  have h0 := b0.isLt
  have h1 := b1.isLt
  have h2 := b2.isLt
  have h3 := b3.isLt
  simp only [bytes32, List.cons.injEq, and_true, ← BitVec.toNat_inj, BitVec.extractLsb'_toNat, le32_toNat,
    Nat.shiftRight_eq_div_pow]
  omega

/-- A 32-bit field reads back, low byte first (rule R92). -/
theorem le32_bytes (n : Hertz) :
    le32 (n.extractLsb' 0 8) (n.extractLsb' 8 8) (n.extractLsb' 16 8) (n.extractLsb' 24 8) = n := by
  have hn := n.isLt
  simp only [← BitVec.toNat_inj, le32_toNat, BitVec.extractLsb'_toNat, Nat.shiftRight_eq_div_pow]
  omega

/-! ### One-byte operands -/

theorem addrByte_toNat (a : Addr7) : (addrByte a).toNat = a.toNat := BitVec.toNat_setWidth_of_le (by decide)

theorem addrOperand_eq (b : Byte) :
    addrOperand b = if 128 ≤ b.toNat then none else some (b.extractLsb' 0 7) := by
  have hbit : b.getLsbD 7 = decide (128 ≤ b.toNat) := BitVec.msb_eq_decide b
  simp only [addrOperand, hbit, decide_eq_true_eq]

/-- An address operand is malformed exactly when its top bit is set (rule R91). -/
theorem addrOperand_eq_none {b : Byte} : addrOperand b = none ↔ 0x80 ≤ b := by
  simp [addrOperand_eq, BitVec.le_def]

/-- Each address has one operand byte (rule R89). -/
theorem addrOperand_eq_some {b : Byte} {a : Addr7} : addrOperand b = some a ↔ b = addrByte a := by
  have ha := a.isLt
  rw [addrOperand_eq, ← BitVec.toNat_inj, addrByte_toNat]
  split
  case isTrue h => simp only [reduceCtorEq, false_iff]; omega
  case isFalse h =>
    simp only [Option.some.injEq, ← BitVec.toNat_inj, BitVec.extractLsb'_toNat, Nat.shiftRight_zero]
    omega

theorem flagOperand_eq (b : Byte) :
    flagOperand b = if 2 ≤ b.toNat then none else some (decide (b.toNat % 2 = 1)) := by
  have hb := b.isLt
  have hbits : b.extractLsb' 1 7 = 0 ↔ ¬ 2 ≤ b.toNat := by
    simp only [← BitVec.toNat_inj, BitVec.extractLsb'_toNat, Nat.shiftRight_eq_div_pow, BitVec.ofNat_eq_ofNat,
      BitVec.toNat_ofNat]
    omega
  simp only [flagOperand, hbits, ite_not, BitVec.getLsbD, Nat.testBit_zero]

/-- A one-bit operand is malformed exactly when a bit above bit 0 is set (rule R91). -/
theorem flagOperand_eq_none {b : Byte} : flagOperand b = none ↔ 0x02 ≤ b := by
  simp [flagOperand_eq, BitVec.le_def, Nat.succ_le_iff]

theorem flagByte_toNat (m : Bool) : (flagByte m).toNat = m.toNat := by cases m <;> rfl

/-- Each one-bit operand has one byte (rule R89). -/
theorem flagOperand_eq_some {b : Byte} {m : Bool} : flagOperand b = some m ↔ b = flagByte m := by
  rw [flagOperand_eq, ← BitVec.toNat_inj, flagByte_toNat]
  split
  case isTrue h =>
    have hm := m.toNat_le
    simp only [reduceCtorEq, false_iff]
    omega
  case isFalse h => cases m <;> simp <;> omega

@[simp] theorem modeOf_bit (m : Mode) : modeOf m.bit = m := by cases m <;> rfl

@[simp] theorem bit_modeOf (m : Bool) : (modeOf m).bit = m := by cases m <;> rfl

/-! ### The opcode byte -/

/-- Each opcode has one byte (rule R89). -/
theorem Opcode.ofByte_eq_some {b : Byte} {op : Opcode} : Opcode.ofByte b = some op ↔ b = op.byte := by
  constructor
  · intro h
    unfold Opcode.ofByte at h
    split at h <;> cases h <;> exact BitVec.eq_of_toNat_eq ‹_›
  · rintro rfl
    cases op <;> rfl

/-- The opcode bytes of rule R91 name no command. -/
theorem Opcode.ofByte_reserved {b : Byte} (h : b = 0x00 ∨ (0x08 ≤ b ∧ b ≤ 0x0F) ∨ 0x13 ≤ b) :
    Opcode.ofByte b = none := by
  cases ho : Opcode.ofByte b with
  | none => rfl
  | some op =>
    obtain rfl := Opcode.ofByte_eq_some.1 ho
    cases op <;> exact absurd h (by decide)

/-! ### The decoder -/

/-- A packet with an address operand is a command exactly when that operand is an address's byte (rules R89, R91). -/
theorem orMalformed_addr {op : Opcode} {b : Byte} {f : Addr7 → Instr} {i : Instr} {rest left : List Byte} :
    orMalformed op ((addrOperand b).map f) rest = .command i left ↔ ∃ a, b = addrByte a ∧ f a = i ∧ rest = left := by
  simp only [← addrOperand_eq_some]
  cases addrOperand b <;> simp [orMalformed]

/-- A packet with a one-bit operand is a command exactly when that operand is a bit's byte (rules R89, R91). -/
theorem orMalformed_flag {op : Opcode} {b : Byte} {f : Bool → Instr} {i : Instr} {rest left : List Byte} :
    orMalformed op ((flagOperand b).map f) rest = .command i left ↔ ∃ m, b = flagByte m ∧ f m = i ∧ rest = left := by
  simp only [← flagOperand_eq_some]
  cases flagOperand b <;> simp [orMalformed]

theorem decode_cons {b : Byte} {op : Opcode} (h : Opcode.ofByte b = some op) (rest : List Byte) :
    decode (b :: rest) = decodeOperands op rest := by
  simp only [decode, h]

theorem decode_reserved {b : Byte} (h : Opcode.ofByte b = none) (rest : List Byte) :
    decode (b :: rest) = .reserved b rest := by
  simp only [decode, h]

/-- A WRITE packet whose payload has arrived whole ends with it, whatever its address byte (rules R88, R89). -/
theorem decodeOperands_write (a r : Byte) {lo hi : Byte} {payload : List Byte} (rest : List Byte)
    (h : payload.length = (le16 lo hi).toNat) :
    decodeOperands .write (a :: r :: lo :: hi :: (payload ++ rest)) =
      orMalformed .write ((addrOperand a).map fun a => .write a r payload) rest := by
  simp [decodeOperands, ← h]

/-- The operand bytes of a command decode to it (rules R88, R89). -/
theorem decodeOperands_encodeOperands {i : Instr} (rest : List Byte) (h : i.wf = true) :
    decodeOperands i.opcode (encodeOperands i ++ rest) = .command i rest := by
  cases i with
  | start => rfl
  | restart => rfl
  | stop => rfl
  | addrW a => exact orMalformed_addr.2 ⟨a, rfl, rfl, rfl⟩
  | addrR a => exact orMalformed_addr.2 ⟨a, rfl, rfl, rfl⟩
  | dataW d => rfl
  | dataR more => exact orMalformed_flag.2 ⟨more, rfl, rfl, rfl⟩
  | init mode bus core =>
    exact orMalformed_flag.2 ⟨mode.bit, rfl, by rw [modeOf_bit, le32_bytes, le32_bytes], rfl⟩
  | read a r n => exact orMalformed_addr.2 ⟨a, rfl, by rw [Laws.Packet.le16_bytes], rfl⟩
  | write a r bytes =>
    have hlen : bytes.length = (BitVec.ofNat 16 bytes.length).toNat :=
      (Nat.mod_eq_of_lt (of_decide_eq_true h)).symm
    rw [← Laws.Packet.le16_bytes (BitVec.ofNat 16 bytes.length)] at hlen
    exact (decodeOperands_write _ r rest hlen).trans (orMalformed_addr.2 ⟨a, rfl, rfl, rfl⟩)

/-- Operand bytes that decode to a command are its operand bytes (rules R88, R89, R91). The cases are numbered as
`decodeOperands` has them: the first ten are the commands in the order of rule R89, the rest wait for more bytes. -/
theorem decodeOperands_eq_command {op : Opcode} {bs rest : List Byte} {i : Instr}
    (h : decodeOperands op bs = .command i rest) :
    i.opcode = op ∧ i.wf = true ∧ bs = encodeOperands i ++ rest := by
  unfold decodeOperands at h
  split at h
  case h_1 | h_2 | h_3 | h_6 => cases h; exact ⟨rfl, rfl, rfl⟩
  case h_4 | h_5 => obtain ⟨a, rfl, rfl, rfl⟩ := orMalformed_addr.1 h; exact ⟨rfl, rfl, rfl⟩
  case h_7 => obtain ⟨m, rfl, rfl, rfl⟩ := orMalformed_flag.1 h; exact ⟨rfl, rfl, rfl⟩
  case h_8 =>
    obtain ⟨m, rfl, rfl, rfl⟩ := orMalformed_flag.1 h
    exact ⟨rfl, rfl, by simp [encodeOperands]⟩
  case h_9 =>
    obtain ⟨a, rfl, rfl, rfl⟩ := orMalformed_addr.1 h
    exact ⟨rfl, rfl, by simp [encodeOperands]⟩
  case h_10 a r lo hi tail =>
    split at h
    case isTrue => cases h
    case isFalse harrived =>
      obtain ⟨a, rfl, rfl, rfl⟩ := orMalformed_addr.1 h
      have hlen : (tail.take (le16 lo hi).toNat).length = (le16 lo hi).toNat :=
        List.length_take_of_le (Nat.le_of_not_lt harrived)
      refine ⟨rfl, decide_eq_true ?_, ?_⟩
      · rw [hlen]; exact (le16 lo hi).isLt
      · simp [encodeOperands, hlen]
  all_goals cases h

/-- The packet of a command decodes to it, whatever follows (rules R88, R89, R92). -/
theorem decode_encode {i : Instr} (rest : List Byte) (h : i.wf = true) : decode (encode i ++ rest) = .command i rest :=
  (decode_cons (Opcode.ofByte_eq_some.2 rfl) _).trans (decodeOperands_encodeOperands rest h)

/-- Bytes that decode to a command are its packet and what follows (rules R88, R89, R91). -/
theorem decode_eq_command {bs rest : List Byte} {i : Instr} (h : decode bs = .command i rest) :
    i.wf = true ∧ bs = encode i ++ rest := by
  cases bs with
  | nil => cases h
  | cons b bs =>
    cases ho : Opcode.ofByte b with
    | none => rw [decode_reserved ho] at h; cases h
    | some op =>
      rw [decode_cons ho] at h
      obtain ⟨hop, hwf, rfl⟩ := decodeOperands_eq_command h
      subst hop
      exact ⟨hwf, by rw [Opcode.ofByte_eq_some.1 ho, encode, List.cons_append]⟩

end Sys2Proof

namespace Sys2Proof.Machine

/-! ### What a step does with the command port, the reset input released -/

section
variable {s : State} (released : s.env.resetLine = false)
include released

theorem step_command {i : Instr} {rest : List Byte} (h : decode s.port = .command i rest) :
    step s = exec i (s.consume rest) := by
  simp [step, nextAction, released, h]

theorem step_reserved {b : Byte} {rest : List Byte} (h : decode s.port = .reserved b rest) :
    step s = .next ((s.consume rest).reject none) := by
  simp [step, nextAction, released, h]

theorem step_malformed {op : Opcode} {rest : List Byte} (h : decode s.port = .malformed op rest) :
    step s = .next ((s.consume rest).reject (some op)) := by
  simp [step, nextAction, released, h]

theorem step_incomplete (h : decode s.port = .incomplete) : step s = .next s.idle := by
  simp [step, nextAction, released, h]

/-- A whole packet whose address operand has its top bit set (rule R91). -/
theorem step_malformedAddr {bs rest : List Byte} {op : Opcode} {x : Byte} {f : Addr7 → Instr} (hport : s.port = bs)
    (hx : 0x80 ≤ x) (h : decode bs = orMalformed op ((addrOperand x).map f) rest) :
    step s = .next ((s.consume rest).reject (some op)) := by
  rw [addrOperand_eq_none.2 hx] at h
  exact step_malformed released (hport ▸ h)

/-- A whole packet whose one-bit operand has a bit above bit 0 set (rule R91). -/
theorem step_malformedFlag {bs rest : List Byte} {op : Opcode} {x : Byte} {f : Bool → Instr} (hport : s.port = bs)
    (hx : 0x02 ≤ x) (h : decode bs = orMalformed op ((flagOperand x).map f) rest) :
    step s = .next ((s.consume rest).reject (some op)) := by
  rw [flagOperand_eq_none.2 hx] at h
  exact step_malformed released (hport ▸ h)

end

/-! ### The address frame -/

theorem frame_toNat (a : Addr7) (d : Direction) : (frame a d).toNat = a.toNat <<< 1 ||| d.bit.toNat := by
  rw [frame, BitVec.toNat_or, zeroExtend_shiftLeft_toNat a (by decide)]

/-- The write frame is the address and a 0 below it (rules R80, R81). -/
theorem frame_write (a : Addr7) : frame a .write = writeFrame a :=
  BitVec.eq_of_toNat_eq (by rw [frame_toNat, writeFrame, BitVec.toNat_append]; rfl)

/-- The read frame is the address and a 1 below it (rules R80, R81). -/
theorem frame_read (a : Addr7) : frame a .read = readFrame a :=
  BitVec.eq_of_toNat_eq (by rw [frame_toNat, readFrame, BitVec.toNat_append]; rfl)

/-! ### The wires -/

/-- Open drain: SDA is high exactly when no device pulls it (rule R93). -/
theorem levels_sda {devices : List Pull} : (levels devices).sda = true ↔ ∀ p ∈ devices, p.sda = false := by
  simp [levels]

/-- A byte is sampled as its bits and then the acknowledge bit, low for ACK (rules R64, R93). -/
theorem sampled_tx (b : Byte) (k : Ack) : sampled (Sym.wire (.tx b k)) = msbFirst b ++ [!ackLow k] := by
  rw [sampled_wire, Sym.instants, clockHigh_byte]
  simp [Function.comp_def]

end Sys2Proof.Machine

open Sys2Proof Sys2Proof.Machine

/-- Settles O7: the opcode byte names the command, and each of its operands reads back. -/
theorem decodeInvertsEncode : Obligations.DecodeInvertsEncode := fun _ rest h => decode_encode rest h

/-- Settles O8, by the cases of the decoder that answer a command: each operand byte it accepts is the encoder's. -/
theorem decodedPacketIsTheEncoding : Obligations.DecodedPacketIsTheEncoding := fun _ _ _ h => decode_eq_command h

/-- Settles O9: no opcode has such a byte, so the decoder consumes it alone. -/
theorem reservedOpcodeRejected : Obligations.ReservedOpcodeRejected := by
  intro s b rest released hport hb
  have hd : decode s.port = .reserved b rest := by rw [hport, decode_reserved (Opcode.ofByte_reserved hb)]
  exact step_reserved released hd

/-- Settles O10: in each packet the operand byte is malformed, and the decoder has consumed the packet whole. -/
theorem malformedOperandRejected : Obligations.MalformedOperandRejected := by
  intro s x y lo hi b0 b1 b2 b3 c0 c1 c2 c3 rest released
  refine ⟨?addressed, ?flagged, ?read, ?write⟩
  case addressed =>
    rintro hx (hport | hport) <;> exact step_malformedAddr released hport hx rfl
  case flagged =>
    rintro hx (hport | hport) <;> exact step_malformedFlag released hport hx rfl
  case read =>
    intro hx hport
    exact step_malformedAddr released hport hx rfl
  case write =>
    intro payload hlen hx hport
    have hfield : payload.length = (le16 lo hi).toNat := by rw [le16_toNat]; omega
    exact step_malformedAddr released hport hx (decodeOperands_write x y rest hfield)

/-- Settles O6, by running the decoder on each of the ten packets. -/
theorem decodesSpecPackets : Obligations.DecodesSpecPackets :=
  ⟨rfl, rfl, rfl, rfl, rfl, rfl, rfl, rfl, rfl, rfl⟩

/-- Settles O11, by the command the port holds. -/
theorem stepRunsDecodedCommand : Obligations.StepRunsDecodedCommand :=
  fun _ _ _ released h => step_command released h

/-- Settles O12: the step is idle, which is one gap, or reset where the gap asserts it. -/
theorem incompletePacketWaits : Obligations.IncompletePacketWaits := by
  intro s released hd
  have hstep := step_incomplete released hd
  refine ⟨fun hreset => ?_, fun hreset => ?_⟩
  · have hidle : s.idle = s.abandon := if_pos hreset
    have hpause : pause s = .abandoned s.abandon := if_pos hreset
    exact ⟨s.abandon, hidle ▸ hstep, (pause_abandoned hpause).2⟩
  · have hidle : s.idle = gap s := if_neg (Bool.eq_false_iff.1 hreset)
    have f := gap_frame s
    exact ⟨gap s, hidle ▸ hstep, rfl, f.port, f.response, f.seq, f.err, f.cnt, f.inited, f.mode, f.brr, f.ps, f.ea, f.sta,
      f.en, f.ie, f.addr, f.reg, f.count, f.txbuf, f.data, f.more, f.fBus, f.fCore, f.rxbuf, f.rxlen, f.cfg, f.gie⟩

/-- Settles O13: a frame is the address with the direction bit put below it. -/
theorem addressFrameBits : Obligations.AddressFrameBits := by
  intro a
  rw [frame_write, frame_read]
  exact ⟨BitVec.extractLsb'_append_eq_left, BitVec.getLsbD_append, BitVec.extractLsb'_append_eq_left,
    BitVec.getLsbD_append⟩

/-- Settles O14, by the bits each pattern names, at the default positions. -/
theorem defaultPatternBytes : Obligations.DefaultPatternBytes :=
  ⟨rfl, rfl, rfl, rfl, rfl, rfl, rfl, rfl, rfl, rfl⟩

/-- Settles O16, by the nine instants of a byte at which SCL is high: eight of its transmitter and one of its receiver. -/
theorem byteOnTheWires : Obligations.ByteOnTheWires := by
  intro b k bits tx rx
  have htx : tx = bits.map (fun bit => instant false .controller (!bit)) ++ [instant false .slave (ackLow k)] :=
    clockHigh_byte .controller b k
  have hrx : rx = bits.map (fun bit => instant false .slave (!bit)) ++ [instant false .controller (ackLow k)] :=
    clockHigh_byte .slave b k
  have hack : ackLow k = decide (k = .ack) := by cases k <;> rfl
  have hnack : (!ackLow k) = decide (k = .nack) := by cases k <;> rfl
  rw [htx, hrx, hack]
  refine ⟨?_, byte_lines .slave b k, rfl, rfl, rfl, rfl, ?_, changesWhileLow_byte .controller b k, ?_⟩
  · exact (sampled_tx b k).trans (by rw [msbFirst_eq, hnack])
  · intro i hi
    rcases List.mem_append.1 hi with hi | hi
    · exact byte_slave_scl .controller b k i hi
    · exact byte_slave_scl .slave b k i hi
  · intro i devices hi
    rw [List.getLast?_concat] at hi
    cases hi
    rw [levels_sda, List.forall_mem_cons]
    exact and_iff_right rfl
end

section
/-!
What the polling realization does not read (rules R110, R113). `ApartInLatch` relates two states that differ in LATCH
alone, in one realization; every building block of a command takes such states to alike outcomes, and only the samples of
a wait need that the realization is polling.
-/
namespace Sys2Proof.Machine

/-! ### Two runs that differ in LATCH -/

/-- The state with another value in LATCH. -/
def State.withLatch (s : State) (w : Byte) : State := { s with latch := w }

@[simp] theorem withLatch_cfg (s : State) (w : Byte) : (s.withLatch w).cfg = s.cfg := rfl
@[simp] theorem withLatch_code (s : State) (w : Byte) (st : BusStatus) : (s.withLatch w).code st = s.code st := rfl

/-- `t` is `s` but for LATCH. -/
def SameButLatch (s t : State) : Prop := ∃ w, t = s.withLatch w

/-- Two states of realization `m` that differ in LATCH alone. -/
def ApartInLatch (m : Mode) (s t : State) : Prop := s.mode = m ∧ SameButLatch s t

/-- Two answers of a primitive in the polling realization: one result, and such states. -/
def AnswersApart (a b : ResultKind × State) : Prop := a.1 = b.1 ∧ ApartInLatch .poll a.2 b.2

/-- Two outcomes of one part of a command, the answers related by `R`. -/
inductive PartResult.Alike {α : Type} (R : α → α → Prop) : PartResult α → PartResult α → Prop where
  | next {a b : α} (h : R a b) : Alike R (.next a) (.next b)
  | abandoned {t u : State} (h : SameButLatch t u) : Alike R (.abandoned t) (.abandoned u)
  | refused (x : Refusal) : Alike R (.refused x) (.refused x)

/-- Two outcomes of one command or register write whose states differ in LATCH alone. -/
inductive ResultsAlike : Result State → Result State → Prop where
  | next {t u : State} (h : SameButLatch t u) : ResultsAlike (.next t) (.next u)
  | refused (x : Refusal) : ResultsAlike (.refused x) (.refused x)

/-- A part of a command that takes states apart in LATCH alone to alike outcomes. -/
def IgnoresLatch {α : Type} (m : Mode) (R : α → α → Prop) (f : State → PartResult α) : Prop :=
  ∀ s t, ApartInLatch m s t → (f s).Alike R (f t)

/-- A primitive in the polling realization. -/
def PrimIgnoresLatch (p : Primitive) : Prop := IgnoresLatch .poll AnswersApart p

/-- The last part of a command, of whose answer only the state counts. -/
def EndsAlike (m : Mode) (f : State → PartResult State) : Prop := IgnoresLatch m SameButLatch f

theorem PartResult.Alike.bind {α β : Type} {R : α → α → Prop} {Q : β → β → Prop} {o o' : PartResult α}
    {f g : α → PartResult β} (h : o.Alike R o') (hf : ∀ a b, R a b → (f a).Alike Q (g b)) :
    (andThen o f).Alike Q (andThen o' g) := by
  cases h with
  | next h => exact hf _ _ h
  | abandoned h => exact .abandoned h
  | refused x => exact .refused x

theorem PartResult.Alike.outcome {o o' : PartResult State} (h : o.Alike SameButLatch o') :
    ResultsAlike o.outcome o'.outcome := by
  cases h with
  | next h => exact .next h
  | abandoned h => exact .next h
  | refused x => exact .refused x

theorem resultsAlike_refl (o : Result State) : ResultsAlike o o := by
  cases o with
  | next t => exact .next ⟨t.latch, rfl⟩
  | fault r => cases r
  | refused x => exact .refused x

theorem ResultsAlike.of_next {o o' : Result State} (h : ResultsAlike o o') {t : State} (ho : o = .next t) :
    ∃ w, o' = .next (t.withLatch w) := by
  cases h with
  | next h =>
    obtain ⟨w, rfl⟩ := h
    cases ho
    exact ⟨w, rfl⟩
  | refused x => cases ho

theorem ResultsAlike.of_refused {o o' : Result State} (h : ResultsAlike o o') {x : Refusal} (ho : o = .refused x) :
    o' = .refused x := by
  cases h with
  | next h => cases ho
  | refused y => exact ho

/-- An update of other fields keeps two states apart in LATCH alone. -/
theorem ApartInLatch.update {m m' : Mode} {s t : State} (h : ApartInLatch m s t) {f : State → State}
    (hmode : s.mode = m → (f s).mode = m') (hf : ∀ s w, f (s.withLatch w) = (f s).withLatch w) :
    ApartInLatch m' (f s) (f t) := by
  obtain ⟨hm, w, rfl⟩ := h
  exact ⟨hmode hm, w, hf s w⟩

/-- A part after such an update. -/
theorem IgnoresLatch.after {α : Type} {m m' : Mode} {R : α → α → Prop} {p : State → PartResult α}
    (hp : IgnoresLatch m' R p) {f : State → State} (hmode : ∀ s, s.mode = m → (f s).mode = m')
    (hf : ∀ s w, f (s.withLatch w) = (f s).withLatch w) : IgnoresLatch m R fun s => p (f s) :=
  fun s _ h => hp _ _ (h.update (hmode s) hf)

/-- Two runs that take the same branch. -/
theorem related_ite {α β : Type} {R : α → β → Prop} {c c' : Prop} [Decidable c] [Decidable c'] (hc : c ↔ c') {a b : α}
    {a' b' : β} (ha : c → R a a') (hb : ¬c → R b b') : R (if c then a else b) (if c' then a' else b') := by
  by_cases h : c
  · rw [if_pos h, if_pos (hc.1 h)]
    exact ha h
  · rw [if_neg h, if_neg (mt hc.2 h)]
    exact hb h

/-! ### What stands before a micro-step -/

theorem engineStep_disabled (k : Ack) (d : Byte) {s : State} (h : s.cr.en = false) : engineStep k d s = s := by
  unfold engineStep
  split
  · rfl
  · rw [h]; rfl

theorem engineStep_withLatch (k : Ack) (d : Byte) (s : State) (w : Byte) :
    engineStep k d (s.withLatch w) = (engineStep k d s).withLatch w := by
  cases hen : s.cr.en with
  | false => rw [engineStep_disabled k d hen, engineStep_disabled k d (s := s.withLatch w) hen]
  | true =>
    cases hp : s.pending with
    | none => rw [engineStep_none k d hp, engineStep_none k d (s := s.withLatch w) hp]
    | some e =>
      rw [engineStep_some k d hp hen, engineStep_some k d (s := s.withLatch w) hp hen]
      cases e <;> rfl

/-- No other agent reads LATCH; the capture step writes it (rule R112). -/
theorem envMove_sameButLatch (s : State) (w : Byte) (m : EnvMove) :
    SameButLatch (envMove s m) (envMove (s.withLatch w) m) := by
  cases m with
  | complete k d => exact ⟨w, engineStep_withLatch k d s w⟩
  | stopDone => exact ⟨w, rfl⟩
  | capture =>
    unfold envMove captureStep
    exact related_ite (R := SameButLatch) Iff.rfl (fun _ => ⟨s.maskedStatus, rfl⟩) fun _ => ⟨w, rfl⟩
  | setGie on =>
    unfold envMove setGieStep
    exact related_ite (R := SameButLatch) Iff.rfl (fun _ => ⟨w, rfl⟩) fun _ => ⟨w, rfl⟩
  | reset => exact ⟨w, rfl⟩

theorem moves_sameButLatch (g : Gap) (s : State) (w : Byte) :
    SameButLatch (g.foldl envMove s) (g.foldl envMove (s.withLatch w)) := by
  induction g generalizing s w with
  | nil => exact ⟨w, rfl⟩
  | cons m g ih =>
    obtain ⟨w', h⟩ := envMove_sameButLatch s w m
    rw [List.foldl_cons, List.foldl_cons, h]
    exact ih _ w'

theorem pause_ignoresLatch (m : Mode) : IgnoresLatch m (ApartInLatch m) pause := by
  rintro s _ ⟨hm, w, rfl⟩
  have hgap : SameButLatch (gap s) (gap (s.withLatch w)) :=
    moves_sameButLatch s.env.nextGap { s with env := s.env.afterGap } w
  exact related_ite Iff.rfl (fun _ => .abandoned ⟨_, rfl⟩) fun _ => .next ⟨(gap_frame s).mode.trans hm, hgap⟩

/-! ### Register writes -/

/-- A register write as a part of a command. -/
theorem ofResult_alike {m : Mode} {s : State} {o o' : Result State} (hs : s.mode = m)
    (hm : ∀ t, o = .next t → t.mode = s.mode) (h : ResultsAlike o o') :
    (PartResult.ofResult o).Alike (ApartInLatch m) (PartResult.ofResult o') := by
  cases h with
  | next h => exact .next ⟨(hm _ rfl).trans hs, h⟩
  | refused x => exact .refused x

/-- A control-register write reads no LATCH, and with INTC overwrites it (rule R113). -/
theorem regWriteCR_alike (v : Byte) (s : State) (w : Byte) :
    ResultsAlike (regWriteCR v s) (regWriteCR v (s.withLatch w)) := by
  refine related_ite Iff.rfl (fun _ => ?_) fun _ => .refused _
  exact related_ite Iff.rfl (fun _ => resultsAlike_refl (launchByControl _ (s.storeEnables _).clearInterrupt)) fun _ =>
    .next ⟨w, rfl⟩

theorem regWriteDR_alike (v : Byte) (s : State) (w : Byte) :
    ResultsAlike (regWriteDR v s) (regWriteDR v (s.withLatch w)) :=
  related_ite Iff.rfl (fun _ => .refused _) fun _ => .next ⟨w, rfl⟩

theorem controlStep_ignoresLatch (m : Mode) (pattern : Layout → Mode → Byte) :
    IgnoresLatch m (ApartInLatch m) (controlStep pattern) := by
  refine fun s t h => (pause_ignoresLatch m s t h).bind ?_
  rintro u _ ⟨hm, w, rfl⟩
  exact ofResult_alike hm (fun _ h => (regWriteCR_prim h).mode) (regWriteCR_alike _ u w)

theorem stopBusPrim_ignoresLatch (m : Mode) : IgnoresLatch m (ApartInLatch m) stopBusPrim :=
  controlStep_ignoresLatch m patStop

theorem loadStep_ignoresLatch (m : Mode) (v : Byte) : IgnoresLatch m (ApartInLatch m) (loadStep v) := by
  refine fun s t h => (pause_ignoresLatch m s t h).bind ?_
  rintro u _ ⟨hm, w, rfl⟩
  exact ofResult_alike hm (fun _ h => (regWriteDR_prim h).mode) (regWriteDR_alike _ u w)

/-! ### The wait and the primitives -/

/-- In the polling realization a sample reads SR, not LATCH (rule R110). -/
theorem current_polling {s : State} (h : s.mode = .poll) : s.current = s.maskedStatus := by
  simp [State.current, h]

theorem current_withLatch {s : State} (h : s.mode = .poll) (w : Byte) : (s.withLatch w).current = s.current :=
  (current_polling (s := s.withLatch w) h).trans (current_polling h).symm

theorem classify_withLatch {s : State} (h : s.mode = .poll) (w : Byte) (nack : Sibling) :
    (s.withLatch w).classify nack = s.classify nack := by
  cases nack with
  | none => rfl
  | some p => simp only [State.classify, current_withLatch h, withLatch_cfg, withLatch_code]

theorem sampleLoop_ignoresLatch (target : BusStatus) (nack : Sibling) (n : Nat) :
    PrimIgnoresLatch (sampleLoop target nack n) := by
  induction n with
  | zero => exact fun s t h => .next ⟨rfl, h⟩
  | succ n ih =>
    refine fun s t h => (pause_ignoresLatch .poll s t h).bind ?_
    rintro u _ ⟨hm, w, rfl⟩
    have htarget : u.current = u.code target ↔ (u.withLatch w).current = (u.withLatch w).code target := by
      rw [current_withLatch hm, withLatch_code]
    refine related_ite htarget (fun _ => .next ⟨rfl, hm, w, rfl⟩) fun _ => ?_
    rw [classify_withLatch hm]
    cases u.classify nack with
    | some e => exact .next ⟨rfl, hm, w, rfl⟩
    | none => exact ih _ _ ⟨hm, w, rfl⟩

theorem waitUntil_ignoresLatch (target : BusStatus) (nack : Sibling) : PrimIgnoresLatch (waitUntil target nack) := by
  rintro s _ ⟨hm, w, rfl⟩
  exact sampleLoop_ignoresLatch target nack _ _ _ ⟨hm, w, rfl⟩

theorem controlAndWait_ignoresLatch (pattern : Layout → Mode → Byte) (target : BusStatus) (nack : Sibling) :
    PrimIgnoresLatch (controlAndWait pattern target nack) :=
  fun s t h => (controlStep_ignoresLatch .poll pattern s t h).bind (waitUntil_ignoresLatch target nack)

theorem addrPrim_ignoresLatch (d : Direction) : PrimIgnoresLatch (addrPrim d) := by
  rintro s _ ⟨hm, w, rfl⟩
  exact (loadStep_ignoresLatch .poll _ _ _ ⟨hm, w, rfl⟩).bind (controlAndWait_ignoresLatch _ _ _)

theorem dataWPrim_ignoresLatch (b : Byte) : PrimIgnoresLatch (dataWPrim b) :=
  fun s t h => (loadStep_ignoresLatch .poll b s t h).bind (controlAndWait_ignoresLatch _ _ _)

theorem receivePrim_ignoresLatch (more : Bool) : PrimIgnoresLatch (receivePrim more) := by
  cases more <;> exact controlAndWait_ignoresLatch _ _ _

theorem dataRPrim_ignoresLatch (more : Bool) : PrimIgnoresLatch (dataRPrim more) := by
  refine fun s t h => (receivePrim_ignoresLatch more s t h).bind ?_
  rintro ⟨r, u⟩ ⟨_, v⟩ ⟨rfl, h⟩
  cases r with
  | ok => exact (pause_ignoresLatch .poll u v h).bind fun _ _ h => .next ⟨rfl, h⟩
  | timeout | addressNack | dataNack | precondition => exact .next ⟨rfl, h⟩

/-! ### READ and WRITE -/

theorem gated_alike {o o' : PartResult (ResultKind × State)} {f : Primitive} (ho : o.Alike AnswersApart o')
    (hf : PrimIgnoresLatch f) : (gated o f).Alike AnswersApart (gated o' f) := by
  refine ho.bind ?_
  rintro ⟨r, u⟩ ⟨_, v⟩ ⟨rfl, h⟩
  cases r with
  | ok => exact hf u v h
  | timeout | addressNack | dataNack | precondition => exact .next ⟨rfl, h⟩

theorem atStepRun_ignoresLatch (st : SeqStep) {p : Primitive} (hp : PrimIgnoresLatch p) :
    PrimIgnoresLatch (atStepRun st p) :=
  IgnoresLatch.after hp (f := (·.atStep st)) (fun _ h => h) fun _ _ => rfl

theorem selectRegister_ignoresLatch (s1 s2 s3 : SeqStep) : PrimIgnoresLatch (selectRegister s1 s2 s3) := by
  refine fun s t h => gated_alike (atStepRun_ignoresLatch s1 (controlAndWait_ignoresLatch _ _ _) s t h) fun s t h => ?_
  refine gated_alike (atStepRun_ignoresLatch s2 (addrPrim_ignoresLatch .write) s t h) ?_
  rintro s _ ⟨hm, w, rfl⟩
  exact atStepRun_ignoresLatch s3 (dataWPrim_ignoresLatch s.reg) s _ ⟨hm, w, rfl⟩

theorem readOne_ignoresLatch (st : SeqStep) (more : Bool) : PrimIgnoresLatch (readOne st more) := fun s t h =>
  gated_alike (atStepRun_ignoresLatch st (dataRPrim_ignoresLatch more) s t h) fun _ _ h =>
    .next ⟨rfl, h.update (f := State.appendByte) id fun _ _ => rfl⟩

theorem readMore_ignoresLatch (n : Nat) : PrimIgnoresLatch (readMore n) := by
  induction n with
  | zero => exact fun s t h => .next ⟨rfl, h⟩
  | succ n ih => exact fun s t h => gated_alike (readOne_ignoresLatch .rd6 true s t h) ih

theorem readBody_ignoresLatch : PrimIgnoresLatch readBody := by
  refine fun s t h => gated_alike (selectRegister_ignoresLatch _ _ _ s t h) fun s t h => ?_
  refine gated_alike (atStepRun_ignoresLatch .rd4 (controlAndWait_ignoresLatch _ _ _) s t h) fun s t h => ?_
  refine gated_alike (atStepRun_ignoresLatch .rd5 (addrPrim_ignoresLatch .read) s t h) ?_
  rintro s _ ⟨hm, w, rfl⟩
  exact gated_alike (readMore_ignoresLatch (s.count.toNat - 1) s _ ⟨hm, w, rfl⟩) (readOne_ignoresLatch .rd7 false)

theorem writeBytes_ignoresLatch (bs : List Byte) : PrimIgnoresLatch (writeBytes bs) := by
  induction bs with
  | nil => exact fun s t h => .next ⟨rfl, h⟩
  | cons b bs ih =>
    exact fun s t h => gated_alike (atStepRun_ignoresLatch .wr4 (dataWPrim_ignoresLatch b) s t h)
      (IgnoresLatch.after ih (f := State.nextIndex) (fun _ h => h) fun _ _ => rfl)

theorem writeBody_ignoresLatch : PrimIgnoresLatch writeBody := by
  refine fun s t h => gated_alike (selectRegister_ignoresLatch _ _ _ s t h) ?_
  rintro s _ ⟨hm, w, rfl⟩
  exact writeBytes_ignoresLatch s.txbuf s _ ⟨hm, w, rfl⟩

/-- One STOP and then an update of other fields. -/
theorem stopThen_endsAlike {f : State → State} (hf : ∀ s w, f (s.withLatch w) = (f s).withLatch w) (m : Mode)
    (st : SeqStep) : EndsAlike m fun s => andThen (stopBusPrim (s.atStep st)) fun s => .next (f s) := by
  refine IgnoresLatch.after (f := (·.atStep st)) (fun s t h => (stopBusPrim_ignoresLatch m s t h).bind ?_)
    (fun _ h => h) fun _ _ => rfl
  rintro u _ ⟨-, w, rfl⟩
  exact .next ⟨w, hf u w⟩

theorem runTransaction_endsAlike {body : Primitive} (hb : PrimIgnoresLatch body) (done failed : SeqStep)
    {drop deliver : State → State} (hd : ∀ s w, drop (s.withLatch w) = (drop s).withLatch w)
    (hl : ∀ s w, deliver (s.withLatch w) = (deliver s).withLatch w) :
    EndsAlike .poll (runTransaction body done failed drop deliver) := by
  have hfail : ∀ r s w, (drop (s.withLatch w)).finish r [] = ((drop s).finish r []).withLatch w := fun r s w => by
    rw [hd]; rfl
  refine fun s t h => (hb s t h).bind ?_
  rintro ⟨r, u⟩ ⟨_, v⟩ ⟨rfl, h⟩
  cases r with
  | ok => exact stopThen_endsAlike hl .poll done u v h
  | timeout | addressNack | dataNack | precondition => exact stopThen_endsAlike (hfail _) .poll failed u v h

/-! ### Whole commands -/

/-- The checks before a command read no LATCH (rules R170, R183, R255). -/
theorem guarded_alike (op : Opcode) {m : Mode} {go : State → PartResult State} (h : EndsAlike m go) {s : State}
    (hm : s.mode = m) (w : Byte) : ResultsAlike (guarded op s go) (guarded op (s.withLatch w) go) :=
  related_ite Iff.rfl (fun _ => .refused _) fun _ =>
  related_ite Iff.rfl (fun _ => (h _ _ ⟨hm, w, rfl⟩).outcome) fun _ => .next ⟨w, rfl⟩

/-- A primitive as a command, its operand register loaded by `load`. -/
theorem primitiveCommand_alike (op : Opcode) {p : Primitive} (hp : PrimIgnoresLatch p)
    {after : ResultKind → State → List Byte} (ha : ∀ r s w, after r (s.withLatch w) = after r s) {load : State → State}
    (hmode : ∀ s, (load s).mode = s.mode) (hload : ∀ s w, load (s.withLatch w) = (load s).withLatch w) {s : State}
    (hm : s.mode = .poll) (w : Byte) :
    ResultsAlike (guarded op s fun s => runPrimitive p after (load s))
      (guarded op (s.withLatch w) fun s => runPrimitive p after (load s)) := by
  have hrun : EndsAlike .poll (runPrimitive p after) := by
    refine fun s t h => (hp s t h).bind ?_
    rintro ⟨r, u⟩ ⟨_, _⟩ ⟨rfl, -, w, rfl⟩
    refine .next ⟨w, ?_⟩
    rw [ha]; rfl
  exact guarded_alike op (hrun.after (fun s h => (hmode s).trans h) hload) hm w

theorem stopCommand_endsAlike :
    EndsAlike .poll fun s => andThen (stopBusPrim (s.begin .stop)) fun s => .next (s.finish .ok []) := by
  refine IgnoresLatch.after (f := (·.begin .stop)) (fun s t h => (stopBusPrim_ignoresLatch .poll s t h).bind ?_)
    (fun _ h => h) fun _ _ => rfl
  rintro u _ ⟨-, w, rfl⟩
  exact .next ⟨w, rfl⟩

theorem enableInterrupts_ignoresLatch (m : Mode) : IgnoresLatch m (ApartInLatch m) (enableInterrupts m) := by
  cases m with
  | poll => exact fun s t h => .next h
  | irq =>
    exact fun s t h => (pause_ignoresLatch .irq s t h).bind fun u v h =>
      .next (h.update (f := fun s => { s with gie := true }) id fun _ _ => rfl)

/-- INIT takes no sample, so it may change MODE (rules R200, R206). -/
theorem initBody_endsAlike (before m : Mode) : EndsAlike before (initBody m) := by
  refine fun s t h => (pause_ignoresLatch before s t h).bind fun s t h => ?_
  refine ((pause_ignoresLatch before).after (f := State.setDivisor) (fun _ h => h) (fun _ _ => rfl) s t h).bind
    fun s t h => ?_
  refine ((pause_ignoresLatch before).after (f := State.setPrescaler) (fun _ h => h) (fun _ _ => rfl) s t h).bind
    fun s t h => ?_
  refine ((controlStep_ignoresLatch m patEnable).after (f := (·.setMode m)) (fun _ _ => rfl) (fun _ _ => rfl)
    s t h).bind fun s t h => ?_
  refine (enableInterrupts_ignoresLatch m s t h).bind fun s t h => ?_
  refine (pause_ignoresLatch m s t h).bind ?_
  rintro u _ ⟨-, w, rfl⟩
  exact .next ⟨w, rfl⟩

theorem execInit_alike (m : Mode) (bus core : Hertz) (s : State) (w : Byte) :
    ResultsAlike (execInit m bus core s) (execInit m bus core (s.withLatch w)) := by
  refine related_ite Iff.rfl (fun _ => .refused _) fun _ => ?_
  refine related_ite Iff.rfl (fun _ => .refused _) fun _ => ?_
  refine related_ite Iff.rfl (fun _ => .next ⟨w, rfl⟩) fun _ => ?_
  exact ((initBody_endsAlike s.mode m).after (f := fun s => { s.begin .init with fBus := bus, fCore := core })
    (fun _ h => h) (fun _ _ => rfl) s _ ⟨rfl, w, rfl⟩).outcome

theorem readCommand_endsAlike (a : Addr7) (r : Byte) (n : Half) :
    EndsAlike .poll fun s =>
      if n = 0 then .next (s.reject (some .read))
      else if s.cfg.maxLen < n then .next (s.reject (some .read))
      else runTransaction readBody .rd8 .rdf State.dropRead State.deliverRead (s.beginRead a r n) := by
  rintro s _ ⟨hm, w, rfl⟩
  refine related_ite Iff.rfl (fun _ => .next ⟨w, rfl⟩) fun _ => ?_
  refine related_ite Iff.rfl (fun _ => .next ⟨w, rfl⟩) fun _ => ?_
  exact (runTransaction_endsAlike readBody_ignoresLatch .rd8 .rdf (fun _ _ => rfl) (fun _ _ => rfl)).after
    (f := (·.beginRead a r n)) (fun _ h => h) (fun _ _ => rfl) s _ ⟨hm, w, rfl⟩

theorem writeCommand_endsAlike (a : Addr7) (r : Byte) (bytes : List Byte) :
    EndsAlike .poll fun s =>
      if s.cfg.maxLen.toNat < bytes.length then .next (s.reject (some .write))
      else runTransaction writeBody .wr5 .wrf keepBuffers State.deliverWrite (s.beginWrite a r bytes) := by
  rintro s _ ⟨hm, w, rfl⟩
  refine related_ite Iff.rfl (fun _ => .next ⟨w, rfl⟩) fun _ => ?_
  exact (runTransaction_endsAlike writeBody_ignoresLatch .wr5 .wrf (fun _ _ => rfl) (fun _ _ => rfl)).after
    (f := (·.beginWrite a r bytes)) (fun _ h => h) (fun _ _ => rfl) s _ ⟨hm, w, rfl⟩

/-- Every command begun in the polling realization, INIT into the interrupt one included. -/
theorem exec_alike (i : Instr) {s : State} (hm : s.mode = .poll) (w : Byte) :
    ResultsAlike (exec i s) (exec i (s.withLatch w)) := by
  have hnone : ∀ r s w, noPayload r (s.withLatch w) = noPayload r s := fun _ _ _ => rfl
  have hbyte : ∀ r s w, readByte r (s.withLatch w) = readByte r s := fun r _ _ => by cases r <;> rfl
  cases i with
  | start =>
    exact primitiveCommand_alike .start (controlAndWait_ignoresLatch _ _ _) hnone (load := (·.begin .start))
      (fun _ => rfl) (fun _ _ => rfl) hm w
  | restart =>
    exact primitiveCommand_alike .restart (controlAndWait_ignoresLatch _ _ _) hnone (load := (·.begin .restart))
      (fun _ => rfl) (fun _ _ => rfl) hm w
  | stop => exact guarded_alike .stop stopCommand_endsAlike hm w
  | addrW a =>
    exact primitiveCommand_alike .addrW (addrPrim_ignoresLatch .write) hnone
      (load := fun s => { s.begin .addrW with addr := a }) (fun _ => rfl) (fun _ _ => rfl) hm w
  | addrR a =>
    exact primitiveCommand_alike .addrR (addrPrim_ignoresLatch .read) hnone
      (load := fun s => { s.begin .addrR with addr := a }) (fun _ => rfl) (fun _ _ => rfl) hm w
  | dataW d =>
    exact primitiveCommand_alike .dataW (dataWPrim_ignoresLatch d) hnone
      (load := fun s => { s.begin .dataW with data := d }) (fun _ => rfl) (fun _ _ => rfl) hm w
  | dataR more =>
    exact primitiveCommand_alike .dataR (dataRPrim_ignoresLatch more) hbyte
      (load := fun s => { s.begin .dataR with more := more }) (fun _ => rfl) (fun _ _ => rfl) hm w
  | init mode bus core => exact execInit_alike mode bus core s w
  | read a r n => exact guarded_alike .read (readCommand_endsAlike a r n) hm w
  | write a r bytes => exact guarded_alike .write (writeCommand_endsAlike a r bytes) hm w

end Sys2Proof.Machine

open Sys2Proof Sys2Proof.Machine

/-- Settles O58: each part of a command takes two states that differ in LATCH alone to such states, or stops alike. -/
theorem pollingIgnoresLatch : Obligations.PollingIgnoresLatch := by
  intro i s v hm
  have h : ResultsAlike (exec i s) (exec i { s with latch := v }) := exec_alike i hm v
  exact ⟨fun _ ht => h.of_next ht, fun _ hx => h.of_refused hx⟩
end

section
/-!
The status latch and the timed wait (40_status_latch_and_wait.md): what the capture step copies (R112), what a control
write with INTC leaves of a status (R113), and how a wait ends (R115 to R119).
-/
namespace Sys2Proof.Machine

/-! ### The capture step -/

theorem captureEnabled_iff (s : State) :
    s.captureEnabled = true ↔ s.mode = .irq ∧ s.capPend = true ∧ s.cr.ie = true ∧ s.gie = true := by
  simp [State.captureEnabled, and_assoc]

theorem captureStep_enabled {s : State} (h : s.captureEnabled = true) : captureStep s = s.capture := if_pos h

theorem captureStep_disabled {s : State} (h : ¬ s.captureEnabled = true) : captureStep s = s := if_neg h

/-- A capture clears CAP_PEND, so none follows it (rule R112). -/
theorem capture_disables (s : State) : ¬ s.capture.captureEnabled = true := by
  rw [captureEnabled_iff]
  rintro ⟨-, hpend, -⟩
  cases hpend

/-- In the interrupt realization a sample reads LATCH (rule R111). -/
theorem current_latched {s : State} (h : s.mode = .irq) : s.current = s.latch := by
  simp [State.current, h]

/-- What is captured is the status the engine posted (rules R86, R142). -/
theorem BusInv.maskedStatus_posted {s : State} (h : BusInv s) (hpend : s.capPend = true) :
    s.maskedStatus = s.code s.phase :=
  h.maskedStatus.trans (h.set_posted (h.capture_pending_flag hpend))

/-! ### A control write with INTC -/

/-- No status is left to sample or to capture (rule R113). -/
structure StatusCleared (s : State) : Prop where
  latch : s.latch = s.code .idle
  status : s.sr.status = s.code .idle
  int : s.cr.int = false
  capPend : s.capPend = false

theorem clearInterrupt_cleared (s : State) : StatusCleared s.clearInterrupt := ⟨rfl, rfl, rfl, rfl⟩

theorem stopBus_cleared {s : State} (h : StatusCleared s) : StatusCleared s.stopBus := by
  unfold State.stopBus
  split <;> exact ⟨h.latch, h.status, h.int, h.capPend⟩

theorem launch_cleared {s : State} (h : StatusCleared s) (e : BusEvent) : StatusCleared (s.launch e) :=
  ⟨h.latch, h.status, h.int, h.capPend⟩

/-- Whatever a control write with INTC goes on to launch, it clears the status first (rules R113, R131). -/
theorem regWriteCR_cleared {v : Byte} {s t : State} (hint : v.getLsbD s.cfg.layout.crInt.val = true)
    (h : regWriteCR v s = .next t) : StatusCleared t := by
  obtain ⟨-, ⟨hno, -⟩ | ⟨-, -, -, rfl⟩ | ⟨-, -, -, rfl⟩ | ⟨-, -, -, e, -, rfl⟩⟩ := regWriteCR_cases h
  · exact absurd (hint.symm.trans hno) (by decide)
  · exact stopBus_cleared (clearInterrupt_cleared _)
  · exact launch_cleared (clearInterrupt_cleared _) _
  · exact launch_cleared (clearInterrupt_cleared _) _

/-- With the status cleared a sample is the idle code in both realizations (rules R110, R111). -/
theorem StatusCleared.current {s : State} (h : StatusCleared s) (hw : s.cfg.wf = true) : s.current = s.code .idle := by
  cases hm : s.mode with
  | poll =>
    have hmask : s.sr.status &&& s.cfg.statusMask = s.sr.status := by
      rw [h.status]
      exact code_masked hw .idle
    rw [current_polling hm, maskedStatus_eq hw hmask, h.status]
  | irq => rw [current_latched hm, h.latch]

/-! ### The wait -/

/-- A wait that ended before its last sample has counted to less than the budget (rule R116). -/
theorem cnt_lt_budget {b : Half} {j : Nat} (hj : j < b.toNat) : (0 : Half) + BitVec.ofNat 16 j < b := by
  have hb := b.isLt
  rw [BitVec.lt_def]
  simp only [BitVec.ofNat_eq_ofNat, BitVec.zero_add, BitVec.toNat_ofNat]
  omega

theorem cnt_at_budget (b : Half) : (0 : Half) + BitVec.ofNat 16 b.toNat = b := by simp

/-- A wait answers or is abandoned in reset (rules R115, R250). -/
theorem waitUntil_answers (target : BusStatus) (nack : Sibling) (s : State) :
    (∃ t, waitUntil target nack s = .abandoned t ∧ ResetMeanwhile s t) ∨
      ∃ r t, waitUntil target nack s = .next (r, t) := by
  cases h : waitUntil target nack s with
  | next a => exact .inr ⟨a.1, a.2, rfl⟩
  | abandoned t => exact .inl ⟨t, rfl, (waitUntil_runs target nack s).abandoned h⟩
  | refused x => exact absurd h sampleLoop_not_refused

/-- No sample is classified where NACK_CLASSIFY is off or the sibling does not show (rule R117). -/
theorem classify_eq_none {s : State} {nack : Sibling}
    (h : ∀ st e, nack = some (st, e) → s.cfg.nackClassify = false ∨ s.current ≠ s.code st) :
    s.classify nack = none := by
  rw [Option.eq_none_iff_forall_ne_some]
  intro e he
  obtain ⟨st, hn, hon, hshows⟩ := classify_some he
  rcases h st e hn with hoff | hdiffers
  · rw [hon] at hoff; cases hoff
  · exact hdiffers hshows

/-- A wait that meets no move and sees nothing it looks for runs out its budget (rules R115, R119). -/
theorem waitUntil_quiet {target : BusStatus} {nack : Sibling} {s : State} {rest : List Gap}
    (ht : s.current ≠ s.code target) (hn : s.classify nack = none)
    (hp : s.env.plan = quiet s.cfg.timeoutBudget.toNat ++ rest) :
    waitUntil target nack s =
      .next (.timeout, { s with cnt := s.cfg.timeoutBudget, env := { s.env with plan := rest } }) := by
  have h := sampleLoop_quiet target nack s.cfg.timeoutBudget.toNat 0 { s with cnt := 0 } rest hp ht hn
  rw [cnt_at_budget] at h
  exact h

end Sys2Proof.Machine

open Sys2Proof Sys2Proof.Machine

/-- Settles O23, by whether the capture step is enabled; CAP_PEND says that the flag is set and so what the status is. -/
theorem captureCopiesStatusOnce : Obligations.CaptureCopiesStatusOnce := by
  intro s
  rw [← captureEnabled_iff]
  refine ⟨fun hen => ?_, captureStep_disabled⟩
  obtain ⟨hm, hpend, -⟩ := (captureEnabled_iff s).1 hen
  rw [captureStep_enabled hen]
  exact ⟨rfl, captureStep_disabled (capture_disables s), fun hinv =>
    (current_latched (s := s.capture) hm).trans (hinv.maskedStatus_posted hpend)⟩

/-- Settles O24: the write clears the status before it launches anything, and a cleared status samples as idle. -/
theorem controlWriteInvalidatesStatus : Obligations.ControlWriteInvalidatesStatus := by
  intro s t v hw hint h
  have hcfg : t.cfg = s.cfg := (regWriteCR_prim h).cfg
  have c := regWriteCR_cleared hint h
  rw [← code_of_cfg hcfg]
  exact ⟨c.current (hcfg ▸ hw), c.latch, c.status, c.int, c.capPend⟩

/-- Settles O27, by the three ways a wait that answers can end. -/
theorem waitEndsWithinBudget : Obligations.WaitEndsWithinBudget := by
  intro s target nack hsibling
  refine (waitUntil_answers target nack s).imp_right fun ⟨r, t, h⟩ => ?_
  obtain ⟨-, hend⟩ := waitUntil_spec h
  refine ⟨r, t, h, hend.cnt_le, ?_⟩
  cases hend with
  | timeout hcnt => exact ⟨fun _ => hcnt.trans (cnt_at_budget _), nofun, fun _ hne => absurd rfl hne⟩
  | ok j hj hcnt hs => exact ⟨nofun, fun _ => ⟨hcnt ▸ cnt_lt_budget hj, hs⟩, fun hne => absurd rfl hne⟩
  | sibling j hj hcnt st _ hn hc hs =>
    obtain ⟨hok, htimeout⟩ := hsibling st r hn
    exact ⟨fun hr => absurd hr htimeout, fun hr => absurd hr hok, fun _ _ =>
      ⟨hcnt ▸ cnt_lt_budget hj, hc, st, hn, hs⟩⟩

/-- Settles O28: none of the samples ends the wait, so it counts them all. -/
theorem quietWaitTimesOut : Obligations.QuietWaitTimesOut :=
  fun _ _ _ _ ht hn hp => waitUntil_quiet ht (classify_eq_none hn) hp
end

section
/-!
Primitives whose wait does not see its target (rules R117, R119, R222, R223): a start that is never generated, and a byte
that is not acknowledged.
-/
namespace Sys2Proof.Machine

/-! ### The patterns as control writes -/

/-- The state after a control write with INTC of enable bits `ea` and `sta` that puts `e` in flight (rules R131, R132). -/
def State.launched (s : State) (ea sta : Bool) (e : BusEvent) : State :=
  { s with
    cr := patternBits s.mode ea sta s.cr.sto false
    sr := { s.sr with status := s.code .idle }
    latch := s.code .idle
    capPend := false
    pending := some e }

/-- A control write of a byte with known bits (rules R8, R20, R131). -/
theorem regWriteCR_byte {s : State} (hw : s.cfg.wf = true) {c : Control} (hen : c.en = true) (hint : c.int = true) :
    regWriteCR (c.byte s.cfg.layout) s = launchByControl c (s.storeEnables c).clearInterrupt := by
  rw [regWriteCR, ofByte_byte (wf_distinct hw)]
  exact (if_pos hen).trans (if_pos hint)

/-- The start pattern launches a start, or a repeated start when the bus is held (rules R133, R134). -/
theorem regWriteCR_patStart {s : State} (hw : s.cfg.wf = true) :
    regWriteCR (patStart s.cfg.layout s.mode) s = .next (s.launched false true (startEvent s.own)) := by
  rw [patStart, regWriteCR_byte hw rfl rfl]; rfl

/-- The plain pattern continues by PHASE (rule R136). -/
theorem regWriteCR_patPlain {s : State} (hw : s.cfg.wf = true) {e : BusEvent}
    (he : continueEvent s.phase s.dr false = some e) :
    regWriteCR (patPlain s.cfg.layout s.mode) s = .next (s.launched false false e) := by
  rw [patPlain, regWriteCR_byte hw rfl rfl]
  simp only [launchByControl, Bool.false_and, Bool.false_eq_true, if_false, clearInterrupt_phase, storeEnables_phase,
    clearInterrupt_dr, storeEnables_dr, he]
  rfl

theorem launched_cleared (s : State) (ea sta : Bool) (e : BusEvent) : StatusCleared (s.launched ea sta e) :=
  ⟨rfl, rfl, rfl, rfl⟩

theorem launched_current {s : State} (hw : s.cfg.wf = true) (ea sta : Bool) (e : BusEvent) :
    (s.launched ea sta e).current = s.code .idle :=
  (launched_cleared s ea sta e).current hw

/-- What a pattern put in flight can be served, where its post can be captured (rules R83, R112). -/
theorem launched_served {s : State} (hw : s.cfg.wf = true) (hc : CanCapture s) (ea sta : Bool) (e : BusEvent) :
    Served (s.launched ea sta e) e :=
  ⟨hw, rfl, rfl, fun hm => ⟨congrArg modeIe hm, hc hm⟩⟩

/-! ### Micro-steps that meet no move -/

theorem controlStep_quiet {pattern : Layout → Mode → Byte} {s : State} {rest : List Gap}
    (hp : s.env.plan = [] :: rest) :
    controlStep pattern s = .ofResult (regWriteCR (pattern s.cfg.layout s.mode) (s.withPlan rest)) := by
  rw [controlStep, pause_quiet s rest hp]; rfl

theorem loadStep_quiet {s : State} {rest : List Gap} (hp : s.env.plan = [] :: rest) (hpend : s.pending = none)
    (b : Byte) : loadStep b s = .next { s.withPlan rest with dr := b } := by
  have hfree : (s.withPlan rest).pending.isSome = false := by simp [State.withPlan, hpend]
  rw [loadStep, pause_quiet s rest hp, andThen_ok]
  exact congrArg PartResult.ofResult (if_neg (Bool.eq_false_iff.1 hfree))

/-- A command that passes the checks (rules R170, R183, R255). -/
theorem guarded_ready {s : State} (h : Ready s) (op : Opcode) (go : State → PartResult State) :
    guarded op s go = (go s).outcome := by
  have hbusy : s.busy = false := by rw [State.busy, h.op_none]; rfl
  simp [guarded, hbusy, h.inited]

/-! ### A byte sent -/

/-- The state after a byte and the plain pattern were written with no move before either (rules R164, R166). -/
def State.sending (s : State) (b : Byte) (e : BusEvent) (rest : List Gap) : State :=
  State.launched { s.withPlan rest with dr := b } false false e

theorem sending_served {s : State} (hw : s.cfg.wf = true) (hc : CanCapture s) (b : Byte) (e : BusEvent)
    (rest : List Gap) : Served (s.sending b e rest) e :=
  launched_served (s := { s.withPlan rest with dr := b }) hw hc false false e

theorem sending_current {s : State} (hw : s.cfg.wf = true) (b : Byte) (e : BusEvent) (rest : List Gap) :
    (s.sending b e rest).current = (s.sending b e rest).code .idle :=
  launched_current (s := { s.withPlan rest with dr := b }) hw false false e

/-- A byte written to DR, the plain control write and the wait: what ADDR_W, ADDR_R and DATA_W are made of. -/
def sendByte (b : Byte) (target : BusStatus) (nack : Sibling) : Primitive := fun s =>
  andThen (loadStep b s) (controlAndWait patPlain target nack)

theorem sendByte_quiet {s : State} (hw : s.cfg.wf = true) (hpend : s.pending = none) {b : Byte} {e : BusEvent}
    (he : continueEvent s.phase b false = some e) (target : BusStatus) (nack : Sibling) {rest : List Gap}
    (hp : s.env.plan = [] :: [] :: rest) :
    sendByte b target nack s = waitUntil target nack (s.sending b e rest) := by
  rw [sendByte, loadStep_quiet hp hpend, andThen_ok, controlAndWait, controlStep_quiet (rest := rest) rfl]
  have h := regWriteCR_patPlain (s := { s.withPlan rest with dr := b }) hw he
  exact congrArg (fun o => andThen (PartResult.ofResult o) (waitUntil target nack)) h

/-- Quiet micro-steps, quiet samples and the gap of the event, one after the other (rule R119). -/
theorem answered_append (m : Mode) (n k : Nat) (a : Ack) (d : Byte) (rest : List Gap) :
    answered m n k a d ++ rest = quiet n ++ (quiet k ++ (eventGap m a d :: rest)) := by
  rw [answered, quiet, List.replicate_add, List.append_assoc, List.append_assoc]; rfl

/-- On acceptance of a command that sends a byte its operand register is loaded (rule R31). -/
def State.loaded (s : State) (op : Opcode) (a : Addr7) (x : Byte) : State :=
  { s.begin op with addr := a, data := x }

/-- The state a command that sends a byte ends in, when its wait sampled the byte's completion and ended with CNT = `n`
(rule R160). -/
theorem sampledAt_finish (s : State) (op : Opcode) (a : Addr7) (x : Byte) {b : Byte} {e : BusEvent}
    (htx : e = .txAddr b ∨ e = .txData b) (gaps rest : List Gap) (n : Nat) (k : Ack) (d : Byte) (r : ResultKind) :
    (((s.loaded op a x).sending b e gaps).sampledAt n rest k d e).finish r [] =
      { s.afterEvent r (postedStatus k e) (.tx b k) (BitVec.ofNat 16 n) rest with
        addr := a
        data := x
        dr := b
        cr := patternBits s.mode false false s.cr.sto true } := by
  rcases htx with rfl | rfl <;> rfl

/-- A command that sends byte `b` ends where its wait does (rules R160, R168). -/
theorem sendCommand_of_wait {s : State} (ready : Ready s) (free : s.pending = none) {b x d : Byte} {e : BusEvent}
    (launches : continueEvent s.phase b false = some e) (transmits : e = .txAddr b ∨ e = .txData b) {op : Opcode}
    {a : Addr7} {target : BusStatus} {nack : Sibling} {gaps rest : List Gap} (plan : s.env.plan = [] :: [] :: gaps)
    {n : Nat} {k : Ack} {r : ResultKind}
    (wait : waitUntil target nack ((s.loaded op a x).sending b e gaps) =
      .next (r, ((s.loaded op a x).sending b e gaps).sampledAt n rest k d e)) :
    (runPrimitive (sendByte b target nack) noPayload (s.loaded op a x)).outcome =
      .next { s.afterEvent r (postedStatus k e) (.tx b k) (BitVec.ofNat 16 n) rest with
        addr := a
        data := x
        dr := b
        cr := patternBits s.mode false false s.cr.sto true } := by
  have sends : sendByte b target nack (s.loaded op a x) = _ :=
    (sendByte_quiet (s := s.loaded op a x) ready.cfg_wf free launches target nack plan).trans wait
  rw [runPrimitive, sends, andThen_ok, outcome_ok]
  exact congrArg Host.Outcome.next (sampledAt_finish s op a x transmits gaps rest n k d r)

/-- Byte `b`, sent from `s`, is event `e`; not acknowledged it posts `st`, which is not what the wait looks for (rules
R136, R139, R140). -/
structure Unacknowledged (s : State) (b : Byte) (e : BusEvent) (target st : BusStatus) : Prop where
  launches : continueEvent s.phase b false = some e
  transmits : e = .txAddr b ∨ e = .txData b
  posts : postedStatus .nack e = st
  target_not_idle : target ≠ .idle
  not_idle : st ≠ .idle
  not_target : st ≠ target

section
variable {s : State} {b d x : Byte} {e : BusEvent} {target st : BusStatus} {k : Nat} {rest : List Gap}
  (ready : Ready s) (capturable : CanCapture s) (free : s.pending = none) (unacknowledged : Unacknowledged s b e target st)
  (inTime : k < s.cfg.timeoutBudget.toNat)
include ready capturable free unacknowledged inTime

/-- With NACK_CLASSIFY the command ends at the sample of the not-acknowledged status (rule R117). -/
theorem sendCommand_classified (classify : s.cfg.nackClassify = true)
    (plan : s.env.plan = answered s.mode 2 k .nack d ++ rest) (op : Opcode) (a : Addr7) (r : ResultKind) :
    (runPrimitive (sendByte b target (some (st, r))) noPayload (s.loaded op a x)).outcome =
      .next { s.afterEvent r st (.tx b .nack) (BitVec.ofNat 16 k) rest with
        addr := a
        data := x
        dr := b
        cr := patternBits s.mode false false s.cr.sto true } := by
  obtain ⟨launches, transmits, rfl, htarget, hidle, hne⟩ := unacknowledged
  have hplan : s.env.plan = [] :: [] :: (quiet k ++ (eventGap s.mode .nack d :: rest)) := plan.trans (answered_append ..)
  have hw : (s.loaded op a x).cfg.wf = true := ready.cfg_wf
  have hwait := waitUntil_sibling (sending_served hw capturable b e (quiet k ++ (eventGap s.mode .nack d :: rest)))
    (sending_current hw b e _) r htarget k .nack hne hidle classify d rest inTime rfl
  exact sendCommand_of_wait ready free launches transmits hplan hwait

/-- Without NACK_CLASSIFY the wait runs out its budget (rules R117, R168). -/
theorem sendCommand_unclassified (unclassified : s.cfg.nackClassify = false)
    (plan : s.env.plan =
      answered s.mode 2 k .nack d ++ (quiet (s.cfg.timeoutBudget.toNat - k - 1) ++ rest))
    (op : Opcode) (a : Addr7) (r : ResultKind) :
    (runPrimitive (sendByte b target (some (st, r))) noPayload (s.loaded op a x)).outcome =
      .next { s.afterEvent .timeout st (.tx b .nack) s.cfg.timeoutBudget rest with
        addr := a
        data := x
        dr := b
        cr := patternBits s.mode false false s.cr.sto true } := by
  obtain ⟨launches, transmits, rfl, htarget, hidle, hne⟩ := unacknowledged
  have hplan : s.env.plan = [] :: [] :: (quiet k ++ (eventGap s.mode .nack d ::
      (quiet (s.cfg.timeoutBudget.toNat - k - 1) ++ rest))) := plan.trans (answered_append ..)
  have hw : (s.loaded op a x).cfg.wf = true := ready.cfg_wf
  have hwait := waitUntil_missed (sending_served hw capturable b e
    (quiet k ++ (eventGap s.mode .nack d :: (quiet (s.cfg.timeoutBudget.toNat - k - 1) ++ rest))))
    (sending_current hw b e _) (some (postedStatus .nack e, r)) htarget hidle k .nack hne (.inr unclassified) d rest
    inTime rfl
  have hcnt : BitVec.ofNat 16 s.cfg.timeoutBudget.toNat = s.cfg.timeoutBudget := by simp
  rw [← hcnt]
  exact sendCommand_of_wait ready free launches transmits hplan hwait

end

/-! ### The commands that send a byte -/

theorem exec_addrW_ready {s : State} (ready : Ready s) (a : Addr7) :
    exec (.addrW a) s = (runPrimitive (sendByte (writeFrame a) .addrWAck (some (.addrWNack, .addressNack))) noPayload
      (s.loaded .addrW a s.data)).outcome := by
  rw [← frame_write, exec, execAddrW, guarded_ready ready]; rfl

theorem exec_addrR_ready {s : State} (ready : Ready s) (a : Addr7) :
    exec (.addrR a) s = (runPrimitive (sendByte (readFrame a) .addrRAck (some (.addrRNack, .addressNack))) noPayload
      (s.loaded .addrR a s.data)).outcome := by
  rw [← frame_read, exec, execAddrR, guarded_ready ready]; rfl

theorem exec_dataW_ready {s : State} (ready : Ready s) (b : Byte) :
    exec (.dataW b) s = (runPrimitive (sendByte b .dataWAck (some (.dataWNack, .dataNack))) noPayload
      (s.loaded .dataW s.addr b)).outcome := by
  rw [exec, execDataW, guarded_ready ready]; rfl

/-- After a start or a repeated start the next byte is an address frame (rule R136). -/
theorem continueEvent_started {ph : BusStatus} (h : ph = .start ∨ ph = .restart) (b : Byte) (ea : Bool) :
    continueEvent ph b ea = some (.txAddr b) := by
  rcases h with rfl | rfl <;> rfl

/-- After an acknowledged write address or data byte the next byte is data (rule R136). -/
theorem continueEvent_writing {ph : BusStatus} (h : ph = .addrWAck ∨ ph = .dataWAck) (b : Byte) (ea : Bool) :
    continueEvent ph b ea = some (.txData b) := by
  rcases h with rfl | rfl <;> rfl

theorem addrStatus_writeFrame (a : Addr7) : addrStatus (writeFrame a) .nack = .addrWNack := by
  have hbit : (writeFrame a).getLsbD 0 = false := BitVec.getLsbD_append
  simp only [addrStatus, hbit]

theorem addrStatus_readFrame (a : Addr7) : addrStatus (readFrame a) .nack = .addrRNack := by
  have hbit : (readFrame a).getLsbD 0 = true := BitVec.getLsbD_append
  simp only [addrStatus, hbit]

theorem unacknowledged_writeFrame {s : State} (h : s.phase = .start ∨ s.phase = .restart) (a : Addr7) :
    Unacknowledged s (writeFrame a) (.txAddr (writeFrame a)) .addrWAck .addrWNack :=
  ⟨continueEvent_started h _ _, .inl rfl, addrStatus_writeFrame a, nofun, nofun, nofun⟩

theorem unacknowledged_readFrame {s : State} (h : s.phase = .start ∨ s.phase = .restart) (a : Addr7) :
    Unacknowledged s (readFrame a) (.txAddr (readFrame a)) .addrRAck .addrRNack :=
  ⟨continueEvent_started h _ _, .inl rfl, addrStatus_readFrame a, nofun, nofun, nofun⟩

theorem unacknowledged_data {s : State} (h : s.phase = .addrWAck ∨ s.phase = .dataWAck) (b : Byte) :
    Unacknowledged s b (.txData b) .dataWAck .dataWNack :=
  ⟨continueEvent_writing h _ _, .inr rfl, rfl, nofun, nofun, nofun⟩

/-! ### A start that is never generated -/

/-- The start pattern and a wait in which nothing completes (rules R115, R161). -/
theorem startPrim_quiet {s : State} (hw : s.cfg.wf = true) {rest : List Gap}
    (hp : s.env.plan = [] :: (quiet s.cfg.timeoutBudget.toNat ++ rest)) :
    startPrim s = .next (.timeout,
      { s.launched false true (startEvent s.own) with
        cnt := s.cfg.timeoutBudget
        env := { s.env with plan := rest } }) := by
  have hlaunch := regWriteCR_patStart (s := s.withPlan (quiet s.cfg.timeoutBudget.toNat ++ rest)) hw
  have hcur := launched_current (s := s.withPlan (quiet s.cfg.timeoutBudget.toNat ++ rest)) hw false true
    (startEvent s.own)
  have hne : State.current _ ≠ s.code .start := fun h => nomatch code_injective hw (hcur.symm.trans h)
  rw [startPrim, controlAndWait, controlStep_quiet hp]
  exact (congrArg (fun o => andThen (PartResult.ofResult o) (waitUntil .start none)) hlaunch).trans
    (waitUntil_quiet hne rfl rfl)

end Sys2Proof.Machine

open Sys2Proof Sys2Proof.Machine

/-- Settles O34: no sample before the end of the budget shows anything but the idle code. -/
theorem unansweredStartTimesOut : Obligations.UnansweredStartTimesOut := by
  intro s rest ready free plan
  have hplan : s.env.plan = [] :: (quiet s.cfg.timeoutBudget.toNat ++ rest) := by
    rw [plan, Nat.add_comm, quiet_succ]; rfl
  have hstart := startPrim_quiet (s := s.begin .start) ready.cfg_wf hplan
  have hevent : startEvent (s.begin .start).own = .genStart := congrArg startEvent free
  rw [hevent] at hstart
  refine ⟨s.trace, ?_⟩
  rw [exec, execStart, guarded_ready ready, runPrimitive, hstart]
  rfl

/-- Settles O39: the frame is sent after a start or a repeated start, and what it posts is the sibling the wait may
classify. -/
theorem addressNackByConfiguration : Obligations.AddressNackByConfiguration := by
  intro s a k d rest ready capturable free phase inTime
  have write := unacknowledged_writeFrame phase a
  have read := unacknowledged_readFrame phase a
  rw [exec_addrW_ready ready, exec_addrR_ready ready]
  refine ⟨fun classify plan => ⟨?_, ?_⟩, fun unclassified plan => ⟨?_, ?_⟩⟩
  · exact sendCommand_classified ready capturable free write inTime classify plan .addrW a .addressNack
  · exact sendCommand_classified ready capturable free read inTime classify plan .addrR a .addressNack
  · exact sendCommand_unclassified ready capturable free write inTime unclassified plan .addrW a .addressNack
  · exact sendCommand_unclassified ready capturable free read inTime unclassified plan .addrR a .addressNack

/-- Settles O41: the byte is sent after an acknowledged write address or data byte, and what it posts is the sibling the
wait may classify. -/
theorem dataNackByConfiguration : Obligations.DataNackByConfiguration := by
  intro s b k d rest ready capturable free phase inTime
  have data := unacknowledged_data phase b
  rw [exec_dataW_ready ready]
  refine ⟨fun classify plan => ?_, fun unclassified plan => ?_⟩
  · exact sendCommand_classified ready capturable free data inTime classify plan .dataW s.addr .dataNack
  · exact sendCommand_unclassified ready capturable free data inTime unclassified plan .dataW s.addr .dataNack
end

section
/-!
The bus engine (41_bus_engine.md): what a control write launches or is refused for (R131 to R136, R148 to R152), what the
completion of each event leaves (R137 to R142), and that a status is posted once (R143). `envMove_cases` says what a move of
another agent can do to the bus; that a post lasts until the next control write follows from it.
-/
namespace Sys2Proof.Machine

/-! ### The control write by its named bits -/

theorem regWriteCR_disabled {v : Byte} {s : State} (hen : (Control.ofByte s.cfg.layout v).en = false) :
    regWriteCR v s = .refused .peripheralDisable := if_neg (Bool.eq_false_iff.1 hen)

/-- A write with EN and INTC clears the interrupt and then launches (rules R131, R132). -/
theorem regWriteCR_launches {v : Byte} {s : State} {c : Control} (hc : c = Control.ofByte s.cfg.layout v)
    (hen : c.en = true) (hint : c.int = true) :
    regWriteCR v s = launchByControl c (s.storeEnables c).clearInterrupt := by
  subst hc
  exact (if_pos hen).trans (if_pos hint)

theorem launchByControl_startWithStop {c : Control} (hsta : c.sta = true) (hsto : c.sto = true) (s : State) :
    launchByControl c s = .refused .startWithStop := by
  simp [launchByControl, hsta, hsto]

/-- With neither STA nor STO the write continues by PHASE (rules R136, R148). -/
theorem launchByControl_continues {c : Control} (hsta : c.sta = false) (hsto : c.sto = false) {s : State}
    {e : BusEvent} (he : continueEvent s.phase s.dr c.ea = some e) : launchByControl c s = .next (s.launch e) := by
  simp [launchByControl, hsta, hsto, he]

theorem launchByControl_unspecified {c : Control} (hsta : c.sta = false) (hsto : c.sto = false) {s : State}
    (he : continueEvent s.phase s.dr c.ea = none) : launchByControl c s = .refused .unspecifiedContinue := by
  simp [launchByControl, hsta, hsto, he]

/-- The five phases without a continuation (rule R148). -/
theorem continueEvent_unspecified {ph : BusStatus}
    (h : ph = .idle ∨ ph = .addrWNack ∨ ph = .dataWNack ∨ ph = .addrRNack ∨ ph = .dataRLast) (b : Byte) (ea : Bool) :
    continueEvent ph b ea = none := by
  rcases h with rfl | rfl | rfl | rfl | rfl <;> rfl

/-- After an acknowledged read address or byte the next byte is received and answered by EA (rule R136). -/
theorem continueEvent_reading {ph : BusStatus} (h : ph = .addrRAck ∨ ph = .dataRMore) (b : Byte) (ea : Bool) :
    continueEvent ph b ea = some (.rxData (ackOf ea)) := by
  rcases h with rfl | rfl <;> rfl

/-! ### The patterns -/

/-- `PAT_ACK` and `PAT_PLAIN` differ in EA only (rule R82). -/
theorem continuePattern_byte (l : Layout) (m : Mode) (ea : Bool) :
    (if ea then patAck else patPlain) l m =
      Control.byte l { int := true, ea := ea, sta := false, sto := false, en := true, ie := modeIe m } := by
  cases ea <;> rfl

theorem regWriteCR_continues {s : State} (hw : s.cfg.wf = true) {ea : Bool} {e : BusEvent}
    (he : continueEvent s.phase s.dr ea = some e) :
    regWriteCR ((if ea then patAck else patPlain) s.cfg.layout s.mode) s = .next (s.launched ea false e) := by
  rw [continuePattern_byte, regWriteCR_byte hw rfl rfl]
  exact launchByControl_continues rfl rfl he

theorem regWriteCR_continues_unspecified {s : State} (hw : s.cfg.wf = true) {ea : Bool}
    (he : continueEvent s.phase s.dr ea = none) :
    regWriteCR ((if ea then patAck else patPlain) s.cfg.layout s.mode) s = .refused .unspecifiedContinue := by
  rw [continuePattern_byte, regWriteCR_byte hw rfl rfl]
  exact launchByControl_unspecified rfl rfl he

/-- TRACE after a stop: the symbol only when the bus was held (rule R135). -/
def State.traceAfterStop (s : State) : List Sym := if s.own then s.trace ++ [.p] else s.trace

theorem stopBus_eq (s : State) : s.stopBus =
    { s with
      own := false
      phase := .idle
      pending := none
      cr := { s.cr with sto := true }
      trace := s.traceAfterStop } := by
  rw [State.stopBus, State.traceAfterStop]
  split <;> rfl

theorem regWriteCR_patStop {s : State} (hw : s.cfg.wf = true) :
    regWriteCR (patStop s.cfg.layout s.mode) s = .next { s with
      cr := patternBits s.mode false false true false
      sr := { s.sr with status := s.code .idle }
      latch := s.code .idle
      capPend := false
      pending := none
      own := false
      phase := .idle
      trace := s.traceAfterStop } := by
  rw [patStop, regWriteCR_byte hw rfl rfl]
  exact congrArg Host.Outcome.next (stopBus_eq _)

/-! ### What the other agents' moves do to the bus -/

/-- Nothing has happened on the bus: what the engine posts, emits or receives is as it was (rule R143). -/
structure BusStill (s t : State) : Prop where
  sr : t.sr = s.sr
  phase : t.phase = s.phase
  trace : t.trace = s.trace
  dr : t.dr = s.dr
  own : t.own = s.own
  int : t.cr.int = s.cr.int
  pending : t.pending = s.pending

theorem BusStill.refl (s : State) : BusStill s s := ⟨rfl, rfl, rfl, rfl, rfl, rfl, rfl⟩

theorem BusStill.trans {s t u : State} (a : BusStill s t) (b : BusStill t u) : BusStill s u :=
  ⟨b.sr.trans a.sr, b.phase.trans a.phase, b.trace.trans a.trace, b.dr.trans a.dr, b.own.trans a.own,
    b.int.trans a.int, b.pending.trans a.pending⟩

/-- An event in flight in `s` has completed: one symbol, no stop condition, and one post (rules R137 to R142). -/
structure Posted (s t : State) : Prop where
  pending : t.pending = none
  int : t.cr.int = true
  status : t.sr.status = s.code t.phase
  ps : t.sr.ps = s.sr.ps
  emitted : ∃ x : Sym, x ≠ .p ∧ t.trace = s.trace ++ [x]

theorem Posted.before {s t u : State} (a : BusStill s t) (hcfg : t.cfg = s.cfg) (b : Posted t u) : Posted s u :=
  ⟨b.pending, b.int, b.status.trans (code_of_cfg hcfg _), b.ps.trans (congrArg Status.ps a.sr), a.trace ▸ b.emitted⟩

theorem Posted.after {s t u : State} (a : Posted s t) (b : BusStill t u) : Posted s u :=
  ⟨b.pending.trans a.pending, b.int.trans a.int, by rw [b.sr, b.phase, a.status],
    (congrArg Status.ps b.sr).trans a.ps, b.trace ▸ a.emitted⟩

/-- The symbol a completion emits (rules R137 to R141). -/
def emittedSym (k : Ack) (d : Byte) : BusEvent → Sym
  | .genStart => .s
  | .genRestart => .sr
  | .txAddr b => .tx b k
  | .txData b => .tx b k
  | .rxData a => .rx d a

theorem emittedSym_ne_stop (k : Ack) (d : Byte) (e : BusEvent) : emittedSym k d e ≠ .p := by
  cases e <;> nofun

theorem completeEvent_posted (s : State) (k : Ack) (d : Byte) (e : BusEvent) : Posted s (s.completeEvent k d e) := by
  have notStop := emittedSym_ne_stop k d e
  cases e <;> exact ⟨rfl, rfl, rfl, rfl, _, notStop, rfl⟩

/-- A move of another agent leaves the bus as it is, or completes the event in flight (rules R9, R130, R143). -/
theorem envMove_cases (s : State) (m : EnvMove) :
    BusStill s (envMove s m) ∨ s.pending ≠ none ∧ Posted s (envMove s m) := by
  cases m with
  | complete k d =>
    rw [envMove, engineStep]
    split
    · exact .inl (.refl s)
    · next e he =>
      split
      · exact .inr ⟨he ▸ nofun, completeEvent_posted s k d e⟩
      · exact .inl (.refl s)
  | stopDone => exact .inl ⟨rfl, rfl, rfl, rfl, rfl, rfl, rfl⟩
  | capture =>
    rw [envMove, captureStep]
    split <;> exact .inl ⟨rfl, rfl, rfl, rfl, rfl, rfl, rfl⟩
  | setGie on =>
    rw [envMove, setGieStep]
    split <;> exact .inl ⟨rfl, rfl, rfl, rfl, rfl, rfl, rfl⟩
  | reset => exact .inl (.refl s)

/-- With nothing in flight no moves reach the bus (rule R143). -/
theorem moves_still (g : Gap) {s : State} (free : s.pending = none) : BusStill s (g.foldl envMove s) := by
  induction g generalizing s with
  | nil => exact .refl s
  | cons m g ih =>
    rcases envMove_cases s m with still | ⟨inFlight, -⟩
    · exact still.trans (ih (still.pending.trans free))
    · exact absurd free inFlight

/-- Moves complete an event in flight at most once (rule R143). -/
theorem moves_post_once (g : Gap) (s : State) :
    BusStill s (g.foldl envMove s) ∨ Posted s (g.foldl envMove s) := by
  induction g generalizing s with
  | nil => exact .inl (.refl s)
  | cons m g ih =>
    rcases envMove_cases s m with still | ⟨-, posted⟩
    · exact (ih (envMove s m)).imp still.trans (.before still (envMove_frame s m).cfg)
    · exact .inr (posted.after (moves_still g posted.pending))

end Sys2Proof.Machine

open Sys2Proof Sys2Proof.Machine

/-- Settles O19: the phase says what the pattern launches. -/
theorem continuePatternLaunchesByPhase : Obligations.ContinuePatternLaunchesByPhase := by
  intro s ea e hw hphase
  have launches : continueEvent s.phase s.dr ea = some e := by
    rcases hphase with ⟨h, rfl⟩ | ⟨h, rfl⟩ | ⟨h, rfl⟩
    · exact continueEvent_started h _ _
    · exact continueEvent_writing h _ _
    · exact continueEvent_reading h _ _
  exact ⟨s.trace, regWriteCR_continues hw launches, fun _ => rfl⟩

/-- Settles O20, by the bits of the byte written. -/
theorem unspecifiedLaunchRefused : Obligations.UnspecifiedLaunchRefused := by
  intro s v c hc
  refine ⟨fun hen => regWriteCR_disabled (hc ▸ hen), fun hen hint hsta hsto => ?_, fun hen hint hsta hsto hphase => ?_⟩
  · rw [regWriteCR_launches hc hen hint, launchByControl_startWithStop hsta hsto]
  · rw [regWriteCR_launches hc hen hint]
    exact launchByControl_unspecified hsta hsto (continueEvent_unspecified hphase _ _)

/-- Settles O25, by induction on the moves: the first completion leaves nothing in flight, and then the bus stays. -/
theorem onePostPerControlWrite : Obligations.OnePostPerControlWrite := by
  intro s g
  refine ⟨fun free => ?_, fun e inFlight => ?_⟩
  · obtain ⟨sr, phase, trace, dr, own, int, pending⟩ := moves_still g free
    exact ⟨sr, phase, trace, dr, own, int, pending.trans free⟩
  · rcases moves_post_once g s with ⟨sr, phase, trace, dr, own, int, pending⟩ | ⟨pending, int, status, ps, x, -, trace⟩
    · exact .inl ⟨pending.trans inFlight, sr, phase, trace, dr, own, int⟩
    · exact .inr ⟨pending, int, status, ps, x, trace⟩

/-- Settles O59: a completion emits no stop condition and sets the flag, no move reaches the bus after it, and a control
write with INTC clears the flag. -/
theorem clockHeldLowAfterPost : Obligations.ClockHeldLowAfterPost := by
  refine ⟨?held, fun trace x => ⟨linesAfter_scl trace x, ?released⟩⟩
  case held =>
    intro s e k d g inFlight enabled t
    have posted : Posted s (engineStep k d s) := by
      rw [engineStep_some k d inFlight enabled]
      exact completeEvent_posted s k d e
    have still : BusStill (engineStep k d s) t := moves_still g posted.pending
    obtain ⟨x, notStop, htrace⟩ := (posted.after still).emitted
    refine ⟨still.int.trans posted.int, ?_, still.trace, fun v u hint hwrite => (regWriteCR_cleared hint hwrite).int⟩
    rw [htrace, linesAfter_scl]
    exact decide_eq_false notStop
  case released =>
    rintro rfl
    rw [linesAfter_snoc]
    rfl

/-- Settles O17: the pattern asks for a start, which is a repeated one when the bus is held. -/
theorem startPatternLaunches : Obligations.StartPatternLaunches :=
  fun s hw => ⟨s.trace, regWriteCR_patStart hw, fun _ => rfl⟩

/-- Settles O18: the pattern releases the bus, with a stop condition where it was held. -/
theorem stopPatternReleasesBus : Obligations.StopPatternReleasesBus :=
  fun s hw => ⟨s.traceAfterStop, regWriteCR_patStop hw, fun _ => rfl⟩

/-- Settles O21: the completion of GenStart is a post after S was emitted and the bus held. -/
theorem startCompletionHoldsBus : Obligations.StartCompletionHoldsBus :=
  fun _ k d enabled inFlight => engineStep_some k d inFlight enabled

/-- Settles O22, by the event in flight; the direction bit and the answer say what a sent byte posts. -/
theorem completionsEmitAndPost : Obligations.CompletionsEmitAndPost := by
  intro s k d b a enabled
  refine ⟨fun inFlight => engineStep_some k d inFlight enabled, fun st inFlight hst => ⟨s.dr, ?_⟩,
    fun st inFlight hst => ⟨s.dr, ?_⟩, fun st inFlight hst => ?_⟩
  · have posts : addrStatus b k = st := by
      rcases hst with ⟨hb, rfl, rfl⟩ | ⟨hb, rfl, rfl⟩ | ⟨hb, rfl, rfl⟩ | ⟨hb, rfl, rfl⟩ <;> simp only [addrStatus, hb]
    exact posts ▸ engineStep_some k d inFlight enabled
  · have posts : dataStatus k = st := by
      rcases hst with ⟨rfl, rfl⟩ | ⟨rfl, rfl⟩ <;> rfl
    exact posts ▸ engineStep_some k d inFlight enabled
  · have posts : recvStatus a = st := by
      rcases hst with ⟨rfl, rfl⟩ | ⟨rfl, rfl⟩ <;> rfl
    exact posts ▸ engineStep_some k d inFlight enabled

/-- Settles O26: the write of DR looks at what is in flight first. -/
theorem dataWriteInFlightRefused : Obligations.DataWriteInFlightRefused := by
  intro s v e inFlight
  have busy : s.pending.isSome = true := by rw [inFlight]; rfl
  exact if_pos busy
end

section
/-!
Primitive commands whose control write meets a PHASE they are not meant for: START on a held bus and RESTART on a free one
(rules R134, R169), DATA_R after the last byte (rules R148, R169, R262).
-/
namespace Sys2Proof.Machine

/-! ### START and RESTART -/

/-- The state after a command was accepted and the start pattern written with no move before it (rules R161, R162). -/
def State.starting (s : State) (op : Opcode) (gaps : List Gap) : State :=
  ((s.begin op).withPlan gaps).launched false true (startEvent s.own)

theorem starting_served {s : State} (hw : s.cfg.wf = true) (hc : CanCapture s) (op : Opcode) (gaps : List Gap) :
    Served (s.starting op gaps) (startEvent s.own) :=
  launched_served (s := (s.begin op).withPlan gaps) hw hc false true (startEvent s.own)

theorem starting_current {s : State} (hw : s.cfg.wf = true) (op : Opcode) (gaps : List Gap) :
    (s.starting op gaps).current = (s.starting op gaps).code .idle :=
  launched_current (s := (s.begin op).withPlan gaps) hw false true (startEvent s.own)

/-- A command that writes the start pattern ends where its wait does (rules R160, R168). -/
theorem startCommand_of_wait {s : State} (hw : s.cfg.wf = true) {op : Opcode} {target : BusStatus} {gaps : List Gap}
    (plan : s.env.plan = [] :: gaps) {r : ResultKind} {t : State}
    (wait : waitUntil target none (s.starting op gaps) = .next (r, t)) :
    (runPrimitive (controlAndWait patStart target none) noPayload (s.begin op)).outcome = .next (t.finish r []) := by
  have launch := regWriteCR_patStart (s := (s.begin op).withPlan gaps) hw
  have starts : controlAndWait patStart target none (s.begin op) = .next (r, t) := by
    rw [controlAndWait, controlStep_quiet (s := s.begin op) plan]
    exact (congrArg (fun o => andThen (PartResult.ofResult o) (waitUntil target none)) launch).trans wait
  rw [runPrimitive, starts]
  rfl

/-- A start condition, repeated or not, posts its own status (rules R137, R138). -/
theorem postedStatus_startEvent (a : Ack) (own : Bool) :
    postedStatus a (startEvent own) = if own then .restart else .start := by
  cases own <;> rfl

/-- A command that writes the start pattern and waits for the status of the other kind of start runs out its budget,
the start being generated after `k` idle samples (rules R134, R169). -/
theorem startCommand_missed {s : State} (ready : Ready s) (capturable : CanCapture s) {k : Nat} {a : Ack} {d : Byte}
    {rest : List Gap} (inTime : k < s.cfg.timeoutBudget.toNat)
    (plan : s.env.plan = answered s.mode 1 k a d ++ (quiet (s.cfg.timeoutBudget.toNat - k - 1) ++ rest))
    {target : BusStatus} (hidle : target ≠ .idle) (hother : (if s.own then BusStatus.restart else .start) ≠ target)
    (op : Opcode) :
    (runPrimitive (controlAndWait patStart target none) noPayload (s.begin op)).outcome =
      .next (((s.starting op rest).sampledAt s.cfg.timeoutBudget.toNat rest a d (startEvent s.own)).finish .timeout []) := by
  rw [← postedStatus_startEvent a] at hother
  refine startCommand_of_wait ready.cfg_wf (plan.trans (answered_append ..)) ?wait
  exact waitUntil_missed (starting_served ready.cfg_wf capturable op _) (starting_current ready.cfg_wf op _) none
    hidle trivial k a hother (.inl rfl) d rest inTime rfl

/-- CNT as a wait leaves it that has counted its whole budget (rule R116). -/
theorem ofNat_budget (b : Half) : BitVec.ofNat 16 b.toNat = b := by simp

/-! ### DATA_R -/

/-- DATA_R is one of the two continuing patterns and a wait (rule R167). -/
theorem receivePrim_eq (more : Bool) : receivePrim more =
    controlAndWait (if more then patAck else patPlain) (if more then .dataRMore else .dataRLast) none := by
  cases more <;> rfl

/-- Where PHASE has no continuation the control write of DATA_R is refused (rule R148). -/
theorem receivePrim_unspecified {s : State} (hw : s.cfg.wf = true) {rest : List Gap} (plan : s.env.plan = [] :: rest)
    {more : Bool} (he : continueEvent s.phase s.dr more = none) :
    receivePrim more s = .refused .unspecifiedContinue := by
  have refuses := regWriteCR_continues_unspecified (s := s.withPlan rest) hw he
  rw [receivePrim_eq, controlAndWait, controlStep_quiet plan]
  exact congrArg (fun o => andThen (PartResult.ofResult o) _) refuses

end Sys2Proof.Machine

open Sys2Proof Sys2Proof.Machine

/-- Settles O31: on a held bus the start pattern generates a repeated start, whose status START does not wait for. -/
theorem startWhileHeldTimesOut : Obligations.StartWhileHeldTimesOut := by
  intro s k a d rest ready capturable _ held inTime plan
  have hend := startCommand_missed ready capturable inTime plan (target := .start) nofun
    (by rw [held]; nofun) .start
  rw [held] at hend
  rw [exec, execStart, guarded_ready ready, ← ofNat_budget s.cfg.timeoutBudget]
  exact hend

/-- Settles O33: on a free bus the start pattern generates a start, whose status RESTART does not wait for. -/
theorem restartWhileFreeTimesOut : Obligations.RestartWhileFreeTimesOut := by
  intro s k a d rest ready capturable _ free inTime plan
  have hend := startCommand_missed ready capturable inTime plan (target := .restart) nofun
    (by rw [free]; nofun) .restart
  rw [free] at hend
  rw [exec, execRestart, guarded_ready ready, ← ofNat_budget s.cfg.timeoutBudget]
  exact hend

/-- Settles O43: after the last byte PHASE has no continuation. -/
theorem dataRAfterLastRefused : Obligations.DataRAfterLastRefused := by
  intro s more rest ready hphase plan
  have hnone : continueEvent s.phase s.dr more = none := hphase ▸ rfl
  have refused := receivePrim_unspecified (s := { s.begin .dataR with more := more }) ready.cfg_wf plan hnone
  rw [exec, execDataR, guarded_ready ready, runPrimitive, dataRPrim, refused]
  rfl
end

section
/-!
Primitive commands that succeed (42_primitives.md, rules R160 to R167), the commands rejected before INIT (rule R170), and
STOP, which cannot fail (rule R163).
-/
namespace Sys2Proof.Machine

/-! ### The checks before INIT -/

/-- Every command but INIT begins with the checks of `guarded` (rules R170, R183, R255). -/
theorem exec_guarded {i : Instr} (hi : i.opcode ≠ .init) (s : State) :
    ∃ go, exec i s = guarded i.opcode s go := by
  cases i with
  | init _ _ _ => exact absurd rfl hi
  | start => exact ⟨_, (rfl : execStart s = _)⟩
  | restart => exact ⟨_, (rfl : execRestart s = _)⟩
  | stop => exact ⟨_, (rfl : execStop s = _)⟩
  | addrW a => exact ⟨_, (rfl : execAddrW a s = _)⟩
  | addrR a => exact ⟨_, (rfl : execAddrR a s = _)⟩
  | dataW d => exact ⟨_, (rfl : execDataW d s = _)⟩
  | dataR more => exact ⟨_, (rfl : execDataR more s = _)⟩
  | read a r n => exact ⟨_, (rfl : execRead a r n s = _)⟩
  | write a r bytes => exact ⟨_, (rfl : execWrite a r bytes s = _)⟩

theorem guarded_uninitialized {s : State} (idle : s.seq.op = none) (uninitialized : s.inited = false) (op : Opcode)
    (go : State → PartResult State) : guarded op s go = .next (s.reject (some op)) := by
  have hbusy : s.busy = false := by rw [State.busy, idle]; rfl
  simp [guarded, hbusy, uninitialized]

/-- What the checks reject is the rejected state of the statements (rules R170, R183). -/
theorem reject_opcode (s : State) (i : Instr) : s.reject (some i.opcode) = s.rejected i := by
  cases i <;> rfl

/-! ### START and RESTART -/

/-- A command that writes the start pattern and waits for the status of the start it generates succeeds, the start being
generated after `k` idle samples (rules R133, R134, R161, R162). -/
theorem startCommand_answered {s : State} (ready : Ready s) (capturable : CanCapture s) {k : Nat} {a : Ack} {d : Byte}
    {rest : List Gap} (inTime : k < s.cfg.timeoutBudget.toNat) (plan : s.env.plan = answered s.mode 1 k a d ++ rest)
    {target : BusStatus} (hidle : target ≠ .idle) (hown : (if s.own then BusStatus.restart else .start) = target)
    (op : Opcode) :
    (runPrimitive (controlAndWait patStart target none) noPayload (s.begin op)).outcome =
      .next (((s.starting op rest).sampledAt k rest a d (startEvent s.own)).finish .ok []) := by
  rw [← postedStatus_startEvent a] at hown
  refine startCommand_of_wait ready.cfg_wf (plan.trans (answered_append ..)) ?wait
  exact waitUntil_ok (starting_served ready.cfg_wf capturable op _) (starting_current ready.cfg_wf op _) none
    hidle trivial k a hown d rest inTime rfl

/-! ### ADDR_W, ADDR_R and DATA_W -/

/-- A command that sends byte `b` succeeds when its acknowledgement posts the status the wait looks for, after `k` idle
samples (rules R164, R165, R166). -/
theorem sendCommand_acknowledged {s : State} (ready : Ready s) (capturable : CanCapture s) (free : s.pending = none)
    {b x d : Byte} {e : BusEvent} {k : Nat} {rest : List Gap} (launches : continueEvent s.phase b false = some e)
    (transmits : e = .txAddr b ∨ e = .txData b) (inTime : k < s.cfg.timeoutBudget.toNat)
    (plan : s.env.plan = answered s.mode 2 k .ack d ++ rest) {target : BusStatus} (posts : postedStatus .ack e = target)
    {st : BusStatus} (hidle : target ≠ .idle) (hsibling : st ≠ .idle) (op : Opcode) (a : Addr7) (r : ResultKind) :
    (runPrimitive (sendByte b target (some (st, r))) noPayload (s.loaded op a x)).outcome =
      .next { s.afterEvent .ok target (.tx b .ack) (BitVec.ofNat 16 k) rest with
        addr := a
        data := x
        dr := b
        cr := patternBits s.mode false false s.cr.sto true } := by
  have hplan : s.env.plan = [] :: [] :: (quiet k ++ (eventGap s.mode .ack d :: rest)) := plan.trans (answered_append ..)
  have hw : (s.loaded op a x).cfg.wf = true := ready.cfg_wf
  have hwait := waitUntil_ok (sending_served hw capturable b e (quiet k ++ (eventGap s.mode .ack d :: rest)))
    (sending_current hw b e _) (some (st, r)) hidle hsibling k .ack posts d rest inTime rfl
  subst posts
  exact sendCommand_of_wait ready free launches transmits hplan hwait

theorem addrStatus_writeFrame_ack (a : Addr7) : addrStatus (writeFrame a) .ack = .addrWAck := by
  have hbit : (writeFrame a).getLsbD 0 = false := BitVec.getLsbD_append
  simp only [addrStatus, hbit]

theorem addrStatus_readFrame_ack (a : Addr7) : addrStatus (readFrame a) .ack = .addrRAck := by
  have hbit : (readFrame a).getLsbD 0 = true := BitVec.getLsbD_append
  simp only [addrStatus, hbit]

/-! ### DATA_R -/

/-- The state after DATA_R was accepted and its pattern written with no move before it (rules R136, R167). -/
def State.receiving (s : State) (more : Bool) (gaps : List Gap) : State :=
  State.launched { (s.begin .dataR).withPlan gaps with more := more } more false (.rxData (ackOf more))

theorem receiving_served {s : State} (hw : s.cfg.wf = true) (hc : CanCapture s) (more : Bool) (gaps : List Gap) :
    Served (s.receiving more gaps) (.rxData (ackOf more)) :=
  launched_served (s := { (s.begin .dataR).withPlan gaps with more := more }) hw hc more false _

theorem receiving_current {s : State} (hw : s.cfg.wf = true) (more : Bool) (gaps : List Gap) :
    (s.receiving more gaps).current = (s.receiving more gaps).code .idle :=
  launched_current (s := { (s.begin .dataR).withPlan gaps with more := more }) hw more false _

/-- The pattern of DATA_R and its wait, the byte received after `k` idle samples (rules R141, R167). -/
theorem receivePrim_answered {s : State} (ready : Ready s) (capturable : CanCapture s)
    (phase : s.phase = .addrRAck ∨ s.phase = .dataRMore) {more : Bool} {k : Nat} {a : Ack} {d : Byte} {rest : List Gap}
    (inTime : k < s.cfg.timeoutBudget.toNat)
    (plan : s.env.plan = [] :: (quiet k ++ (eventGap s.mode a d :: rest))) :
    receivePrim more { s.begin .dataR with more := more } =
      .next (.ok, (s.receiving more (quiet k ++ (eventGap s.mode a d :: rest))).sampledAt k rest a d
        (.rxData (ackOf more))) := by
  have hw : s.cfg.wf = true := ready.cfg_wf
  have launch := regWriteCR_continues
    (s := { (s.begin .dataR).withPlan (quiet k ++ (eventGap s.mode a d :: rest)) with more := more }) hw
    (continueEvent_reading phase _ more)
  have hposts : postedStatus a (.rxData (ackOf more)) = if more then .dataRMore else .dataRLast := by cases more <;> rfl
  have hidle : (if more then BusStatus.dataRMore else .dataRLast) ≠ .idle := by cases more <;> nofun
  rw [receivePrim_eq, controlAndWait, controlStep_quiet (s := { s.begin .dataR with more := more }) plan]
  refine (congrArg (fun o => andThen (PartResult.ofResult o) _) launch).trans ?_
  exact waitUntil_ok (receiving_served hw capturable more _) (receiving_current hw more _) none hidle trivial k a hposts d
    rest inTime rfl

/-- After its byte was received DATA_R meets one more gap, in which here nothing moves, and reads DR (rule R68). -/
theorem dataRPrim_quiet {more : Bool} {s u : State} {rest : List Gap} (received : receivePrim more s = .next (.ok, u))
    (plan : u.env.plan = [] :: rest) : dataRPrim more s = .next (.ok, u.withPlan rest) := by
  rw [dataRPrim, received, andThen_ok]
  show andThen (pause u) _ = _
  rw [pause_quiet u rest plan]
  rfl

/-! ### STOP -/

/-- The state STOP leaves when its control write is made in `s` (rules R135, R163). -/
def State.stopped (s : State) : State :=
  { s with
    cr := patternBits s.mode false false true false
    sr := { s.sr with status := s.code .idle }
    latch := s.code .idle
    capPend := false
    pending := none
    own := false
    phase := .idle
    trace := s.traceAfterStop }

theorem stopBusPrim_of_pause {s u : State} (hw : u.cfg.wf = true) (h : pause s = .next u) :
    stopBusPrim s = .next u.stopped := by
  rw [stopBusPrim, h, andThen_ok, regWriteCR_patStop hw]
  rfl

theorem exec_stop_ready {s : State} (ready : Ready s) :
    exec .stop s = (andThen (stopBusPrim (s.begin .stop)) fun s => .next (s.finish .ok [])).outcome := by
  rw [exec, execStop, guarded_ready ready]

end Sys2Proof.Machine

open Sys2Proof Sys2Proof.Machine

/-- Settles O30: on a free bus the start pattern generates a start, whose status START waits for. -/
theorem startSucceeds : Obligations.StartSucceeds := by
  intro s k a d rest ready capturable _ free inTime plan
  have hend := startCommand_answered ready capturable inTime plan (target := .start) nofun (by rw [free]; rfl) .start
  rw [free] at hend
  rw [exec, execStart, guarded_ready ready]
  exact hend

/-- Settles O32: on a held bus the start pattern generates a repeated start, whose status RESTART waits for. -/
theorem restartSucceeds : Obligations.RestartSucceeds := by
  intro s k a d rest ready capturable _ held inTime plan
  have hend := startCommand_answered ready capturable inTime plan (target := .restart) nofun (by rw [held]; rfl) .restart
  rw [held] at hend
  rw [exec, execRestart, guarded_ready ready]
  exact hend

/-- Settles O35: the control write is the whole command, made in the state the command began in. -/
theorem stopReleasesBus : Obligations.StopReleasesBus := by
  intro s rest ready plan
  have hw : ((s.begin .stop).withPlan rest).cfg.wf = true := ready.cfg_wf
  have stops := stopBusPrim_of_pause hw (pause_quiet (s.begin .stop) rest plan)
  refine ⟨s.traceAfterStop, ?_, fun _ => rfl⟩
  rw [exec_stop_ready ready, stops]
  rfl

/-- Settles O36: what comes before the control write is a gap, in which the configuration stays, or reset. -/
theorem stopNeverFails : Obligations.StopNeverFails := by
  intro s ready
  rw [exec_stop_ready ready]
  rcases pause_cases (s.begin .stop) with ⟨-, hpause⟩ | ⟨-, -, hpause⟩
  · have frame := gap_frame (s.begin .stop)
    have hw : (gap (s.begin .stop)).cfg.wf = true := by rw [frame.cfg]; exact ready.cfg_wf
    have hidle : (gap (s.begin .stop)).code .idle = s.code .idle := code_of_cfg frame.cfg .idle
    refine ⟨_, by rw [stopBusPrim_of_pause hw hpause]; rfl, .inr ?_⟩
    exact ⟨rfl, rfl, ⟨rfl, rfl, rfl, rfl⟩, frame.cnt, hidle, hidle, rfl⟩
  · have hreset : ResetMeanwhile s (s.begin .stop).abandon :=
      (begin_keeps s .stop).reset (pause_abandoned hpause)
    exact ⟨_, by rw [stopBusPrim, hpause]; rfl, .inl hreset⟩

/-- Settles O37: after a start or a repeated start the byte is an address frame, whose acknowledgement ADDR_W waits for. -/
theorem addrWSucceeds : Obligations.AddrWSucceeds := by
  intro s a k d rest ready capturable free phase inTime plan
  rw [exec_addrW_ready ready]
  exact sendCommand_acknowledged ready capturable free (continueEvent_started phase _ _) (.inl rfl) inTime plan
    (addrStatus_writeFrame_ack a) (st := .addrWNack) nofun nofun .addrW a .addressNack

/-- Settles O38: as for ADDR_W, with the read frame. -/
theorem addrRSucceeds : Obligations.AddrRSucceeds := by
  intro s a k d rest ready capturable free phase inTime plan
  rw [exec_addrR_ready ready]
  exact sendCommand_acknowledged ready capturable free (continueEvent_started phase _ _) (.inl rfl) inTime plan
    (addrStatus_readFrame_ack a) (st := .addrRNack) nofun nofun .addrR a .addressNack

/-- Settles O40: after an acknowledged write address or data byte the byte is data, whose acknowledgement DATA_W waits
for. -/
theorem dataWSucceeds : Obligations.DataWSucceeds := by
  intro s b k d rest ready capturable free phase inTime plan
  rw [exec_dataW_ready ready]
  exact sendCommand_acknowledged ready capturable free (continueEvent_writing phase _ _) (.inr rfl) inTime plan
    (target := .dataWAck) (st := .dataWNack) rfl nofun nofun .dataW s.addr .dataNack

/-- Settles O42: the byte received is in DR when the wait samples its status, and no move comes before DR is read. -/
theorem dataRReturnsByte : Obligations.DataRReturnsByte := by
  intro s more k a d rest ready capturable _ phase inTime plan
  have hplan : s.env.plan = [] :: (quiet k ++ (eventGap s.mode a d :: ([] :: rest))) := plan.trans (answered_append ..)
  have received := receivePrim_answered ready capturable phase (more := more) inTime hplan
  rw [exec, execDataR, guarded_ready ready, runPrimitive, dataRPrim_quiet received rfl]
  cases more <;> rfl

/-- Settles O57: the checks reject every command but INIT before they run any part of it. -/
theorem uninitializedRejected : Obligations.UninitializedRejected := by
  intro i s notInit idle uninitialized
  obtain ⟨go, hexec⟩ := exec_guarded notInit s
  rw [hexec, guarded_uninitialized idle uninitialized, reject_opcode]
end

section
/-!
What no primitive command writes, in every environment (rules R161 to R167, R250). `Performs` names the primitive of each
command, so that how such a command ends is said once for the seven.
-/
namespace Sys2Proof.Machine

/-! ### The primitive of a command -/

/-- STOP with the result it always has (rule R163). -/
def stopPrim : Primitive := fun s => andThen (stopBusPrim s) fun s => .next (.ok, s)

/-- The command is accepted and the operand register it carries loaded (rules R31, R33). -/
def State.accepted (s : State) (i : Instr) : State :=
  { s.begin i.opcode with
    addr := match i with
      | .addrW a | .addrR a => a
      | _ => s.addr
    data := match i with
      | .dataW d => d
      | _ => s.data
    more := match i with
      | .dataR m => m
      | _ => s.more }

/-- Command `i` performs primitive `p`, its response carrying `after` besides the result (rules R90, R160). -/
inductive Performs : Instr → Primitive → (ResultKind → State → List Byte) → Prop where
  | start : Performs .start startPrim noPayload
  | restart : Performs .restart restartPrim noPayload
  | stop : Performs .stop stopPrim noPayload
  | addrW (a : Addr7) : Performs (.addrW a) (addrPrim .write) noPayload
  | addrR (a : Addr7) : Performs (.addrR a) (addrPrim .read) noPayload
  | dataW (d : Byte) : Performs (.dataW d) (dataWPrim d) noPayload
  | dataR (more : Bool) : Performs (.dataR more) (dataRPrim more) readByte

variable {i : Instr} {p : Primitive} {after : ResultKind → State → List Byte}

theorem exists_performs (hi : isPrimitive i) : ∃ p after, Performs i p after := by
  obtain ⟨notInit, notRead, notWrite⟩ := hi
  cases i with
  | start => exact ⟨_, _, .start⟩
  | restart => exact ⟨_, _, .restart⟩
  | stop => exact ⟨_, _, .stop⟩
  | addrW a => exact ⟨_, _, .addrW a⟩
  | addrR a => exact ⟨_, _, .addrR a⟩
  | dataW d => exact ⟨_, _, .dataW d⟩
  | dataR more => exact ⟨_, _, .dataR more⟩
  | init _ _ _ => exact absurd rfl notInit
  | read _ _ _ => exact absurd rfl notRead
  | write _ _ _ => exact absurd rfl notWrite

theorem runPrimitive_stopPrim (s : State) :
    runPrimitive stopPrim noPayload s = andThen (stopBusPrim s) fun s => .next (s.finish .ok []) := by
  rw [runPrimitive, stopPrim]
  cases stopBusPrim s <;> rfl

/-- A primitive command is the checks, the acceptance and the primitive (rules R160, R170). -/
theorem Performs.exec_eq (h : Performs i p after) (s : State) :
    exec i s = guarded i.opcode s fun s => runPrimitive p after (s.accepted i) := by
  cases h with
  | start => exact (rfl : execStart s = _)
  | restart => exact (rfl : execRestart s = _)
  | stop => exact congrArg (guarded .stop s) (funext fun s => (runPrimitive_stopPrim (s.begin .stop)).symm)
  | addrW a => exact (rfl : execAddrW a s = _)
  | addrR a => exact (rfl : execAddrR a s = _)
  | dataW d => exact (rfl : execDataW d s = _)
  | dataR more => exact (rfl : execDataR more s = _)

theorem Performs.runs (h : Performs i p after) : PrimRuns p := by
  cases h with
  | start => exact startPrim_runs
  | restart => exact restartPrim_runs
  | stop => exact fun s => (stopBusPrim_runs s).bind Keeps.rfl'
  | addrW => exact addrPrim_runs .write
  | addrR => exact addrPrim_runs .read
  | dataW d => exact dataWPrim_runs d
  | dataR more => exact dataRPrim_runs more

theorem accepted_keeps (s : State) (i : Instr) : Keeps s (s.accepted i) :=
  .same ⟨rfl, rfl, rfl, rfl, rfl, rfl, rfl, rfl, rfl⟩ rfl rfl rfl rfl rfl rfl rfl rfl rfl

/-- Everything a primitive command that answers can end with: the power-on state, a rejection, or its primitive's result
(rules R160, R170, R250). -/
theorem Performs.exec_next (h : Performs i p after) {s t : State} (he : exec i s = .next t) :
    ResetMeanwhile s t ∨ s.busy = false ∧ (s.inited = false ∧ t = s.reject (some i.opcode) ∨
      ∃ r u, p (s.accepted i) = .next (r, u) ∧ t = u.finish r (after r u)) := by
  rw [h.exec_eq] at he
  obtain ⟨idle, ⟨uninitialized, rfl⟩ | ⟨-, hrun | hreset⟩⟩ := guarded_cases he
  · exact .inr ⟨idle, .inl ⟨uninitialized, rfl⟩⟩
  · exact .inr ⟨idle, .inr (runPrimitive_cases hrun)⟩
  · exact .inl (((runPrimitive_runs h.runs after _).after (accepted_keeps s i)).abandoned hreset)

/-! ### The two micro-steps that write a register -/

theorem controlStep_next {pattern : Layout → Mode → Byte} {s t : State} (h : controlStep pattern s = .next t) :
    regWriteCR (pattern (gap s).cfg.layout (gap s).mode) (gap s) = .next t := by
  obtain ⟨u, hu, h⟩ := andThen_next h
  cases pause_next hu
  exact ofResult_next h

theorem loadStep_next {v : Byte} {s t : State} (h : loadStep v s = .next t) : t = { gap s with dr := v } := by
  obtain ⟨u, hu, h⟩ := andThen_next h
  cases pause_next hu
  exact (regWriteDR_cases (ofResult_next h)).2

/-! ### What no primitive writes -/

/-- A primitive that keeps the frame, whatever the state it begins in. -/
def PrimFramed (p : Primitive) : Prop := ∀ {s t : State} {r : ResultKind}, p s = .next (r, t) → PrimFrame s t

theorem controlStep_prim {pattern : Layout → Mode → Byte} {s t : State} (h : controlStep pattern s = .next t) :
    PrimFrame s t :=
  (gap_prim s).trans (regWriteCR_prim (controlStep_next h))

theorem loadStep_prim {v : Byte} {s t : State} (h : loadStep v s = .next t) : PrimFrame s t := by
  have load : PrimFrame (gap s) { gap s with dr := v } := by constructor <;> intros <;> rfl
  rw [loadStep_next h]
  exact (gap_prim s).trans load

theorem controlAndWait_framed (pattern : Layout → Mode → Byte) (target : BusStatus) (nack : Sibling) :
    PrimFramed (controlAndWait pattern target nack) := by
  intro s t r h
  obtain ⟨u, hcontrol, hwait⟩ := andThen_next h
  exact (controlStep_prim hcontrol).trans (waitUntil_spec hwait).1

theorem sendByte_framed (b : Byte) (target : BusStatus) (nack : Sibling) : PrimFramed (sendByte b target nack) := by
  intro s t r h
  obtain ⟨u, hload, hsend⟩ := andThen_next h
  exact (loadStep_prim hload).trans (controlAndWait_framed _ _ _ hsend)

theorem dataRPrim_framed (more : Bool) : PrimFramed (dataRPrim more) := by
  intro s t r h
  obtain ⟨u, hreceive, hread⟩ := dataRPrim_cases h
  rw [receivePrim_eq] at hreceive
  have frame : PrimFrame s u := controlAndWait_framed _ _ _ hreceive
  rcases hread with ⟨-, rfl⟩ | ⟨-, rfl⟩
  · exact frame.trans (gap_prim u)
  · exact frame

theorem stopPrim_next {s t : State} {r : ResultKind} (h : stopPrim s = .next (r, t)) :
    regWriteCR (patStop (gap s).cfg.layout (gap s).mode) (gap s) = .next t := by
  obtain ⟨u, hstop, hu⟩ := andThen_next h
  cases hu
  exact controlStep_next hstop

theorem Performs.framed (h : Performs i p after) : PrimFramed p := by
  cases h with
  | start => exact controlAndWait_framed _ _ _
  | restart => exact controlAndWait_framed _ _ _
  | stop => exact fun h => (gap_prim _).trans (regWriteCR_prim (stopPrim_next h))
  | addrW a => exact fun {s _ _} h => sendByte_framed (frame s.addr .write) _ _ h
  | addrR a => exact fun {s _ _} h => sendByte_framed (frame s.addr .read) _ _ h
  | dataW d => exact sendByte_framed d _ _
  | dataR more => exact dataRPrim_framed more

/-- STOP writes CR only, so CNT stays (rule R163). -/
theorem stopPrim_cnt {s t : State} {r : ResultKind} (h : stopPrim s = .next (r, t)) : t.cnt = s.cnt :=
  (regWriteCR_enables (stopPrim_next h)).2.2.trans (gap_frame s).cnt

/-! ### A move of another agent -/

/-- A move leaves the bus as it is, or is the completion of the event in flight (rules R9, R130, R143). -/
theorem envMove_completes (s : State) (m : EnvMove) :
    BusStill s (envMove s m) ∨ ∃ e k d, s.pending = some e ∧ envMove s m = s.completeEvent k d e := by
  cases m with
  | complete k d =>
    rw [envMove, engineStep]
    split
    · exact .inl (.refl s)
    · next e he =>
      split
      · exact .inr ⟨e, k, d, he, rfl⟩
      · exact .inl (.refl s)
  | stopDone => exact .inl ⟨rfl, rfl, rfl, rfl, rfl, rfl, rfl⟩
  | capture =>
    rw [envMove, captureStep]
    split <;> exact .inl ⟨rfl, rfl, rfl, rfl, rfl, rfl, rfl⟩
  | setGie on =>
    rw [envMove, setGieStep]
    split <;> exact .inl ⟨rfl, rfl, rfl, rfl, rfl, rfl, rfl⟩
  | reset => exact .inl (.refl s)

/-! ### DR while nothing is received -/

/-- DR holds `b`, and no event in flight will write it (rule R22). -/
structure DrFixed (b : Byte) (s : State) : Prop where
  dr : s.dr = b
  not_receiving : ∀ k, s.pending ≠ some (.rxData k)

/-- Only the completion of a receive event writes DR (rules R22, R138 to R142). -/
theorem completeEvent_drFixed {b : Byte} {s : State} (h : DrFixed b s) (k : Ack) (d : Byte) {e : BusEvent}
    (he : s.pending = some e) : DrFixed b (s.completeEvent k d e) := by
  cases e with
  | genStart | genRestart | txAddr | txData => exact ⟨h.dr, nofun⟩
  | rxData a => exact absurd he (h.not_receiving a)

theorem BusStill.drFixed {b : Byte} {s t : State} (still : BusStill s t) (h : DrFixed b s) : DrFixed b t :=
  ⟨still.dr.trans h.dr, fun k => still.pending ▸ h.not_receiving k⟩

theorem envMove_drFixed {b : Byte} (s : State) (m : EnvMove) (h : DrFixed b s) : DrFixed b (envMove s m) := by
  rcases envMove_completes s m with still | ⟨e, k, d, inFlight, completes⟩
  · exact still.drFixed h
  · rw [completes]
    exact completeEvent_drFixed h k d inFlight

theorem gap_drFixed {b : Byte} (s : State) (h : DrFixed b s) : DrFixed b (gap s) :=
  gap_induct envMove_drFixed (fun _ h => ⟨h.dr, h.not_receiving⟩) h

/-- A control write that starts or stops puts no receive event in flight (rules R133 to R135). -/
theorem regWriteCR_drFixed {b v : Byte} {s t : State} (h : DrFixed b s)
    (hv : (Control.ofByte s.cfg.layout v).sta = true ∨ (Control.ofByte s.cfg.layout v).sto = true)
    (hw : regWriteCR v s = .next t) : DrFixed b t := by
  obtain ⟨-, ⟨-, rfl⟩ | ⟨-, -, -, rfl⟩ | ⟨-, -, -, rfl⟩ | ⟨-, hsto, hsta, e, -, rfl⟩⟩ := regWriteCR_cases hw
  · exact ⟨h.dr, h.not_receiving⟩
  · rw [stopBus_eq]
    exact ⟨h.dr, nofun⟩
  · refine ⟨h.dr, ?_⟩
    cases hown : s.own <;> exact nofun
  · rw [hsta, hsto] at hv
    simp at hv

/-- A bit named in a pattern is read back set, even where the positions of LAYOUT coincide (rule R20). -/
theorem ofByte_byte_sta (l : Layout) {c : Control} (h : c.sta = true) : (Control.ofByte l (c.byte l)).sta = true := by
  simp [Control.ofByte, Control.byte, bitAt_getLsbD, h]

theorem ofByte_byte_sto (l : Layout) {c : Control} (h : c.sto = true) : (Control.ofByte l (c.byte l)).sto = true := by
  simp [Control.ofByte, Control.byte, bitAt_getLsbD, h]

theorem startPattern_drFixed {target : BusStatus} {nack : Sibling} {b : Byte} {s t : State} {r : ResultKind}
    (h : DrFixed b s) (hp : controlAndWait patStart target nack s = .next (r, t)) : DrFixed b t := by
  obtain ⟨u, hcontrol, hwait⟩ := andThen_next hp
  have launched : DrFixed b u :=
    regWriteCR_drFixed (gap_drFixed s h) (.inl (ofByte_byte_sta _ rfl)) (controlStep_next hcontrol)
  exact sampleLoop_induct (P := DrFixed b) gap_drFixed (fun _ h => ⟨h.dr, h.not_receiving⟩) (s := { u with cnt := 0 })
    ⟨launched.dr, launched.not_receiving⟩ hwait

theorem stopPrim_drFixed {b : Byte} {s t : State} {r : ResultKind} (h : DrFixed b s) (hp : stopPrim s = .next (r, t)) :
    DrFixed b t :=
  regWriteCR_drFixed (gap_drFixed s h) (.inr (ofByte_byte_sto _ rfl)) (stopPrim_next hp)

/-- START, RESTART and STOP leave DR where no receive was in flight (rules R161 to R163). -/
theorem Performs.dr_eq (h : Performs i p after) (hi : i = .start ∨ i = .restart ∨ i = .stop) {s u : State}
    {r : ResultKind} (hrun : p s = .next (r, u)) (not_receiving : ∀ k, s.pending ≠ some (.rxData k)) : u.dr = s.dr := by
  have fixed : DrFixed s.dr s := ⟨rfl, not_receiving⟩
  rcases hi with rfl | rfl | rfl <;> cases h
  · exact (startPattern_drFixed fixed hrun).dr
  · exact (startPattern_drFixed fixed hrun).dr
  · exact (stopPrim_drFixed fixed hrun).dr

theorem Performs.cnt_eq (h : Performs i p after) (hi : i = .stop) {s u : State} {r : ResultKind}
    (hrun : p s = .next (r, u)) : u.cnt = s.cnt := by
  subst hi
  cases h
  exact stopPrim_cnt hrun

/-! ### The operand registers -/

theorem accepted_addr (hi : ∀ a, i ≠ .addrW a ∧ i ≠ .addrR a) (s : State) : (s.accepted i).addr = s.addr := by
  cases i with
  | addrW a => exact absurd rfl (hi a).1
  | addrR a => exact absurd rfl (hi a).2
  | _ => rfl

theorem accepted_data (hi : ∀ d, i ≠ .dataW d) (s : State) : (s.accepted i).data = s.data := by
  cases i with
  | dataW d => exact absurd rfl (hi d)
  | _ => rfl

theorem accepted_more (hi : ∀ m, i ≠ .dataR m) (s : State) : (s.accepted i).more = s.more := by
  cases i with
  | dataR m => exact absurd rfl (hi m)
  | _ => rfl

/-- A rejection writes RXLEN for READ and WRITE only (rules R170, R183). -/
theorem Performs.clearsRxlen (h : Performs i p after) : clearsRxlen (some i.opcode) = false := by
  cases h <;> rfl

end Sys2Proof.Machine

open Sys2Proof Sys2Proof.Machine

/-- Settles O45: a command that no reset ends is rejected before it writes anything, or loads its operand register and
performs its primitive, which keeps the frame. -/
theorem primitivesFrame : Obligations.PrimitivesFrame := by
  intro i s t hi he
  obtain ⟨p, after, performs⟩ := exists_performs hi
  refine (performs.exec_next he).imp_right fun ⟨idle, ended⟩ => ?_
  rcases ended with ⟨-, rfl⟩ | ⟨r, u, hrun, rfl⟩
  · simp [performs.clearsRxlen]
  · have f := performs.framed hrun
    have hop : none = s.seq.op := (Option.not_isSome_iff_eq_none.1 (Bool.eq_false_iff.1 idle)).symm
    exact ⟨f.brr, f.ps, f.inited, f.mode, f.reg, f.count, f.txbuf, f.fBus, f.fCore, f.rxbuf, f.rxlen,
      (congrArg Seq.idx f.seq :), hop, f.port, f.cfg, f.gie, fun h => f.addr.trans (accepted_addr h s),
      fun h => f.data.trans (accepted_data h s), fun h => f.more.trans (accepted_more h s),
      fun h => (performs.cnt_eq h hrun :), fun h not_receiving => (performs.dr_eq h hrun not_receiving :)⟩
end

section
/-!
Where a primitive can succeed (rule R169). A sample of its target is a sample of PHASE after a post, so the event its
control write launched posted the target; which event that is, PHASE says, or for the start pattern OWN.
-/
namespace Sys2Proof.Machine

/-! ### The event a wait saw -/

/-- Event `e` is in flight, or it was the last to complete. -/
def LastEvent (e : BusEvent) (s : State) : Prop :=
  s.pending = some e ∨ s.pending = none ∧ ∃ k, s.phase = postedStatus k e

theorem completeEvent_lastEvent (s : State) (k : Ack) (d : Byte) (e : BusEvent) :
    LastEvent e (s.completeEvent k d e) := by
  cases e <;> exact .inr ⟨rfl, k, rfl⟩

theorem envMove_lastEvent {e : BusEvent} (s : State) (m : EnvMove) (h : LastEvent e s) : LastEvent e (envMove s m) := by
  rcases envMove_completes s m with still | ⟨e', k, d, inFlight, completes⟩
  · rw [LastEvent, still.pending, still.phase]
    exact h
  · rcases h with pending | ⟨free, -⟩
    · cases pending.symm.trans inFlight
      rw [completes]
      exact completeEvent_lastEvent s k d e
    · cases free.symm.trans inFlight

/-- A sample of a status other than the idle code is a sample of PHASE after a post (rules R113, R142). -/
theorem BusInv.phase_of_current {s : State} (h : BusInv s) {st : BusStatus} (hidle : st ≠ .idle)
    (hc : s.current = s.code st) : s.cr.int = true ∧ s.phase = st := by
  have notIdle : s.code st ≠ s.code .idle := fun e => hidle (code_injective h.cfg_wf e)
  have status : s.sr.status = s.code st := by
    cases hm : s.mode with
    | poll => rw [← h.maskedStatus, ← current_polling hm, hc]
    | irq =>
      rw [current_latched hm] at hc
      rcases h.latch_lags with hlatch | hlatch
      · exact absurd (hc.symm.trans hlatch) notIdle
      · exact hlatch.symm.trans hc
  cases hint : s.cr.int with
  | false => exact absurd (status.symm.trans (h.clear_idle hint)) notIdle
  | true => exact ⟨rfl, code_injective h.cfg_wf ((h.set_posted hint).symm.trans status)⟩

/-- A wait that succeeded saw the status that the event in flight at its start posted (rules R115, R142). -/
theorem waitUntil_posts {target : BusStatus} {nack : Sibling} {s t : State} {e : BusEvent} (inv : BusInv s)
    (inFlight : s.pending = some e) (h : waitUntil target nack s = .next (.ok, t)) (hidle : target ≠ .idle)
    (hnack : ∀ st, nack ≠ some (st, .ok)) : ∃ k, postedStatus k e = target := by
  obtain ⟨frame, hend⟩ := waitUntil_spec h
  have sees : t.current = t.code target := by
    rw [code_of_cfg frame.cfg]
    cases hend with
    | ok _ _ _ hs => exact hs
    | sibling _ _ _ st _ hn => exact absurd hn (hnack st)
  obtain ⟨flag, phase⟩ := (waitUntil_inv inv h).phase_of_current hidle sees
  have last : LastEvent e t :=
    sampleLoop_induct (P := LastEvent e) (fun _ => gap_induct envMove_lastEvent fun _ h => h) (fun _ h => h)
      (s := { s with cnt := 0 }) (.inl inFlight) h
  rcases last with pending | ⟨-, k, hk⟩
  · have clear := (waitUntil_inv inv h).in_flight_flag_clear (by rw [pending]; nofun)
    exact absurd (flag.symm.trans clear) (by decide)
  · exact ⟨k, hk.symm.trans phase⟩

/-! ### The place a primitive succeeds in -/

theorem gap_still {s : State} (free : s.pending = none) : BusStill s (gap s) :=
  .trans (t := { s with env := s.env.afterGap }) ⟨rfl, rfl, rfl, rfl, rfl, rfl, rfl⟩ (moves_still _ free)

/-- The control write before a wait that succeeded launched an event that posts the target. -/
theorem controlAndWait_posts {pattern : Layout → Mode → Byte} {target : BusStatus} {nack : Sibling} {s t : State}
    (inv : BusInv s) (h : controlAndWait pattern target nack s = .next (.ok, t)) (hidle : target ≠ .idle)
    (hnack : ∀ st, nack ≠ some (st, .ok)) :
    ∃ u, regWriteCR (pattern (gap s).cfg.layout (gap s).mode) (gap s) = .next u ∧
      ∀ e, u.pending = some e → ∃ k, postedStatus k e = target := by
  obtain ⟨u, hcontrol, hwait⟩ := andThen_next h
  have written := controlStep_next hcontrol
  have launchedInv : BusInv u := regWriteCR_inv (gap_inv inv) written
  exact ⟨u, written, fun e inFlight => waitUntil_posts launchedInv inFlight hwait hidle hnack⟩

/-- The start pattern posts the status of a start on a free bus and of a repeated start on a held one (rule R134). -/
theorem startPattern_posts {target : BusStatus} {s t : State} (inv : BusInv s) (free : s.pending = none)
    (h : controlAndWait patStart target none s = .next (.ok, t)) (hidle : target ≠ .idle) :
    (if s.own then .restart else .start) = target := by
  obtain ⟨u, written, posts⟩ := controlAndWait_posts inv h hidle nofun
  rw [regWriteCR_patStart (gap_inv inv).cfg_wf] at written
  cases written
  obtain ⟨k, hk⟩ := posts _ rfl
  rw [← (gap_still free).own, ← postedStatus_startEvent k]
  exact hk

/-- A continuing pattern posts a status of the event PHASE has it launch (rule R136). -/
theorem continuing_posts {ea : Bool} {target : BusStatus} {nack : Sibling} {s t : State} (inv : BusInv s)
    (free : s.pending = none) (h : controlAndWait (if ea then patAck else patPlain) target nack s = .next (.ok, t))
    (hidle : target ≠ .idle) (hnack : ∀ st, nack ≠ some (st, .ok)) :
    ∃ e k, continueEvent s.phase s.dr ea = some e ∧ postedStatus k e = target := by
  obtain ⟨u, written, posts⟩ := controlAndWait_posts inv h hidle hnack
  have hw := (gap_inv inv).cfg_wf
  have still := gap_still free
  cases launches : continueEvent s.phase s.dr ea with
  | none =>
    rw [← still.phase, ← still.dr] at launches
    rw [regWriteCR_continues_unspecified hw launches] at written
    cases written
  | some e =>
    rw [← still.phase, ← still.dr] at launches
    rw [regWriteCR_continues hw launches] at written
    cases written
    obtain ⟨k, hk⟩ := posts e rfl
    exact ⟨e, k, rfl, hk⟩

theorem sendByte_posts {b : Byte} {target : BusStatus} {nack : Sibling} {s t : State} (inv : BusInv s)
    (free : s.pending = none) (h : sendByte b target nack s = .next (.ok, t)) (hidle : target ≠ .idle)
    (hnack : ∀ st, nack ≠ some (st, .ok)) :
    ∃ e k, continueEvent s.phase b false = some e ∧ postedStatus k e = target := by
  obtain ⟨u, hload, hsend⟩ := andThen_next h
  have loadedInv : BusInv u := ((loadStep_runs b s).next hload).bus inv
  have still := gap_still free
  cases loadStep_next hload
  rw [← still.phase]
  exact continuing_posts (ea := false) loadedInv (still.pending.trans free) hsend hidle hnack

/-- What each phase with a continuation launches (rule R136). -/
theorem continueEvent_cases {ph : BusStatus} {b : Byte} {ea : Bool} {e : BusEvent}
    (h : continueEvent ph b ea = some e) :
    (ph = .start ∨ ph = .restart) ∧ e = .txAddr b ∨ (ph = .addrWAck ∨ ph = .dataWAck) ∧ e = .txData b ∨
      (ph = .addrRAck ∨ ph = .dataRMore) ∧ e = .rxData (ackOf ea) := by
  cases ph <;> cases h <;> simp

/-- Only an address frame posts an address status, so the byte followed a start (rules R136, R139). -/
theorem started_of_posts {ph target : BusStatus} {b : Byte} {ea : Bool} {e : BusEvent} {k : Ack}
    (launches : continueEvent ph b ea = some e) (posts : postedStatus k e = target)
    (address : target = .addrWAck ∨ target = .addrRAck) : ph = .start ∨ ph = .restart := by
  subst posts
  rcases continueEvent_cases launches with ⟨phase, -⟩ | ⟨-, rfl⟩ | ⟨-, rfl⟩
  · exact phase
  · cases k <;> exact absurd address nofun
  · cases ea <;> exact absurd address nofun

theorem addrStatus_ne_dataWAck (b : Byte) (k : Ack) : addrStatus b k ≠ .dataWAck := by
  unfold addrStatus
  split <;> nofun

theorem addrStatus_ne_recvStatus (b : Byte) (k a : Ack) : addrStatus b k ≠ recvStatus a := by
  unfold addrStatus
  split <;> cases a <;> nofun

/-- Only a data byte sent posts its acknowledgement, so it followed a write address or data byte (rules R136, R140). -/
theorem writing_of_posts {ph : BusStatus} {b : Byte} {ea : Bool} {e : BusEvent} {k : Ack}
    (launches : continueEvent ph b ea = some e) (posts : postedStatus k e = .dataWAck) :
    ph = .addrWAck ∨ ph = .dataWAck := by
  rcases continueEvent_cases launches with ⟨-, rfl⟩ | ⟨phase, -⟩ | ⟨-, rfl⟩
  · exact absurd posts (addrStatus_ne_dataWAck b k)
  · exact phase
  · cases ea <;> cases posts

/-- Only a data byte received posts such a status, so it followed a read address or byte (rules R136, R141). -/
theorem reading_of_posts {ph : BusStatus} {b : Byte} {ea : Bool} {e : BusEvent} {k a : Ack}
    (launches : continueEvent ph b ea = some e) (posts : postedStatus k e = recvStatus a) :
    ph = .addrRAck ∨ ph = .dataRMore := by
  rcases continueEvent_cases launches with ⟨-, rfl⟩ | ⟨-, rfl⟩ | ⟨phase, -⟩
  · exact absurd posts (addrStatus_ne_recvStatus b k a)
  · cases k <;> cases a <;> cases posts
  · exact phase

/-- A command that reset ended is not initialized (rules R42, R250). -/
theorem ResetMeanwhile.inited {s t : State} (h : ResetMeanwhile s t) : t.inited = false := by
  obtain ⟨-, u, rfl⟩ := h
  rfl

variable {i : Instr} {p : Primitive} {after : ResultKind → State → List Byte}

/-- A primitive command whose result is OK performed its primitive with that result (rules R160, R170, R250). -/
theorem Performs.succeeded (h : Performs i p after) {s t : State} (he : exec i s = .next t)
    (inited : t.inited = true) (hok : t.err = .ok) : ∃ u, p (s.accepted i) = .next (.ok, u) := by
  rcases h.exec_next he with reset | ⟨-, ⟨-, rfl⟩ | ⟨r, u, hrun, rfl⟩⟩
  · exact absurd (inited.symm.trans reset.inited) (by decide)
  · cases hok
  · cases hok
    exact ⟨u, hrun⟩

end Sys2Proof.Machine

open Sys2Proof Sys2Proof.Machine

/-- Settles O44: the status a successful wait saw was posted by the event its control write launched, which PHASE, or for
the start pattern OWN, determines. -/
theorem successOnlyInPlace : Obligations.SuccessOnlyInPlace := by
  intro i s t hinv _ free he inited hok
  have inv : BusInv (s.accepted i) := (accepted_keeps s i).bus hinv.bus
  refine ⟨?start, ?restart, ?address, ?dataW, ?dataR⟩
  case start =>
    rintro rfl
    obtain ⟨u, hrun⟩ := Performs.start.succeeded he inited hok
    have posts : (if s.own then BusStatus.restart else .start) = .start :=
      startPattern_posts (s := s.accepted .start) inv free hrun nofun
    simpa using posts
  case restart =>
    rintro rfl
    obtain ⟨u, hrun⟩ := Performs.restart.succeeded he inited hok
    have posts : (if s.own then BusStatus.restart else .start) = .restart :=
      startPattern_posts (s := s.accepted .restart) inv free hrun nofun
    simpa using posts
  case address =>
    rintro a (rfl | rfl)
    · obtain ⟨u, hrun⟩ := (Performs.addrW a).succeeded he inited hok
      have sends : sendByte (frame a .write) .addrWAck (some (.addrWNack, .addressNack)) _ = .next (.ok, u) := hrun
      obtain ⟨e, k, launches, posts⟩ := sendByte_posts inv free sends nofun nofun
      exact started_of_posts launches posts (.inl rfl)
    · obtain ⟨u, hrun⟩ := (Performs.addrR a).succeeded he inited hok
      have sends : sendByte (frame a .read) .addrRAck (some (.addrRNack, .addressNack)) _ = .next (.ok, u) := hrun
      obtain ⟨e, k, launches, posts⟩ := sendByte_posts inv free sends nofun nofun
      exact started_of_posts launches posts (.inr rfl)
  case dataW =>
    rintro d rfl
    obtain ⟨u, hrun⟩ := (Performs.dataW d).succeeded he inited hok
    have sends : sendByte d .dataWAck (some (.dataWNack, .dataNack)) _ = .next (.ok, u) := hrun
    obtain ⟨e, k, launches, posts⟩ := sendByte_posts inv free sends nofun nofun
    exact writing_of_posts launches posts
  case dataR =>
    rintro more rfl
    obtain ⟨u, hrun⟩ := (Performs.dataR more).succeeded he inited hok
    obtain ⟨v, hreceive, -⟩ := dataRPrim_cases hrun
    rw [receivePrim_eq] at hreceive
    have hrecv : (if more then BusStatus.dataRMore else .dataRLast) = recvStatus (ackOf more) := by cases more <;> rfl
    rw [hrecv] at hreceive
    obtain ⟨e, k, launches, posts⟩ := continuing_posts inv free hreceive (by cases more <;> nofun) nofun
    exact reading_of_posts launches posts
end

section
/-!
READ and WRITE in every environment (43_orchestrator.md): the checks before them (R183, R185), what they do not write
(R180, R181), that they end at rest (R186 to R188) and with one stop condition (R182). A body either gets on or returns an
error; how a transaction ends follows from that and from its STOP, which cannot fail.
-/
namespace Sys2Proof.Machine

/-! ### The checks -/

theorem exec_read_ready {s : State} (ready : Ready s) (a : Addr7) (r : Byte) (n : Half) :
    exec (.read a r n) s = (if n = 0 then .next (s.reject (some .read))
      else if s.cfg.maxLen < n then .next (s.reject (some .read))
      else runTransaction readBody .rd8 .rdf State.dropRead State.deliverRead (s.beginRead a r n)).outcome := by
  rw [exec, execRead, guarded_ready ready]

theorem exec_write_ready {s : State} (ready : Ready s) (a : Addr7) (r : Byte) (bs : List Byte) :
    exec (.write a r bs) s = (if s.cfg.maxLen.toNat < bs.length then .next (s.reject (some .write))
      else runTransaction writeBody .wr5 .wrf keepBuffers State.deliverWrite (s.beginWrite a r bs)).outcome := by
  rw [exec, execWrite, guarded_ready ready]

/-- A READ that passes its length checks (rules R183, R185). -/
theorem exec_read_accepted {s : State} (ready : Ready s) {n : Half} (positive : 0 < n) (fits : n ≤ s.cfg.maxLen)
    (a : Addr7) (r : Byte) : exec (.read a r n) s =
      (runTransaction readBody .rd8 .rdf State.dropRead State.deliverRead (s.beginRead a r n)).outcome := by
  rw [exec_read_ready ready, if_neg (BitVec.ne_of_lt positive).symm, if_neg (BitVec.not_lt.2 fits)]

/-- A WRITE that passes its length check (rules R183, R185). -/
theorem exec_write_accepted {s : State} (ready : Ready s) {bs : List Byte} (fits : bs.length ≤ s.cfg.maxLen.toNat)
    (a : Addr7) (r : Byte) : exec (.write a r bs) s =
      (runTransaction writeBody .wr5 .wrf keepBuffers State.deliverWrite (s.beginWrite a r bs)).outcome := by
  rw [exec_write_ready ready, if_neg (Nat.not_lt.2 fits)]

/-- After INIT the invariants at rest make the controller ready. -/
theorem Inv.ready {s : State} (h : Inv s) (inited : s.inited = true) : Ready s :=
  ⟨Option.not_isSome_iff_eq_none.1 (Bool.eq_false_iff.1 h.not_busy), inited, h.bus.cfg_wf⟩

/-- What reset leaves of a command is the same where the configuration, the port and the premises are (rule R250). -/
theorem SameBase.reset {s t u : State} (b : SameBase s t) (h : ResetMeanwhile t u) : ResetMeanwhile s u :=
  ⟨b.mayReset ▸ h.1, b.abandoned h.2⟩

theorem deliverWrite_keeps (s : State) : Keeps s s.deliverWrite := finish_keeps s .ok []

theorem readTransaction_runs (s : State) :
    Runs id s (runTransaction readBody .rd8 .rdf State.dropRead State.deliverRead s) :=
  runTransaction_runs readBody_runs _ _ dropRead_keeps deliverRead_keeps s

theorem writeTransaction_runs (s : State) :
    Runs id s (runTransaction writeBody .wr5 .wrf keepBuffers State.deliverWrite s) :=
  runTransaction_runs writeBody_runs _ _ Keeps.rfl' deliverWrite_keeps s

/-- Everything a READ that answers can end with (rules R180, R183, R250). -/
theorem exec_read_next {a : Addr7} {r : Byte} {n : Half} {s t : State} (h : exec (.read a r n) s = .next t) :
    ResetMeanwhile s t ∨ s.busy = false ∧ (t = s.reject (some .read) ∨
      runTransaction readBody .rd8 .rdf State.dropRead State.deliverRead (s.beginRead a r n) = .next t) := by
  rw [exec, execRead] at h
  obtain ⟨idle, ⟨-, rfl⟩ | ⟨-, ended⟩⟩ := guarded_cases h
  · exact .inr ⟨idle, .inl rfl⟩
  · split at ended
    · exact .inr ⟨idle, .inl (by rcases ended with e | e <;> cases e; rfl)⟩
    · split at ended
      · exact .inr ⟨idle, .inl (by rcases ended with e | e <;> cases e; rfl)⟩
      · rcases ended with e | e
        · exact .inr ⟨idle, .inr e⟩
        · exact .inl ((beginRead_keeps s a r n).reset ((readTransaction_runs _).abandoned e))

/-- Everything a WRITE that answers can end with (rules R181, R183, R250). -/
theorem exec_write_next {a : Addr7} {r : Byte} {bs : List Byte} {s t : State} (h : exec (.write a r bs) s = .next t) :
    ResetMeanwhile s t ∨ s.busy = false ∧ (t = s.reject (some .write) ∨
      runTransaction writeBody .wr5 .wrf keepBuffers State.deliverWrite (s.beginWrite a r bs) = .next t) := by
  rw [exec, execWrite] at h
  obtain ⟨idle, ⟨-, rfl⟩ | ⟨-, ended⟩⟩ := guarded_cases h
  · exact .inr ⟨idle, .inl rfl⟩
  · split at ended
    · exact .inr ⟨idle, .inl (by rcases ended with e | e <;> cases e; rfl)⟩
    · rcases ended with e | e
      · exact .inr ⟨idle, .inr e⟩
      · have base : SameBase s (s.beginWrite a r bs) := ⟨rfl, rfl, rfl, rfl⟩
        exact .inl (base.reset ((writeTransaction_runs _).abandoned e))

/-! ### The STOP that ends a transaction -/

/-- With a configuration within rule R8 the control write of STOP is not refused (rule R163). -/
theorem stopBusPrim_cases {s : State} (hw : s.cfg.wf = true) :
    stopBusPrim s = .next (gap s).stopped ∨ ∃ t, stopBusPrim s = .abandoned t := by
  rcases pause_cases s with ⟨-, h⟩ | ⟨-, -, h⟩
  · exact .inl (stopBusPrim_of_pause (by rw [(gap_frame s).cfg, hw]) h)
  · exact .inr ⟨s.abandon, by rw [stopBusPrim, h, andThen_reset]⟩

variable {body : Primitive} {done failed : SeqStep} {drop deliver : State → State}

/-- A transaction that answers went through its body and then one STOP, whose step (RD8, WR5 or the failure step) the
result selects (rules R182, R186, R187). -/
theorem runTransaction_next (runs : PrimRuns body) {s t : State} (hw : s.cfg.wf = true)
    (h : runTransaction body done failed drop deliver s = .next t) :
    ∃ r u last, body s = .next (r, u) ∧ (r = .ok ∧ t = deliver (gap (State.atStep u last)).stopped ∨
      r ≠ .ok ∧ t = (drop (gap (u.atStep last)).stopped).finish r []) := by
  obtain ⟨r, u, v, hbody, ended⟩ := runTransaction_cases h
  have wf : u.cfg.wf = true := by rw [((runs s).next hbody).cfg, hw]
  have stopped : ∀ last, stopBusPrim (u.atStep last) = .next v → v = (gap (u.atStep last)).stopped := by
    intro last hstop
    rcases stopBusPrim_cases (s := u.atStep last) wf with e | ⟨t, e⟩ <;> cases e.symm.trans hstop
    rfl
  rcases ended with ⟨hr, hstop, rfl⟩ | ⟨hr, hstop, rfl⟩
  · exact ⟨r, u, done, hbody, .inl ⟨hr, by rw [stopped done hstop]⟩⟩
  · exact ⟨r, u, failed, hbody, .inr ⟨hr, by rw [stopped failed hstop]⟩⟩

/-- A transaction is refused only where its body is (rules R182, R187). -/
theorem runTransaction_not_refused (runs : PrimRuns body) {s : State} (hw : s.cfg.wf = true)
    (hbody : ∀ x, body s ≠ .refused x) (x : Refusal) : runTransaction body done failed drop deliver s ≠ .refused x := by
  rw [runTransaction]
  cases h : body s with
  | refused y => exact absurd h (hbody y)
  | abandoned t => nofun
  | next p =>
    obtain ⟨r, u⟩ := p
    have wf : ∀ last, (u.atStep last).cfg.wf = true := fun _ => by rw [atStep_cfg, ((runs s).next h).cfg, hw]
    have stop : ∀ last (f : State → State),
        andThen (stopBusPrim (u.atStep last)) (fun s => PartResult.next (f s)) ≠ .refused x := by
      intro last f
      rcases stopBusPrim_cases (wf last) with e | ⟨t, e⟩ <;> rw [e] <;> nofun
    cases r with
    | ok => exact stop done deliver
    | timeout | addressNack | dataNack | precondition => exact stop failed fun s => (drop s).finish _ []

/-- A transaction whose body is not refused answers: reset ended it, or its body and its STOP did. -/
theorem runTransaction_answers (runs : PrimRuns body) (hd : ∀ s, Keeps s (drop s)) (hl : ∀ s, Keeps s (deliver s))
    {s : State} (hw : s.cfg.wf = true) (hbody : ∀ x, body s ≠ .refused x) :
    ∃ t, (runTransaction body done failed drop deliver s).outcome = .next t ∧
      (ResetMeanwhile s t ∨ runTransaction body done failed drop deliver s = .next t) := by
  have whole := runTransaction_runs runs done failed hd hl s
  cases h : runTransaction body done failed drop deliver s with
  | next t => exact ⟨t, rfl, .inr rfl⟩
  | abandoned t => exact ⟨t, rfl, .inl (whole.abandoned h)⟩
  | refused x => exact absurd h (runTransaction_not_refused runs hw hbody x)

/-! ### Getting on with the bus held -/

/-- Since TRACE was `base` the bus has been taken and not released: one start condition first, no stop condition since. -/
def TookBus (base : List Sym) (s : State) : Prop :=
  s.own = true ∧ ∃ mid, s.trace = base ++ .s :: mid ∧ Sym.p ∉ mid

/-- The bus is being taken or has been. -/
def TakesBus (base : List Sym) (s : State) : Prop :=
  s.pending = some .genStart ∧ s.trace = base ∨ TookBus base s

/-- Between two primitives of a transaction: nothing is in flight and the bus is held. -/
structure Holding (base : List Sym) (s : State) : Prop where
  bus : BusInv s
  free : s.pending = none
  took : TookBus base s

/-- How a primitive of a transaction answers: with OK in one of the phases `after`, with a not-acknowledged byte and the bus
still held, or with TIMEOUT; PRECONDITION is no such answer (rules R117, R160, R187). -/
def Answered (base : List Sym) (after : BusStatus → Prop) (t : State) : ResultKind → Prop
  | .ok => Holding base t ∧ after t.phase
  | .addressNack => Holding base t
  | .dataNack => Holding base t
  | .timeout => True
  | .precondition => False

/-- A part of a transaction that is not refused, and answers so unless reset ends it. -/
def Advances (base : List Sym) (after : BusStatus → Prop) : PartResult (ResultKind × State) → Prop
  | .next (r, t) => Answered base after t r
  | .abandoned _ => True
  | .refused _ => False

variable {base : List Sym} {after later : BusStatus → Prop}

theorem Advances.not_refused {o : PartResult (ResultKind × State)} (h : Advances base after o) (x : Refusal) :
    o ≠ .refused x := by
  rintro rfl
  exact h

theorem Advances.answered {o : PartResult (ResultKind × State)} (h : Advances base after o) {r : ResultKind} {t : State}
    (ho : o = .next (r, t)) : Answered base after t r := by
  subst ho
  exact h

theorem Answered.ne_precondition {t : State} {r : ResultKind} (h : Answered base after t r) : r ≠ .precondition := by
  rintro rfl
  exact h

/-- Short of a TIMEOUT the bus is held at the end. -/
theorem Answered.holding {t : State} {r : ResultKind} (h : Answered base after t r) (inTime : r ≠ .timeout) :
    Holding base t := by
  cases r with
  | ok => exact h.1
  | timeout => exact absurd rfl inTime
  | addressNack | dataNack => exact h
  | precondition => exact h.elim

theorem Advances.gated {o : PartResult (ResultKind × State)} {f : Primitive} (ho : Advances base after o)
    (hf : ∀ t, Holding base t → after t.phase → Advances base later (f t)) : Advances base later (gated o f) := by
  cases o with
  | refused x => exact ho
  | abandoned t => trivial
  | next p =>
    obtain ⟨r, t⟩ := p
    cases r with
    | ok => exact hf t ho.1 ho.2
    | timeout | addressNack | dataNack | precondition => exact ho

/-! ### What the other agents do meanwhile -/

theorem TookBus.emit {s t : State} (h : TookBus base s) (own : t.own = true) {x : Sym} (notStop : x ≠ .p)
    (trace : t.trace = s.trace ++ [x]) : TookBus base t := by
  obtain ⟨-, mid, hmid, hstop⟩ := h
  refine ⟨own, mid ++ [x], by rw [trace, hmid]; simp, ?_⟩
  simp [hstop, notStop.symm]

theorem completeEvent_trace (s : State) (k : Ack) (d : Byte) (e : BusEvent) :
    (s.completeEvent k d e).trace = s.trace ++ [emittedSym k d e] := by
  cases e <;> rfl

theorem completeEvent_own {s : State} (h : s.own = true) (k : Ack) (d : Byte) (e : BusEvent) :
    (s.completeEvent k d e).own = true := by
  cases e with
  | genStart => rfl
  | genRestart | txAddr | txData | rxData => exact h

theorem BusStill.takesBus {s t : State} (still : BusStill s t) (h : TakesBus base s) : TakesBus base t := by
  rw [TakesBus, TookBus, still.pending, still.trace, still.own]
  exact h

/-- A completion takes the bus or emits a symbol that is no stop condition (rules R137 to R141). -/
theorem envMove_takesBus (s : State) (m : EnvMove) (h : TakesBus base s) : TakesBus base (envMove s m) := by
  rcases envMove_completes s m with still | ⟨e, k, d, inFlight, completes⟩
  · exact still.takesBus h
  · rw [completes]
    refine .inr ?_
    rcases h with ⟨starting, trace⟩ | took
    · cases starting.symm.trans inFlight
      exact ⟨rfl, [], by rw [completeEvent_trace, trace]; rfl, List.not_mem_nil⟩
    · exact took.emit (completeEvent_own took.1 k d e) (emittedSym_ne_stop k d e) (completeEvent_trace s k d e)

/-- With nothing in flight a gap leaves the bus as it is. -/
theorem Holding.gap {s : State} (h : Holding base s) : Holding base (gap s) ∧ (Machine.gap s).phase = s.phase := by
  have still := gap_still h.free
  refine ⟨⟨gap_inv h.bus, still.pending.trans h.free, ?_⟩, still.phase⟩
  rw [TookBus, still.own, still.trace]
  exact h.took

/-- What the invariants and the bus do not look at. -/
theorem Holding.congr {s t : State} (h : Holding base s) (same : BusSame s t) (trace : t.trace = s.trace) :
    Holding base t :=
  ⟨h.bus.congr same, same.pending.trans h.free, by rw [TookBus, same.own, trace]; exact h.took⟩

/-! ### The wait -/

/-- A sibling as the primitives have it: a status that is not the idle code, and the error of a not-acknowledged byte. -/
def NackSibling (nack : Sibling) : Prop :=
  ∀ st e, nack = some (st, e) → st ≠ .idle ∧ (e = .addressNack ∨ e = .dataNack)

theorem nackSibling_none : NackSibling none := nofun

theorem nackSibling_some {st : BusStatus} {e : ResultKind} (hst : st ≠ .idle) (he : e = .addressNack ∨ e = .dataNack) :
    NackSibling (some (st, e)) := by
  rintro _ _ ⟨⟩
  exact ⟨hst, he⟩

/-- A sample of a status other than the idle code comes after the post, when nothing is in flight. -/
theorem holding_of_current {s : State} (bus : BusInv s) (takes : TakesBus base s) {st : BusStatus} (hidle : st ≠ .idle)
    (sees : s.current = s.code st) : Holding base s ∧ s.phase = st := by
  obtain ⟨flag, phase⟩ := bus.phase_of_current hidle sees
  have free : s.pending = none := by
    by_contra inFlight
    exact absurd (flag.symm.trans (bus.in_flight_flag_clear inFlight)) (by decide)
  rcases takes with ⟨pending, -⟩ | took
  · cases pending.symm.trans free
  · exact ⟨⟨bus, free, took⟩, phase⟩

theorem waitUntil_advances {target : BusStatus} {nack : Sibling} {s : State} (bus : BusInv s) (takes : TakesBus base s)
    (hidle : target ≠ .idle) (hnack : NackSibling nack) : Advances base (· = target) (waitUntil target nack s) := by
  cases h : waitUntil target nack s with
  | refused x => exact absurd h sampleLoop_not_refused
  | abandoned t => trivial
  | next p =>
    obtain ⟨r, t⟩ := p
    obtain ⟨frame, ends⟩ := waitUntil_spec h
    have bus' : BusInv t := waitUntil_inv bus h
    have takes' : TakesBus base t :=
      sampleLoop_induct (P := TakesBus base) (fun _ => gap_induct envMove_takesBus fun _ h => h) (fun _ h => h)
        (s := { s with cnt := 0 }) takes h
    cases ends with
    | timeout => trivial
    | ok _ _ _ sees => exact holding_of_current bus' takes' hidle (sees.trans (code_of_cfg frame.cfg target).symm)
    | sibling _ _ _ st _ hsome _ sees =>
      obtain ⟨hst, rfl | rfl⟩ := hnack st r hsome
      · exact (holding_of_current bus' takes' hst (sees.trans (code_of_cfg frame.cfg st).symm)).1
      · exact (holding_of_current bus' takes' hst (sees.trans (code_of_cfg frame.cfg st).symm)).1

/-! ### The primitives -/

/-- A control write that takes the bus, or keeps it, and the wait after it. -/
theorem controlAndWait_advances {pattern : Layout → Mode → Byte} {target : BusStatus} {nack : Sibling} {s u : State}
    (bus : BusInv s) (writes : regWriteCR (pattern (gap s).cfg.layout (gap s).mode) (gap s) = .next u)
    (takes : TakesBus base u) (hidle : target ≠ .idle) (hnack : NackSibling nack) :
    Advances base (· = target) (controlAndWait pattern target nack s) := by
  rw [controlAndWait, controlStep]
  rcases pause_cases s with ⟨-, h⟩ | ⟨-, -, h⟩ <;> rw [h]
  · rw [andThen_ok, writes, ofResult_ok, andThen_ok]
    exact waitUntil_advances (regWriteCR_inv (gap_inv bus) writes) takes hidle hnack
  · trivial

/-- On a free bus START takes it (rules R133, R161). -/
theorem startPrim_advances {s : State} (bus : BusInv s) (free : s.pending = none) (released : s.own = false) :
    Advances s.trace (· = .start) (startPrim s) := by
  have still := gap_still free
  refine controlAndWait_advances bus (regWriteCR_patStart (gap_inv bus).cfg_wf) (.inl ⟨?_, still.trace⟩) nofun
    nackSibling_none
  rw [still.own, released]
  rfl

/-- On a held bus RESTART keeps it (rules R134, R162). -/
theorem restartPrim_advances {s : State} (h : Holding base s) : Advances base (· = .restart) (restartPrim s) :=
  controlAndWait_advances h.bus (regWriteCR_patStart h.gap.1.bus.cfg_wf) (.inr h.gap.1.took) nofun nackSibling_none

/-- A continuing pattern keeps the bus where PHASE has a continuation (rule R136). -/
theorem continuing_advances {ea : Bool} {target : BusStatus} {nack : Sibling} {s : State} (h : Holding base s)
    (launches : ∀ b, continueEvent s.phase b ea ≠ none) (hidle : target ≠ .idle) (hnack : NackSibling nack) :
    Advances base (· = target) (controlAndWait (if ea then patAck else patPlain) target nack s) := by
  obtain ⟨held, phase⟩ := h.gap
  obtain ⟨e, he⟩ := Option.ne_none_iff_exists'.1 (launches (gap s).dr)
  exact controlAndWait_advances h.bus (regWriteCR_continues held.bus.cfg_wf (phase ▸ he)) (.inr held.took) hidle hnack

/-- Where nothing is in flight the write of DR is not refused (rule R151). -/
theorem sendByte_advances {b : Byte} {target : BusStatus} {nack : Sibling} {s : State} (h : Holding base s)
    (launches : ∀ b, continueEvent s.phase b false ≠ none) (hidle : target ≠ .idle) (hnack : NackSibling nack) :
    Advances base (· = target) (sendByte b target nack s) := by
  obtain ⟨held, phase⟩ := h.gap
  rw [sendByte, loadStep]
  rcases pause_cases s with ⟨-, hp⟩ | ⟨-, -, hp⟩ <;> rw [hp]
  · have free : ¬ (gap s).pending.isSome = true := by rw [held.free]; nofun
    rw [andThen_ok, regWriteDR, if_neg free, ofResult_ok, andThen_ok]
    have loaded : Holding base { gap s with dr := b } :=
      held.congr ⟨rfl, rfl, rfl, rfl, rfl, rfl, rfl, rfl, rfl⟩ rfl
    exact continuing_advances (ea := false) loaded (fun b => (phase ▸ launches b :)) hidle hnack
  · trivial

/-- ADDR_W and ADDR_R after a start or a repeated start (rules R164, R165). -/
theorem addrPrim_advances {s : State} (h : Holding base s) (phase : s.phase = .start ∨ s.phase = .restart)
    (d : Direction) : Advances base (· = (addrTarget d).1) (addrPrim d s) := by
  have launches : ∀ b, continueEvent s.phase b false ≠ none := fun b => by rw [continueEvent_started phase]; nofun
  cases d
  · exact sendByte_advances h launches nofun (nackSibling_some nofun (.inl rfl))
  · exact sendByte_advances h launches nofun (nackSibling_some nofun (.inl rfl))

/-- DATA_W after an acknowledged write address or data byte (rule R166). -/
theorem dataWPrim_advances {s : State} (h : Holding base s) (phase : s.phase = .addrWAck ∨ s.phase = .dataWAck)
    (b : Byte) : Advances base (· = .dataWAck) (dataWPrim b s) :=
  sendByte_advances h (fun b => by rw [continueEvent_writing phase]; nofun) nofun (nackSibling_some nofun (.inr rfl))

/-- DATA_R after an acknowledged read address or data byte; the gap before DR is read leaves the bus (rule R167). -/
theorem dataRPrim_advances {s : State} (h : Holding base s) (phase : s.phase = .addrRAck ∨ s.phase = .dataRMore)
    (more : Bool) : Advances base (· = if more then .dataRMore else .dataRLast) (dataRPrim more s) := by
  have receives : Advances base (· = if more then .dataRMore else .dataRLast) (receivePrim more s) := by
    rw [receivePrim_eq]
    exact continuing_advances h (fun b => by rw [continueEvent_reading phase]; nofun) (by cases more <;> nofun)
      nackSibling_none
  refine receives.gated (f := fun s => andThen (pause s) fun s => .next (.ok, s)) fun t held phase => ?_
  rcases pause_cases t with ⟨-, hp⟩ | ⟨-, -, hp⟩ <;> rw [hp]
  · exact ⟨held.gap.1, held.gap.2.trans phase⟩
  · trivial

/-! ### The bodies of READ and WRITE -/

theorem Holding.atStep {s : State} (h : Holding base s) (st : SeqStep) : Holding base (s.atStep st) :=
  h.congr ⟨rfl, rfl, rfl, rfl, rfl, rfl, rfl, rfl, rfl⟩ rfl

theorem selectRegister_advances {s : State} (bus : BusInv s) (free : s.pending = none) (released : s.own = false)
    (s1 s2 s3 : SeqStep) :
    Advances s.trace (· = .dataWAck) (selectRegister s1 s2 s3 s) := by
  have bus' : BusInv (s.atStep s1) := (atStep_keeps s s1).bus bus
  refine (startPrim_advances bus' free released).gated fun t held phase => ?_
  refine (addrPrim_advances (held.atStep s2) (.inl phase) .write).gated fun u held phase => ?_
  exact dataWPrim_advances (held.atStep s3) (.inl phase) _

theorem readOne_advances {s : State} (h : Holding base s) (phase : s.phase = .addrRAck ∨ s.phase = .dataRMore)
    (st : SeqStep) (more : Bool) :
    Advances base (· = if more then .dataRMore else .dataRLast) (readOne st more s) :=
  (dataRPrim_advances (h.atStep st) phase more).gated fun _ held phase =>
    ⟨held.congr ⟨rfl, rfl, rfl, rfl, rfl, rfl, rfl, rfl, rfl⟩ rfl, phase⟩

theorem readMore_advances (n : Nat) {s : State} (h : Holding base s)
    (phase : s.phase = .addrRAck ∨ s.phase = .dataRMore) :
    Advances base (fun ph => ph = .addrRAck ∨ ph = .dataRMore) (readMore n s) := by
  induction n generalizing s with
  | zero => exact ⟨h, phase⟩
  | succ n ih => exact (readOne_advances h phase .rd6 true).gated fun _ held phase => ih held (.inr phase)

theorem readBody_advances {s : State} (bus : BusInv s) (free : s.pending = none) (released : s.own = false) :
    Advances s.trace (· = .dataRLast) (readBody s) := by
  refine (selectRegister_advances bus free released _ _ _).gated fun t held _ => ?_
  refine (restartPrim_advances (held.atStep .rd4)).gated fun t held phase => ?_
  refine (addrPrim_advances (held.atStep .rd5) (.inr phase) .read).gated fun t held phase => ?_
  exact (readMore_advances _ held (.inl phase)).gated fun t held phase => readOne_advances held phase .rd7 false

theorem writeBytes_advances (bs : List Byte) {s : State} (h : Holding base s) (phase : s.phase = .dataWAck) :
    Advances base (· = .dataWAck) (writeBytes bs s) := by
  induction bs generalizing s with
  | nil => exact ⟨h, phase⟩
  | cons b bs ih =>
    refine (dataWPrim_advances (h.atStep .wr4) (.inr phase) b).gated fun t held phase => ?_
    exact ih (held.congr ⟨rfl, rfl, rfl, rfl, rfl, rfl, rfl, rfl, rfl⟩ rfl) phase

theorem writeBody_advances {s : State} (bus : BusInv s) (free : s.pending = none) (released : s.own = false) :
    Advances s.trace (· = .dataWAck) (writeBody s) :=
  (selectRegister_advances bus free released _ _ _).gated fun t held phase => writeBytes_advances t.txbuf held phase

/-! ### What the bodies do not write -/

/-- A relation that what the primitives keep implies, closed under the sequencer's steps: it holds across a body. -/
structure Framing (R : State → State → Prop) : Prop where
  trans : ∀ {s t u : State}, R s t → R t u → R s u
  prim : ∀ {s t : State}, PrimFrame s t → R s t
  atStep : ∀ (s : State) (st : SeqStep), R s (s.atStep st)

/-- Primitive `p` keeps `R` whenever it answers. -/
def Relates (R : State → State → Prop) (p : Primitive) : Prop :=
  ∀ {s t : State} {r : ResultKind}, p s = .next (r, t) → R s t

section
variable {R : State → State → Prop} (F : Framing R)
include F

theorem Framing.refl (s : State) : R s s := F.prim (.rfl' s)

theorem Framing.atStepRun {p : Primitive} (hp : PrimFramed p) (st : SeqStep) : Relates R (atStepRun st p) :=
  fun h => F.trans (F.atStep _ st) (F.prim (hp h))

/-- A gate keeps what both its parts keep. -/
theorem Framing.gated {o : PartResult (ResultKind × State)} {f : Primitive} {s : State}
    (ho : ∀ {r t}, o = .next (r, t) → R s t) (hf : Relates R f) {r : ResultKind} {t : State}
    (h : gated o f = .next (r, t)) : R s t := by
  rcases gated_cases h with ⟨u, hu, h⟩ | ⟨-, h⟩
  · exact F.trans (ho hu) (hf h)
  · exact ho h

theorem Framing.startPattern (st : SeqStep) (target : BusStatus) :
    Relates R (Machine.atStepRun st (controlAndWait patStart target none)) :=
  F.atStepRun (controlAndWait_framed _ _ _) st

theorem Framing.addrPrim (st : SeqStep) (d : Direction) : Relates R (Machine.atStepRun st (Machine.addrPrim d)) :=
  F.atStepRun (fun {s _ _} h => sendByte_framed (frame s.addr d) _ _ h) st

theorem Framing.selectRegister (s1 s2 s3 : SeqStep) : Relates R (selectRegister s1 s2 s3) :=
  F.gated (F.startPattern s1 _) <| F.gated (F.addrPrim s2 .write) <| F.atStepRun (sendByte_framed _ _ _) s3

theorem Framing.readOne (append : ∀ s : State, R s s.appendByte) (st : SeqStep) (more : Bool) :
    Relates R (readOne st more) :=
  F.gated (F.atStepRun (dataRPrim_framed more) st) fun h => by cases h; exact append _

theorem Framing.readMore (append : ∀ s : State, R s s.appendByte) (n : Nat) : Relates R (readMore n) := by
  induction n with
  | zero => exact fun h => by cases h; exact F.refl _
  | succ n ih => exact F.gated (F.readOne append .rd6 true) ih

theorem Framing.readBody (append : ∀ s : State, R s s.appendByte) : Relates R readBody :=
  F.gated (F.selectRegister _ _ _) <| F.gated (F.startPattern .rd4 _) <| F.gated (F.addrPrim .rd5 .read) <|
    F.gated (F.readMore append _) (F.readOne append .rd7 false)

theorem Framing.writeBytes (next : ∀ s : State, R s s.nextIndex) (bs : List Byte) : Relates R (writeBytes bs) := by
  induction bs with
  | nil => exact fun h => by cases h; exact F.refl _
  | cons b bs ih =>
    exact F.gated (F.atStepRun (sendByte_framed _ _ _) .wr4) fun h => F.trans (next _) (ih h)

theorem Framing.writeBody (next : ∀ s : State, R s s.nextIndex) : Relates R writeBody :=
  F.gated (F.selectRegister _ _ _) (F.writeBytes next _)

theorem Framing.stop {s v : State} (h : stopBusPrim s = .next v) : R s v := F.prim (controlStep_prim h)

/-- A transaction keeps what its body keeps and its last updates keep (rules R180, R181). -/
theorem Framing.runTransaction (hb : Relates R body) (hl : ∀ s, R s (deliver s)) (hd : ∀ s r, R s ((drop s).finish r []))
    {s t : State} (h : runTransaction body done failed drop deliver s = .next t) : R s t := by
  obtain ⟨r, u, v, hbody, ⟨-, hstop, rfl⟩ | ⟨-, hstop, rfl⟩⟩ := runTransaction_cases h
  · exact F.trans (hb hbody) <| F.trans (F.atStep u done) <| F.trans (F.stop hstop) (hl v)
  · exact F.trans (hb hbody) <| F.trans (F.atStep u failed) <| F.trans (F.stop hstop) (hd v r)

end

/-- What neither READ nor WRITE writes once its operands are loaded (rules R180, R181). -/
structure TransactionFrame (s t : State) : Prop where
  brr : t.brr = s.brr
  ps : t.sr.ps = s.sr.ps
  inited : t.inited = s.inited
  mode : t.mode = s.mode
  addr : t.addr = s.addr
  reg : t.reg = s.reg
  count : t.count = s.count
  txbuf : t.txbuf = s.txbuf
  data : t.data = s.data
  more : t.more = s.more
  fBus : t.fBus = s.fBus
  fCore : t.fCore = s.fCore
  port : t.port = s.port
  cfg : t.cfg = s.cfg
  hostGie : t.env.hostGie = s.env.hostGie
  gie : s.env.hostGie = false → t.gie = s.gie

theorem PrimFrame.transaction {s t : State} (f : PrimFrame s t) : TransactionFrame s t :=
  ⟨f.brr, f.ps, f.inited, f.mode, f.addr, f.reg, f.count, f.txbuf, f.data, f.more, f.fBus, f.fCore, f.port, f.cfg,
    f.hostGie, f.gie⟩

theorem TransactionFrame.trans {s t u : State} (a : TransactionFrame s t) (b : TransactionFrame t u) :
    TransactionFrame s u :=
  ⟨b.brr.trans a.brr, b.ps.trans a.ps, b.inited.trans a.inited, b.mode.trans a.mode, b.addr.trans a.addr,
    b.reg.trans a.reg, b.count.trans a.count, b.txbuf.trans a.txbuf, b.data.trans a.data, b.more.trans a.more,
    b.fBus.trans a.fBus, b.fCore.trans a.fCore, b.port.trans a.port, b.cfg.trans a.cfg, b.hostGie.trans a.hostGie,
    fun h => (b.gie (a.hostGie.trans h)).trans (a.gie h)⟩

/-- The sequencer, the result buffer, ERR, the response and the environment but for its configuration and premises are
outside the frame. -/
theorem TransactionFrame.unread (s : State) (seq : Seq) (rxbuf : List Byte) (rxlen : Half) (err : ResultKind)
    (response : List Byte) (plan : List Gap) (draws : Nat) :
    TransactionFrame s { s with
      seq := seq, rxbuf := rxbuf, rxlen := rxlen, err := err, response := response
      env := { s.env with plan := plan, draws := draws } } := by
  constructor <;> intros <;> rfl

theorem transactionFrame_framing : Framing TransactionFrame where
  trans := .trans
  prim := PrimFrame.transaction
  atStep s st := .unread s { s.seq with step := st } s.rxbuf s.rxlen s.err s.response s.env.plan s.env.draws

/-- The result buffer, which WRITE leaves besides (rule R181; log 12). -/
structure WriteFrame (s t : State) : Prop where
  transaction : TransactionFrame s t
  rxbuf : t.rxbuf = s.rxbuf
  rxlen : t.rxlen = s.rxlen

theorem writeFrame_framing : Framing WriteFrame where
  trans a b := ⟨a.transaction.trans b.transaction, b.rxbuf.trans a.rxbuf, b.rxlen.trans a.rxlen⟩
  prim f := ⟨f.transaction, f.rxbuf, f.rxlen⟩
  atStep s st := ⟨transactionFrame_framing.atStep s st, rfl, rfl⟩

theorem writeFrame_unread (s : State) (seq : Seq) (err : ResultKind) (response : List Byte) :
    WriteFrame s { s with seq := seq, err := err, response := response } :=
  ⟨.unread s seq s.rxbuf s.rxlen err response s.env.plan s.env.draws, rfl, rfl⟩

theorem readTransaction_frame {s t : State}
    (h : runTransaction readBody .rd8 .rdf State.dropRead State.deliverRead s = .next t) : TransactionFrame s t := by
  refine transactionFrame_framing.runTransaction (transactionFrame_framing.readBody fun s => ?append) (fun s => ?deliver)
    (fun s r => ?drop) h
  case append => exact .unread s _ _ s.rxlen s.err s.response s.env.plan s.env.draws
  case deliver => exact .unread s _ s.rxbuf _ _ _ s.env.plan s.env.draws
  case drop => exact .unread s _ _ _ _ _ s.env.plan _

theorem writeTransaction_frame {s t : State}
    (h : runTransaction writeBody .wr5 .wrf keepBuffers State.deliverWrite s = .next t) : WriteFrame s t := by
  refine writeFrame_framing.runTransaction (writeFrame_framing.writeBody fun s => ?next) (fun s => ?deliver)
    (fun s r => ?drop) h
  case next => exact writeFrame_unread s _ s.err s.response
  case deliver => exact writeFrame_unread s _ _ _
  case drop => exact writeFrame_unread s _ _ _

/-- A transaction that ended is no longer the command being executed (rule R33). -/
theorem runTransaction_op (hl : ∀ s, (deliver s).seq.op = none) {s t : State}
    (h : runTransaction body done failed drop deliver s = .next t) : t.seq.op = none := by
  obtain ⟨r, u, v, -, ⟨-, -, rfl⟩ | ⟨-, -, rfl⟩⟩ := runTransaction_cases h
  · exact hl v
  · rfl

/-- What neither command writes: SEQ.OP, and all but the operand registers it loads. -/
structure CommandFrame (s t : State) : Prop where
  op : t.seq.op = s.seq.op
  rest : TransactionFrame { s with addr := t.addr, reg := t.reg, count := t.count, txbuf := t.txbuf } t

/-- The acceptance of a command loads operand registers, which its end need not leave as they were. -/
theorem CommandFrame.of_loaded {s t : State} {seq : Seq} {a : Addr7} {r : Byte} {n : Half} {bs rxbuf : List Byte}
    {rxlen : Half} (idle : s.busy = false) (op : t.seq.op = none)
    (f : TransactionFrame
      { s with seq := seq, addr := a, reg := r, count := n, txbuf := bs, rxbuf := rxbuf, rxlen := rxlen } t) :
    CommandFrame s t :=
  ⟨op.trans (Option.not_isSome_iff_eq_none.1 (Bool.eq_false_iff.1 idle)).symm,
    ⟨f.brr, f.ps, f.inited, f.mode, rfl, rfl, rfl, rfl, f.data, f.more, f.fBus, f.fCore, f.port, f.cfg, f.hostGie, f.gie⟩⟩

theorem reject_commandFrame (s : State) (op : Option Opcode) : CommandFrame s (s.reject op) :=
  ⟨rfl, .unread s s.seq s.rxbuf _ _ _ s.env.plan s.env.draws⟩

theorem exec_read_frame {a : Addr7} {r : Byte} {n : Half} {s t : State} (h : exec (.read a r n) s = .next t) :
    ResetMeanwhile s t ∨ CommandFrame s t ∧ t.txbuf = s.txbuf := by
  refine (exec_read_next h).imp_right fun ⟨idle, ended⟩ => ?_
  rcases ended with rfl | h
  · exact ⟨reject_commandFrame s _, rfl⟩
  · have frame := readTransaction_frame h
    exact ⟨.of_loaded idle (runTransaction_op (fun _ => rfl) h) frame, frame.txbuf⟩

theorem exec_write_frame {a : Addr7} {r : Byte} {bs : List Byte} {s t : State} (h : exec (.write a r bs) s = .next t) :
    ResetMeanwhile s t ∨ CommandFrame s t ∧ t.count = s.count ∧ t.rxbuf = s.rxbuf := by
  refine (exec_write_next h).imp_right fun ⟨idle, ended⟩ => ?_
  rcases ended with rfl | h
  · exact ⟨reject_commandFrame s _, rfl, rfl⟩
  · obtain ⟨frame, rxbuf, -⟩ := writeTransaction_frame h
    exact ⟨.of_loaded idle (runTransaction_op (fun _ => rfl) h) frame, frame.count, rxbuf⟩

/-! ### How many bytes a body that succeeded received or sent -/

/-- The result buffer, IDX and COUNT, which no step but RD6, RD7 and WR4 writes (rules R180, R181). -/
structure Uncounted (s t : State) : Prop where
  rxbuf : t.rxbuf = s.rxbuf
  idx : t.seq.idx = s.seq.idx
  count : t.count = s.count

theorem uncounted_framing : Framing Uncounted where
  trans a b := ⟨b.rxbuf.trans a.rxbuf, b.idx.trans a.idx, b.count.trans a.count⟩
  prim f := ⟨f.rxbuf, congrArg Seq.idx f.seq, f.count⟩
  atStep _ _ := ⟨rfl, rfl, rfl⟩

/-- `n` more bytes are in the result buffer and counted by IDX. -/
structure Received (n : Nat) (s t : State) : Prop where
  rxbuf : t.rxbuf.length = s.rxbuf.length + n
  idx : t.seq.idx = s.seq.idx + BitVec.ofNat 16 n

theorem Received.trans {m n : Nat} {s t u : State} (a : Received m s t) (b : Received n t u) : Received (m + n) s u :=
  ⟨by rw [b.rxbuf, a.rxbuf, Nat.add_assoc], by rw [b.idx, a.idx, BitVec.add_assoc, BitVec.ofNat_add]⟩

theorem Uncounted.received {n : Nat} {s t u : State} (a : Uncounted s t) (b : Received n t u) : Received n s u :=
  ⟨by rw [b.rxbuf, a.rxbuf], by rw [b.idx, a.idx]⟩

/-- A gate that ended with OK passed. -/
theorem gated_ok {o : PartResult (ResultKind × State)} {f : Primitive} {t : State} (h : gated o f = .next (.ok, t)) :
    ∃ u, o = .next (.ok, u) ∧ f u = .next (.ok, t) := by
  rcases gated_cases h with passed | ⟨hne, -⟩
  · exact passed
  · exact absurd rfl hne

theorem readOne_received {st : SeqStep} {more : Bool} {s t : State} (h : readOne st more s = .next (.ok, t)) :
    Received 1 s t := by
  obtain ⟨u, hu, hu'⟩ := gated_ok h
  cases hu'
  have still := uncounted_framing.atStepRun (dataRPrim_framed more) st hu
  exact still.received ⟨by simp [State.appendByte], rfl⟩

theorem readMore_received {n : Nat} {s t : State} (h : readMore n s = .next (.ok, t)) : Received n s t := by
  induction n generalizing s with
  | zero => cases h; exact ⟨rfl, by simp⟩
  | succ n ih =>
    obtain ⟨u, hu, hu'⟩ := gated_ok h
    rw [Nat.add_comm]
    exact (readOne_received hu).trans (ih hu')

/-- A READ that succeeded received as many bytes as were asked for (rule R190). -/
theorem readBody_received {s t : State} (positive : 0 < s.count) (h : readBody s = .next (.ok, t)) :
    Received s.count.toNat s t := by
  obtain ⟨s3, h3, h⟩ := gated_ok h
  obtain ⟨s4, h4, h⟩ := gated_ok h
  obtain ⟨s5, h5, h⟩ := gated_ok h
  obtain ⟨s6, h6, h⟩ := gated_ok h
  have still : Uncounted s s5 := uncounted_framing.trans (uncounted_framing.selectRegister _ _ _ h3) <|
    uncounted_framing.trans (uncounted_framing.startPattern .rd4 _ h4) (uncounted_framing.addrPrim .rd5 .read h5)
  have count : s5.count.toNat - 1 + 1 = s.count.toNat := by
    have : 0 < s.count.toNat := positive
    rw [still.count]
    omega
  rw [← count]
  exact still.received ((readMore_received h6).trans (readOne_received h))

theorem writeBytes_idx {bs : List Byte} {s t : State} (h : writeBytes bs s = .next (.ok, t)) :
    t.seq.idx = s.seq.idx + BitVec.ofNat 16 bs.length := by
  induction bs generalizing s with
  | nil => cases h; simp
  | cons b bs ih =>
    obtain ⟨u, hu, hu'⟩ := gated_ok h
    have still := uncounted_framing.atStepRun (sendByte_framed b _ _) .wr4 hu
    rw [ih hu', nextIndex_seq, still.idx, BitVec.add_assoc, List.length_cons, Nat.add_comm, BitVec.ofNat_add]
    rfl

/-- A WRITE that succeeded counted the bytes it sent (rule R181). -/
theorem writeBody_idx {s t : State} (h : writeBody s = .next (.ok, t)) :
    t.seq.idx = s.seq.idx + BitVec.ofNat 16 s.txbuf.length := by
  obtain ⟨u, hu, h⟩ := gated_ok h
  rw [writeBytes_idx h, (uncounted_framing.selectRegister _ _ _ hu).idx,
    (transactionFrame_framing.selectRegister _ _ _ hu).txbuf]

/-! ### Transactions from rest -/

/-- STOP puts the one stop condition on a bus that is held (rules R135, R182). -/
theorem stopped_trace {s : State} (h : Holding base s) (last : SeqStep) :
    ∃ mid, (gap (s.atStep last)).stopped.trace = base ++ .s :: (mid ++ [.p]) ∧ Sym.p ∉ mid := by
  obtain ⟨held, mid, trace, notStop⟩ := (h.atStep last).gap.1.took
  refine ⟨mid, ?_, notStop⟩
  simp [State.stopped, State.traceAfterStop, held, trace]

/-- A transaction from rest whose body got on ends with one start and one stop condition, unless it timed out. -/
theorem runTransaction_trace (runs : PrimRuns body) {s t : State} (hw : s.cfg.wf = true)
    (advances : Advances base after (body s)) (h : runTransaction body done failed drop deliver s = .next t)
    (inTime : t.err ≠ .timeout) (hl : ∀ s, (deliver s).trace = s.trace) (hd : ∀ s, (drop s).trace = s.trace) :
    ∃ mid, t.trace = base ++ .s :: (mid ++ [.p]) ∧ Sym.p ∉ mid := by
  obtain ⟨r, u, last, hbody, ⟨rfl, rfl⟩ | ⟨-, rfl⟩⟩ := runTransaction_next runs hw h
  · rw [hl]
    exact stopped_trace ((advances.answered hbody).holding nofun) last
  · rw [finish_trace, hd]
    exact stopped_trace ((advances.answered hbody).holding inTime) last

section
variable {s : State} (inv : Inv s) (rest : Rest s) (a : Addr7) (r : Byte)
include inv rest

theorem beginRead_advances (n : Half) : Advances s.trace (· = .dataRLast) (readBody (s.beginRead a r n)) :=
  readBody_advances ((beginRead_keeps s a r n).bus inv.bus) rest.nothing_pending rest.not_own

theorem beginWrite_advances (bs : List Byte) : Advances s.trace (· = .dataWAck) (writeBody (s.beginWrite a r bs)) :=
  writeBody_advances (inv.bus.congr ⟨rfl, rfl, rfl, rfl, rfl, rfl, rfl, rfl, rfl⟩) rest.nothing_pending rest.not_own

end

end Sys2Proof.Machine

open Sys2Proof Sys2Proof.Machine

/-- Settles O52: the checks come before the operands are loaded. -/
theorem lengthChecksReject : Obligations.LengthChecksReject := by
  intro s a r n bs ready
  have rejects : ∀ i : Instr, (PartResult.next (s.reject (some i.opcode))).outcome = .next (s.rejected i) := fun i => by
    rw [outcome_ok, reject_opcode]
  refine ⟨?_, fun tooLong => ?_, fun tooLong => ?_⟩
  · rw [exec_read_ready ready, if_pos rfl]
    exact rejects (.read a r 0)
  · rw [exec_read_ready ready, if_pos tooLong, ite_self]
    exact rejects (.read a r n)
  · rw [exec_write_ready ready, if_pos tooLong]
    exact rejects (.write a r bs)

/-- Settles O48: from rest the body of READ gets on, so that neither it nor its STOP is refused; one that returns OK has
received as many bytes as were asked for. -/
theorem readFromRestCompletes : Obligations.ReadFromRestCompletes := by
  intro s a r n inv inited rest positive fits
  have ready := inv.ready inited
  have hw : (s.beginRead a r n).cfg.wf = true := ready.cfg_wf
  have advances := beginRead_advances inv rest a r n
  rw [exec_read_accepted ready positive fits]
  obtain ⟨t, answers, ended⟩ :=
    runTransaction_answers readBody_runs dropRead_keeps deliverRead_keeps hw advances.not_refused
  refine ⟨t, answers, ended.imp (beginRead_keeps s a r n).reset fun h => ?_⟩
  have frame := readTransaction_frame h
  obtain ⟨result, u, last, hbody, ⟨rfl, rfl⟩ | ⟨failed, rfl⟩⟩ := runTransaction_next readBody_runs hw h
  · have count : (gap (u.atStep last)).count = n := frame.count
    have length : (gap (u.atStep last)).rxbuf.length = n.toNat := by
      rw [(gap_frame _).rxbuf]
      exact (readBody_received (s := s.beginRead a r n) positive hbody).rxbuf.trans (Nat.zero_add _)
    refine ⟨⟨rfl, rfl, rfl, rfl⟩, frame.addr, frame.reg, frame.count, nofun, fun _ => ⟨count, length, ?_⟩,
      fun failed => absurd rfl failed⟩
    rw [← count]
    rfl
  · exact ⟨⟨rfl, rfl, rfl, rfl⟩, frame.addr, frame.reg, frame.count, (advances.answered hbody).ne_precondition,
      fun ok => absurd ok failed, fun _ => ⟨rfl, rfl⟩⟩

/-- Settles O49: as for READ; no step of WRITE writes the result buffer. -/
theorem writeFromRestCompletes : Obligations.WriteFromRestCompletes := by
  intro s a r bs inv inited rest fits
  have ready := inv.ready inited
  have hw : (s.beginWrite a r bs).cfg.wf = true := ready.cfg_wf
  have base : SameBase s (s.beginWrite a r bs) := ⟨rfl, rfl, rfl, rfl⟩
  have advances := beginWrite_advances inv rest a r bs
  rw [exec_write_accepted ready fits]
  obtain ⟨t, answers, ended⟩ :=
    runTransaction_answers writeBody_runs Keeps.rfl' deliverWrite_keeps hw advances.not_refused
  refine ⟨t, answers, ended.imp base.reset fun h => ?_⟩
  obtain ⟨frame, rxbuf, rxlen⟩ := writeTransaction_frame h
  obtain ⟨result, u, last, hbody, ⟨rfl, rfl⟩ | ⟨-, rfl⟩⟩ := runTransaction_next writeBody_runs hw h
  · exact ⟨⟨rfl, rfl, rfl, rfl⟩, frame.addr, frame.reg, frame.txbuf, nofun, rfl, rxlen, rxbuf⟩
  · exact ⟨⟨rfl, rfl, rfl, rfl⟩, frame.addr, frame.reg, frame.txbuf, (advances.answered hbody).ne_precondition, rfl, rxlen,
      rxbuf⟩

/-- Settles O50: short of a TIMEOUT the body ends with the bus held since one start condition, and STOP releases it. -/
theorem oneStopPerTransaction : Obligations.OneStopPerTransaction := by
  intro i s t inv inited rest hop he alive inTime accepted
  have hw : s.cfg.wf = true := inv.bus.cfg_wf
  have notReset : ¬ ResetMeanwhile s t := fun reset => absurd (alive.symm.trans reset.inited) (by decide)
  cases i with
  | read a r n =>
    obtain ⟨-, rfl | h⟩ := (exec_read_next he).resolve_left notReset
    · exact absurd rfl accepted
    · exact runTransaction_trace (s := s.beginRead a r n) readBody_runs hw (beginRead_advances inv rest a r n) h inTime
        (fun _ => rfl) fun _ => rfl
  | write a r bs =>
    obtain ⟨-, rfl | h⟩ := (exec_write_next he).resolve_left notReset
    · exact absurd rfl accepted
    · exact runTransaction_trace (s := s.beginWrite a r bs) writeBody_runs hw (beginWrite_advances inv rest a r bs) h inTime
        (fun _ => rfl) fun _ => rfl
  | start | restart | stop | addrW | addrR | dataW | dataR | init => rcases hop with hop | hop <;> cases hop

/-- Settles O51: a command that no reset ends is rejected, or loads its operands and runs its listing, no step of which
writes what the frame names. -/
theorem transactionsFrame : Obligations.TransactionsFrame := by
  intro s t a r n bs he
  by_cases reset : ResetMeanwhile s t
  · exact .inl reset
  · have read := fun h : exec (.read a r n) s = .next t => (exec_read_frame h).resolve_left reset
    have write := fun h : exec (.write a r bs) s = .next t => (exec_write_frame h).resolve_left reset
    obtain ⟨op, f⟩ : CommandFrame s t := he.elim (fun h => (read h).1) fun h => (write h).1
    exact .inr ⟨f.brr, f.ps, f.inited, f.mode, f.data, f.more, f.fBus, f.fCore, op, f.port, f.cfg, f.gie,
      fun h => (read h).2, fun h => (write h).2⟩
end

section
/-!
READ and WRITE when every event completes within the budget and every byte is acknowledged (rules R119, R180, R181): where the
run stands after each primitive, in terms of what the plan and TRACE then are.
-/
namespace Sys2Proof.Machine

/-! ### A control write and its answered wait -/

/-- The state after a control write that launched `e` with no move before it and a wait that sampled its completion after `k`
idle samples. -/
def State.served (s : State) (ea sta : Bool) (e : BusEvent) (k : Nat) (a : Ack) (d : Byte) (rest : List Gap) : State :=
  State.sampledAt ((s.withPlan rest).launched ea sta e) k rest a d e

/-- A control write that launches `e`, and the wait for what `e` posts (rules R115, R119, R160). -/
theorem controlAndWait_answered {s : State} (hw : s.cfg.wf = true) (hc : CanCapture s) {pattern : Layout → Mode → Byte}
    {target : BusStatus} {nack : Sibling} {ea sta : Bool} {e : BusEvent} {k : Nat} {a : Ack} {d : Byte} {rest : List Gap}
    (plan : s.env.plan = [] :: (quiet k ++ (eventGap s.mode a d :: rest)))
    (launches : ∀ gaps, regWriteCR (pattern s.cfg.layout s.mode) (s.withPlan gaps) =
      .next ((s.withPlan gaps).launched ea sta e))
    (posts : postedStatus a e = target) (hidle : target ≠ .idle) (hnack : siblingNotIdle nack)
    (inTime : k < s.cfg.timeoutBudget.toNat) :
    controlAndWait pattern target nack s = .next (.ok, s.served ea sta e k a d rest) := by
  rw [controlAndWait, controlStep_quiet plan, launches, ofResult_ok, andThen_ok]
  have served := launched_served (s := s.withPlan (quiet k ++ (eventGap s.mode a d :: rest))) hw hc ea sta e
  exact waitUntil_ok served (launched_current hw ea sta e) nack hidle hnack k a posts d rest inTime rfl

/-- No completion posts the idle code (rules R137 to R141). -/
theorem postedStatus_ne_idle (a : Ack) (e : BusEvent) : postedStatus a e ≠ .idle := by
  cases e with
  | genStart | genRestart => nofun
  | txAddr b =>
    show addrStatus b a ≠ .idle
    unfold addrStatus
    split <;> nofun
  | txData b => cases a <;> nofun
  | rxData answer => cases answer <;> nofun

/-! ### Where a run stands -/

/-- Between two primitives of a transaction begun in `s`: `st` was posted last, `xs` emitted and `ds` appended since, and
`gaps` are to come. -/
structure At (s : State) (st : BusStatus) (xs : List Sym) (ds : List Byte) (gaps : List Gap) (t : State) : Prop where
  frame : TransactionFrame s t
  gie : t.gie = s.gie
  own : t.own = decide (st ≠ .idle)
  phase : t.phase = st
  free : t.pending = none
  trace : t.trace = s.trace ++ xs
  rxbuf : t.rxbuf = s.rxbuf ++ ds
  plan : t.env.plan = gaps

/-- A part of a transaction that succeeds in a state with `Q`. -/
def Reaches (Q : State → Prop) (o : PartResult (ResultKind × State)) : Prop := ∃ t, o = .next (.ok, t) ∧ Q t

theorem Reaches.gated {P Q : State → Prop} {o : PartResult (ResultKind × State)} {f : Primitive} (ho : Reaches P o)
    (hf : ∀ t, P t → Reaches Q (f t)) : Reaches Q (gated o f) := by
  obtain ⟨t, rfl, ht⟩ := ho
  exact hf t ht

section
variable {s t : State} {st : BusStatus} {xs : List Sym} {ds : List Byte} {gaps rest : List Gap}

theorem At.atStep (h : At s st xs ds gaps t) (step : SeqStep) : At s st xs ds gaps (t.atStep step) :=
  ⟨h.frame.trans (transactionFrame_framing.atStep t step), h.gie, h.own, h.phase, h.free, h.trace, h.rxbuf, h.plan⟩

theorem At.nextIndex (h : At s st xs ds gaps t) : At s st xs ds gaps t.nextIndex :=
  ⟨h.frame.trans (.unread t _ t.rxbuf t.rxlen t.err t.response t.env.plan t.env.draws), h.gie, h.own, h.phase, h.free,
    h.trace, h.rxbuf, h.plan⟩

theorem At.appendByte (h : At s st xs ds gaps t) : At s st xs (ds ++ [t.dr]) gaps t.appendByte :=
  ⟨h.frame.trans (.unread t _ _ t.rxlen t.err t.response t.env.plan t.env.draws), h.gie, h.own, h.phase, h.free,
    h.trace, by rw [← List.append_assoc, ← h.rxbuf]; rfl, h.plan⟩

/-- Micro-steps with no move take their gaps off the plan, and DR is not looked at. -/
theorem At.withPlan (h : At s st xs ds gaps t) (rest : List Gap) (dr : Byte) :
    At s st xs ds rest { t.withPlan rest with dr := dr } :=
  ⟨h.frame.trans (by constructor <;> intros <;> rfl), h.gie, h.own, h.phase, h.free, h.trace, h.rxbuf, rfl⟩

/-- A start takes the bus, every other event is completed on a held one (rules R137 to R141). -/
theorem At.served (h : At s st xs ds gaps t) {e : BusEvent} (held : e = .genStart ∨ st ≠ .idle) (ea sta : Bool) (k : Nat)
    (a : Ack) (d : Byte) (rest : List Gap) :
    At s (postedStatus a e) (xs ++ [emittedSym a d e]) ds rest (t.served ea sta e k a d rest) where
  frame := h.frame.trans (by cases e <;> constructor <;> intros <;> rfl)
  gie := by cases e <;> exact h.gie
  own := by
    rw [decide_eq_true (postedStatus_ne_idle a e)]
    rcases held with rfl | held
    · rfl
    · have own : t.own = true := h.own.trans (decide_eq_true held)
      cases e with
      | genStart => rfl
      | genRestart | txAddr | txData | rxData => exact own
  phase := by cases e <;> rfl
  free := by cases e <;> rfl
  trace := by
    rw [← List.append_assoc, ← h.trace]
    cases e <;> rfl
  rxbuf := by cases e <;> exact h.rxbuf
  plan := by cases e <;> rfl

end

/-! ### The primitives of a planned run -/

theorem answered_succ (m : Mode) (n k : Nat) (a : Ack) (d : Byte) : answered m (n + 1) k a d = [] :: answered m n k a d := by
  rw [answered, Nat.succ_add, quiet_succ]
  rfl

/-- The plan of a READ, gap by gap. -/
theorem readPlan_append (m : Mode) (k : Nat) (bs : List Byte) (b : Byte) (rest : List Gap) :
    readPlan m k (bs ++ [b]) ++ rest =
      answered m 1 k .ack 0 ++ (answered m 2 k .ack 0 ++ (answered m 2 k .ack 0 ++ (answered m 1 k .ack 0 ++
        (answered m 2 k .ack 0 ++ (bs.flatMap (fun d => answered m 1 k .ack d ++ [[]]) ++
          (answered m 1 k .ack b ++ [] :: [] :: rest)))))) := by
  simp [readPlan]

section
variable {s t : State} (hw : s.cfg.wf = true) (capturable : CanCapture s) {k : Nat} (inTime : k < s.cfg.timeoutBudget.toNat)
  {st : BusStatus} {xs : List Sym} {ds : List Byte} {a : Ack} {d : Byte} {rest : List Gap}
include hw capturable inTime

/-- A control write that launches `e`, its wait answered as planned. -/
theorem At.controlAndWait (h : At s st xs ds (answered s.mode 1 k a d ++ rest) t) {pattern : Layout → Mode → Byte}
    {target : BusStatus} {nack : Sibling} {ea sta : Bool} {e : BusEvent}
    (launches : ∀ gaps, regWriteCR (pattern t.cfg.layout t.mode) (t.withPlan gaps) =
      .next ((t.withPlan gaps).launched ea sta e))
    (held : e = .genStart ∨ st ≠ .idle) (posts : postedStatus a e = target) (hnack : siblingNotIdle nack) :
    Machine.controlAndWait pattern target nack t = .next (.ok, t.served ea sta e k a d rest) ∧
      At s target (xs ++ [emittedSym a d e]) ds rest (t.served ea sta e k a d rest) := by
  have f := h.frame
  have hplan : t.env.plan = [] :: (quiet k ++ (eventGap t.mode a d :: rest)) := by
    rw [h.plan, answered_append, f.mode]
    rfl
  have hcap : CanCapture t := fun hm => h.gie.trans (capturable (f.mode.symm.trans hm))
  refine ⟨controlAndWait_answered (f.cfg ▸ hw) hcap hplan launches posts (posts ▸ postedStatus_ne_idle a e) hnack ?_, ?_⟩
  · rw [f.cfg]
    exact inTime
  · rw [← posts]
    exact h.served held ea sta k a d rest

/-- START and RESTART: the start pattern launches the start that OWN asks for (rules R133, R134). -/
theorem At.startPattern (h : At s st xs ds (answered s.mode 1 k a d ++ rest) t) (step : SeqStep) {e : BusEvent}
    {target : BusStatus} (asks : startEvent (decide (st ≠ .idle)) = e) (held : e = .genStart ∨ st ≠ .idle)
    (posts : postedStatus a e = target) :
    Reaches (At s target (xs ++ [emittedSym a d e]) ds rest)
      (atStepRun step (Machine.controlAndWait patStart target none) t) := by
  have launches : ∀ gaps, regWriteCR (patStart (t.atStep step).cfg.layout (t.atStep step).mode)
      ((t.atStep step).withPlan gaps) = .next (((t.atStep step).withPlan gaps).launched false true e) := fun gaps => by
    rw [← asks, ← h.own]
    exact regWriteCR_patStart (s := (t.atStep step).withPlan gaps) (h.frame.cfg ▸ hw)
  exact ⟨_, (h.atStep step).controlAndWait hw capturable inTime launches held posts trivial⟩

/-- A continuing pattern launches what PHASE makes of it (rule R136). -/
theorem At.continuing (h : At s st xs ds (answered s.mode 1 k a d ++ rest) t) {ea : Bool} {e : BusEvent}
    {target : BusStatus} {nack : Sibling} (launches : continueEvent st t.dr ea = some e)
    (posts : postedStatus a e = target) (hnack : siblingNotIdle nack) :
    Machine.controlAndWait (if ea then patAck else patPlain) target nack t =
        .next (.ok, t.served ea false e k a d rest) ∧
      At s target (xs ++ [emittedSym a d e]) ds rest (t.served ea false e k a d rest) := by
  have held : st ≠ .idle := by
    rintro rfl
    cases launches
  rw [← h.phase] at launches
  exact h.controlAndWait hw capturable inTime
    (fun gaps => regWriteCR_continues (s := t.withPlan gaps) (h.frame.cfg ▸ hw) launches) (.inr held) posts hnack

/-- ADDR_W, ADDR_R and DATA_W: the byte is the event PHASE makes of it, and acknowledged (rules R136, R139, R140). -/
theorem At.sendByte (h : At s st xs ds (answered s.mode 2 k a d ++ rest) t) (step : SeqStep) {b : Byte} {e : BusEvent}
    {target : BusStatus} {nack : Sibling} (launches : continueEvent st b false = some e)
    (posts : postedStatus a e = target) (hnack : siblingNotIdle nack) :
    Reaches (At s target (xs ++ [emittedSym a d e]) ds rest) (atStepRun step (Machine.sendByte b target nack) t) := by
  rw [answered_succ] at h
  have loads := loadStep_quiet (h.atStep step).plan h.free b
  have loaded := (h.atStep step).withPlan (answered s.mode 1 k a d ++ rest) b
  obtain ⟨sends, stands⟩ := loaded.continuing hw capturable inTime (ea := false) launches posts hnack
  refine ⟨_, ?_, stands⟩
  rw [atStepRun, Machine.sendByte, loads, andThen_ok]
  exact sends

/-- One DATA_R: its byte is on TRACE and in the result buffer, answered by ACK when more are expected (rules R141, R167,
R180). -/
theorem At.readOne (h : At s st xs ds (answered s.mode 1 k a d ++ [] :: rest) t)
    (reading : st = .addrRAck ∨ st = .dataRMore) (step : SeqStep) (more : Bool) :
    Reaches (At s (recvStatus (ackOf more)) (xs ++ [Sym.rx d (ackOf more)]) (ds ++ [d]) rest)
      (Machine.readOne step more t) := by
  obtain ⟨receives, stands⟩ := (h.atStep step).continuing hw capturable inTime (nack := none)
    (continueEvent_reading reading _ more) rfl trivial
  have target : (if more then BusStatus.dataRMore else .dataRLast) = recvStatus (ackOf more) := by cases more <;> rfl
  have received : receivePrim more (t.atStep step) =
      .next (.ok, (t.atStep step).served more false (.rxData (ackOf more)) k a d ([] :: rest)) := by
    rw [receivePrim_eq, target]
    exact receives
  refine ⟨_, ?_, (stands.withPlan rest d).appendByte⟩
  rw [Machine.readOne, atStepRun, dataRPrim_quiet received stands.plan]
  rfl

theorem At.addrW (h : At s st xs ds (answered s.mode 2 k .ack d ++ rest) t) (started : st = .start ∨ st = .restart)
    (step : SeqStep) :
    Reaches (At s .addrWAck (xs ++ [Sym.tx (writeFrame s.addr) .ack]) ds rest) (atStepRun step (addrPrim .write) t) := by
  rw [← h.frame.addr, ← frame_write]
  refine h.sendByte hw capturable inTime step (continueEvent_started started _ _) ?_ nofun
  rw [frame_write]
  exact addrStatus_writeFrame_ack t.addr

theorem At.addrR (h : At s st xs ds (answered s.mode 2 k .ack d ++ rest) t) (started : st = .start ∨ st = .restart)
    (step : SeqStep) :
    Reaches (At s .addrRAck (xs ++ [Sym.tx (readFrame s.addr) .ack]) ds rest) (atStepRun step (addrPrim .read) t) := by
  rw [← h.frame.addr, ← frame_read]
  refine h.sendByte hw capturable inTime step (continueEvent_started started _ _) ?_ nofun
  rw [frame_read]
  exact addrStatus_readFrame_ack t.addr

theorem At.dataW (h : At s st xs ds (answered s.mode 2 k .ack d ++ rest) t) (writing : st = .addrWAck ∨ st = .dataWAck)
    (step : SeqStep) (b : Byte) :
    Reaches (At s .dataWAck (xs ++ [Sym.tx b .ack]) ds rest) (atStepRun step (dataWPrim b) t) :=
  h.sendByte hw capturable inTime step (continueEvent_writing writing _ _) rfl nofun

/-! ### The bodies of READ and WRITE -/

/-- START, ADDR_W and the register select on a free bus (rules R180, R181). -/
theorem At.selectRegister (h : At s .idle xs ds (answered s.mode 1 k .ack 0 ++ (answered s.mode 2 k .ack 0 ++
      (answered s.mode 2 k .ack 0 ++ rest))) t) (s1 s2 s3 : SeqStep) :
    Reaches (At s .dataWAck (xs ++ [Sym.s] ++ [Sym.tx (writeFrame s.addr) .ack] ++ [Sym.tx s.reg .ack]) ds rest)
      (Machine.selectRegister s1 s2 s3 t) := by
  refine (h.startPattern hw capturable inTime s1 (e := .genStart) rfl (.inl rfl) rfl).gated fun t h => ?_
  refine (h.addrW hw capturable inTime (.inl rfl) s2).gated fun u h => ?_
  rw [← h.frame.reg]
  exact h.dataW hw capturable inTime (.inl rfl) s3 u.reg

/-- RD6: the bytes come in the order the slave sends them (rules R180, R190). -/
theorem At.readMore (bs : List Byte)
    (h : At s st xs ds (bs.flatMap (fun d => answered s.mode 1 k .ack d ++ [[]]) ++ rest) t)
    (reading : st = .addrRAck ∨ st = .dataRMore) :
    Reaches (fun u => ∃ st, (st = .addrRAck ∨ st = .dataRMore) ∧
      At s st (xs ++ bs.map fun b => Sym.rx b .ack) (ds ++ bs) rest u) (Machine.readMore bs.length t) := by
  induction bs generalizing t st xs ds with
  | nil => exact ⟨t, rfl, st, reading, by simpa using h⟩
  | cons b bs ih =>
    have first : At s st xs ds (answered s.mode 1 k .ack b ++ [] ::
        (bs.flatMap (fun d => answered s.mode 1 k .ack d ++ [[]]) ++ rest)) t := by simpa using h
    refine (first.readOne hw capturable inTime reading .rd6 true).gated fun u h => ?_
    simpa [ackOf] using ih h (.inr rfl)

/-- WR4: the bytes go out in list order (rules R65, R181). -/
theorem At.writeBytes (bs : List Byte)
    (h : At s .dataWAck xs ds ((List.replicate bs.length (answered s.mode 2 k .ack 0)).flatten ++ rest) t) :
    Reaches (At s .dataWAck (xs ++ bs.map fun b => Sym.tx b .ack) ds rest) (Machine.writeBytes bs t) := by
  induction bs generalizing t xs with
  | nil => exact ⟨t, rfl, by simpa using h⟩
  | cons b bs ih =>
    have first : At s .dataWAck xs ds (answered s.mode 2 k .ack 0 ++
        ((List.replicate bs.length (answered s.mode 2 k .ack 0)).flatten ++ rest)) t := by
      simpa [List.replicate_succ] using h
    refine (first.dataW hw capturable inTime (.inr rfl) .wr4 b).gated fun u h => ?_
    simpa using ih h.nextIndex

/-- The symbols of a READ that succeeds, but for the stop condition (rule R180). -/
def readSymbols (a : Addr7) (r : Byte) (bs : List Byte) (b : Byte) : List Sym :=
  [Sym.s, .tx (writeFrame a) .ack, .tx r .ack, .sr, .tx (readFrame a) .ack] ++ bs.map (fun x => Sym.rx x .ack) ++
    [Sym.rx b .nack]

/-- The symbols of a WRITE that succeeds, but for the stop condition (rule R181). -/
def writeSymbols (a : Addr7) (r : Byte) (bs : List Byte) : List Sym :=
  [Sym.s, .tx (writeFrame a) .ack, .tx r .ack] ++ bs.map fun x => Sym.tx x .ack

theorem At.readBody (bs : List Byte) (b : Byte) (length : s.count.toNat = bs.length + 1)
    (h : At s .idle [] [] (readPlan s.mode k (bs ++ [b]) ++ rest) t) :
    Reaches (At s .dataRLast (readSymbols s.addr s.reg bs b) (bs ++ [b]) ([] :: rest)) (Machine.readBody t) := by
  rw [readPlan_append] at h
  refine (h.selectRegister hw capturable inTime _ _ _).gated fun t h => ?_
  refine (h.startPattern hw capturable inTime .rd4 (e := .genRestart) rfl (.inr nofun) rfl).gated fun t h => ?_
  refine (h.addrR hw capturable inTime (.inr rfl) .rd5).gated fun t h => ?_
  have count : t.count.toNat - 1 = bs.length := by rw [h.frame.count, length]; rfl
  rw [count]
  refine (h.readMore hw capturable inTime bs (.inl rfl)).gated ?_
  rintro t ⟨st, reading, h⟩
  simpa [readSymbols, emittedSym, recvStatus, ackOf] using h.readOne hw capturable inTime reading .rd7 false

theorem At.writeBody (h : At s .idle [] [] (writePlan s.mode k s.txbuf.length ++ rest) t) :
    Reaches (At s .dataWAck (writeSymbols s.addr s.reg s.txbuf) [] ([] :: rest)) (Machine.writeBody t) := by
  simp only [writePlan, List.append_assoc] at h
  refine (h.selectRegister hw capturable inTime _ _ _).gated fun t h => ?_
  rw [← h.frame.txbuf] at h ⊢
  simpa [writeSymbols] using h.writeBytes hw capturable inTime t.txbuf

end

/-! ### The STOP of a planned run -/

/-- A transaction whose body succeeded, with no move before its STOP (rules R180, R181). -/
theorem runTransaction_reaches {body : Primitive} {s t : State} {st : BusStatus} {xs : List Sym} {ds : List Byte}
    {rest : List Gap} (hw : s.cfg.wf = true) (hbody : body s = .next (.ok, t)) (h : At s st xs ds ([] :: rest) t)
    (done failed : SeqStep) (drop deliver : State → State) :
    runTransaction body done failed drop deliver s = .next (deliver ((t.atStep done).withPlan rest).stopped) := by
  have hw' : ((t.atStep done).withPlan rest).cfg.wf = true := h.frame.cfg ▸ hw
  rw [runTransaction, hbody, andThen_ok]
  show andThen (stopBusPrim (t.atStep done)) _ = _
  rw [stopBusPrim_of_pause hw' (pause_quiet (t.atStep done) rest h.plan)]
  rfl

theorem At.stopped_trace {s t : State} {st : BusStatus} {xs : List Sym} {ds : List Byte} {gaps : List Gap}
    (h : At s st xs ds gaps t) (held : st ≠ .idle) (step : SeqStep) (rest : List Gap) :
    ((t.atStep step).withPlan rest).stopped.trace = s.trace ++ (xs ++ [Sym.p]) := by
  have own : t.own = true := h.own.trans (decide_eq_true held)
  rw [← List.append_assoc, ← h.trace]
  exact if_pos own

/-- A length as the count of a READ (rules R31, R92). -/
theorem count_toNat {n : Nat} {maxLen : Half} (fits : n ≤ maxLen.toNat) : (BitVec.ofNat 16 n).toNat = n := by
  rw [BitVec.toNat_ofNat]
  exact Nat.mod_eq_of_lt (fits.trans_lt maxLen.isLt)

/-- The two bytes of the count in the response (rule R90). -/
theorem count_bytes (n : Half) :
    n.extractLsb' 0 8 = BitVec.ofNat 8 n.toNat ∧ n.extractLsb' 8 8 = BitVec.ofNat 8 (n.toNat / 256) := by
  constructor <;> apply BitVec.eq_of_toNat_eq
  · simp
  · simp [Nat.shiftRight_eq_div_pow]

/-- A command accepted from rest stands at the idle phase with nothing emitted or appended (rule R188). -/
theorem Rest.at {s b : State} (rest : Rest s) (same : BusSame s b) (gaps : List Gap) (plan : b.env.plan = gaps) :
    At b .idle [] [] gaps b :=
  ⟨transactionFrame_framing.refl b, rfl, same.own.trans rest.not_own, same.phase.trans rest.phase_idle,
    same.pending.trans rest.nothing_pending, (List.append_nil _).symm, (List.append_nil _).symm, plan⟩

end Sys2Proof.Machine

open Sys2Proof Sys2Proof.Machine

/-- Settles O46: the run stands, after each primitive, where the plan has it, and the bytes appended are those the plan has
the slave send. -/
theorem readReturnsBytes : Obligations.ReadReturnsBytes := by
  intro s a r bs b k gaps ready rest capturable fits inTime plan
  generalize hn : BitVec.ofNat 16 (bs.length + 1) = n
  have length : n.toNat = bs.length + 1 := hn ▸ count_toNat fits
  have positive : 0 < n := by rw [BitVec.lt_def, length]; exact Nat.succ_pos _
  have hfits : n ≤ s.cfg.maxLen := by rw [BitVec.le_def, length]; exact fits
  have begins : At (s.beginRead a r n) .idle [] [] _ _ :=
    rest.at (b := s.beginRead a r n) ⟨rfl, rfl, rfl, rfl, rfl, rfl, rfl, rfl, rfl⟩ _ plan
  obtain ⟨t, hbody, h⟩ := begins.readBody (s := s.beginRead a r n) ready.cfg_wf capturable inTime bs b length
  have count : t.count = n := h.frame.count
  have rxbuf : t.rxbuf = bs ++ [b] := h.rxbuf
  refine ⟨((t.atStep .rd8).withPlan gaps).stopped.deliverRead, ?answers, rfl, ⟨rfl, rfl, rfl, rfl⟩, rxbuf,
    (congrArg BitVec.toNat count).trans length, ?response, ?trace, h.frame.addr, h.frame.reg,
    (congrArg BitVec.toNat count).trans length, ?idx, rfl⟩
  case answers =>
    rw [exec_read_accepted ready positive hfits, runTransaction_reaches (by exact ready.cfg_wf) hbody h]
    rfl
  case response =>
    obtain ⟨low, high⟩ := count_bytes n
    rw [← length, ← low, ← high, ← count, ← rxbuf]
    rfl
  case trace => exact (h.stopped_trace nofun .rd8 gaps).trans (by simp [readSymbols])
  case idx =>
    have idx : t.seq.idx = 0#16 + BitVec.ofNat 16 n.toNat := (readBody_received (s := s.beginRead a r n) positive hbody).idx
    rw [ofNat_budget, BitVec.zero_add, ← count] at idx
    exact idx

/-- Settles O47: as for READ, the bytes sent being those of TXBUF. -/
theorem writeSendsBytes : Obligations.WriteSendsBytes := by
  intro s a r bs k gaps ready rest capturable fits inTime plan
  have begins : At (s.beginWrite a r bs) .idle [] [] _ _ :=
    rest.at (b := s.beginWrite a r bs) ⟨rfl, rfl, rfl, rfl, rfl, rfl, rfl, rfl, rfl⟩ _ plan
  obtain ⟨t, hbody, h⟩ := begins.writeBody (s := s.beginWrite a r bs) ready.cfg_wf capturable inTime
  refine ⟨((t.atStep .wr5).withPlan gaps).stopped.deliverWrite, ?answers, rfl, ⟨rfl, rfl, rfl, rfl⟩, rfl, ?trace,
    h.frame.addr, h.frame.reg, h.frame.txbuf, ?idx, rfl⟩
  case answers =>
    rw [exec_write_accepted ready fits, runTransaction_reaches (by exact ready.cfg_wf) hbody h]
    rfl
  case trace => exact (h.stopped_trace nofun .wr5 gaps).trans (by simp [writeSymbols])
  case idx =>
    have idx : t.seq.idx = BitVec.ofNat 16 bs.length := (writeBody_idx hbody).trans (BitVec.zero_add _)
    exact (congrArg BitVec.toNat idx).trans (count_toNat fits)
end

section
/-!
INIT (44_init_clock_divider.md): the divisor in natural numbers, and the run of INIT in every environment. With nothing for
another agent to act on a gap changes GIE at most, so the state INIT leaves is known but for GIE and the environment.
-/
namespace Sys2Proof.Machine

/-! ### The divisor -/

/-- A quotient below 16 gives no positive divisor: the division truncates toward zero (rule R201). -/
theorem rawDivisor_nonpos {core bus : Hertz} (below : core.toNat / bus.toNat < 16) : rawDivisor core bus ≤ 0 := by
  rw [rawDivisor, ← Int.ofNat_tdiv, ← neg_sub, Int.neg_tdiv, neg_nonpos]
  exact Int.tdiv_nonneg (by omega) (by decide)

/-- From a quotient of 16 on the divisor is a natural number (rule R201). -/
theorem rawDivisor_natCast {core bus : Hertz} (above : 16 ≤ core.toNat / bus.toNat) :
    rawDivisor core bus = ((core.toNat / bus.toNat - 16) / 2 : Nat) := by
  rw [rawDivisor, ← Int.ofNat_tdiv, Int.ofNat_tdiv (_ - 16), Nat.cast_sub above]
  rfl

theorem clampByte_nonpos {d : Int} (h : d ≤ 0) : clampByte d = 0 := by
  obtain neg | rfl := h.lt_or_eq
  · exact if_pos neg
  · rfl

theorem clampByte_natCast (n : Nat) : clampByte n = BitVec.ofNat 8 (min 255 n) := by
  rw [clampByte, if_neg (by omega)]
  split
  · rw [Nat.min_eq_left (by omega)]
    rfl
  · rw [Nat.min_eq_right (by omega), Int.toNat_natCast]

/-- Half the excess of the quotient over 16, at most 255; the natural subtraction is the lower end of the clamp (rules R201,
R202). -/
theorem divisor_eq (core bus : Hertz) :
    divisor core bus = BitVec.ofNat 8 (min 255 ((core.toNat / bus.toNat - 16) / 2)) := by
  rw [divisor]
  obtain below | above := Nat.lt_or_ge (core.toNat / bus.toNat) 16
  · rw [clampByte_nonpos (rawDivisor_nonpos below), Nat.sub_eq_zero_of_le below.le]
    rfl
  · rw [rawDivisor_natCast above, clampByte_natCast]

/-! ### The checks of INIT -/

theorem exec_init_busy {s : State} (busy : s.busy = true) (m : Mode) (bus core : Hertz) :
    exec (.init m bus core) s = .refused .commandWhileBusy := if_pos busy

/-- After the refusals of rule R207 only the check of rule R208 is left. -/
theorem exec_init_idle {s : State} (idle : s.seq.op = none) (m : Mode) (bus core : Hertz) :
    exec (.init m bus core) s =
      if s.inited then .refused .secondInit
      else if bus = 0 then .next (s.rejected (.init m bus core))
      else (initBody m { s.begin .init with fBus := bus, fCore := core }).outcome := by
  have free : ¬ s.busy = true := by rw [State.busy, idle]; decide
  exact if_neg free

/-! ### Gaps in which no agent can reach the bus -/

/-- There is no event in flight, no status to capture and no stop condition being generated: nothing for the engine or the
capture step to act on (rules R112, R130, R135). -/
def Quiescent (s : State) : Prop := s.pending = none ∧ s.capPend = false ∧ s.cr.sto = false

/-- The state with another GIE and other inputs: what the surrounding system has in its hands (rules R28, R40). -/
def State.withHost (s : State) (gie : Bool) (env : Env) : State := { s with gie := gie, env := env }

/-- `t` is `s` but for what the surrounding system may change: GIE, where the premise of rule R259 lets it, and the gaps to
come. -/
structure HostMoved (s t : State) : Prop where
  same : t = s.withHost t.gie t.env
  cfg : t.env.cfg = s.env.cfg
  hostGie : t.env.hostGie = s.env.hostGie
  mayReset : t.env.mayReset = s.env.mayReset
  gie : s.env.hostGie = false → t.gie = s.gie

theorem HostMoved.refl (s : State) : HostMoved s s := ⟨rfl, rfl, rfl, rfl, fun _ => rfl⟩

theorem HostMoved.trans {s t u : State} (a : HostMoved s t) (b : HostMoved t u) : HostMoved s u where
  same := b.same.trans (congrArg (·.withHost u.gie u.env) a.same)
  cfg := b.cfg.trans a.cfg
  hostGie := b.hostGie.trans a.hostGie
  mayReset := b.mayReset.trans a.mayReset
  gie := fun h => (b.gie (a.hostGie.trans h)).trans (a.gie h)

theorem HostMoved.port {s t : State} (h : HostMoved s t) : t.port = s.port := (congrArg State.port h.same :)

theorem HostMoved.mode {s t : State} (h : HostMoved s t) : t.mode = s.mode := (congrArg State.mode h.same :)

/-- An update that neither reads nor writes GIE and the environment. -/
theorem HostMoved.update {s t : State} (h : HostMoved s t) (f : State → State)
    (commutes : ∀ v g e, f (v.withHost g e) = (f v).withHost g e) : HostMoved (f s) (f t) := by
  have gie : ∀ v, (f v).gie = v.gie := fun v => (congrArg State.gie (commutes v v.gie v.env) :)
  have env : ∀ v, (f v).env = v.env := fun v => (congrArg State.env (commutes v v.gie v.env) :)
  refine ⟨?_, ?_, ?_, ?_, ?_⟩ <;> simp only [gie, env]
  · exact (congrArg f h.same).trans (commutes s t.gie t.env)
  · exact h.cfg
  · exact h.hostGie
  · exact h.mayReset
  · exact h.gie

theorem Quiescent.hostMoved {s t : State} (q : Quiescent s) (h : HostMoved s t) : Quiescent t := by
  rw [h.same]
  exact q

theorem AgentFrame.hostMoved {s t : State} (f : AgentFrame s t) (same : t = s.withHost t.gie t.env) : HostMoved s t :=
  ⟨same, f.cfg, f.hostGie, f.mayReset, f.gie⟩

/-- With nothing to act on an agent other than the surrounding system does nothing (rules R9, R28). -/
theorem Quiescent.envMove {s : State} (q : Quiescent s) (m : EnvMove) : HostMoved s (envMove s m) := by
  obtain ⟨pending, capPend, sto⟩ := q
  refine (envMove_frame s m).hostMoved ?_
  cases m with
  | complete k d =>
    rw [Machine.envMove, engineStep_none k d pending]
    rfl
  | stopDone =>
    rw [Machine.envMove, stopDoneStep, ← sto]
    rfl
  | capture =>
    have disabled : ¬ s.captureEnabled = true := by simp [State.captureEnabled, capPend]
    rw [Machine.envMove, captureStep_disabled disabled]
    rfl
  | setGie on =>
    rw [Machine.envMove, setGieStep]
    split <;> rfl
  | reset => rfl

theorem Quiescent.gap {s : State} (q : Quiescent s) : HostMoved s (gap s) :=
  gap_induct (P := HostMoved s) (fun _ m h => h.trans ((q.hostMoved h).envMove m))
    (fun t h => h.trans ((afterGap_frame t).hostMoved rfl)) (.refl s)

/-! ### INIT -/

/-- Everything a part of INIT can do: it answers `u` but for what the surrounding system changed, or reset ends it; it is
never refused. -/
def Attains (u : State) : PartResult State → Prop
  | .next t => HostMoved u t
  | .abandoned t => ResetMeanwhile u t
  | .refused _ => False

/-- A part that attains `u`, and then the rest, which attains `v` from there. -/
theorem Attains.bind {u v : State} {o : PartResult State} {f : State → PartResult State} (h : Attains u o)
    (base : SameBase v u) (hf : ∀ t, HostMoved u t → Attains v (f t)) : Attains v (andThen o f) := by
  cases o with
  | next t => exact hf t h
  | abandoned t => exact base.reset h
  | refused r => exact h

theorem HostMoved.pause {s t : State} (h : HostMoved s t) (q : Quiescent s) : Attains s (pause t) := by
  rcases pause_cases t with ⟨-, hp⟩ | ⟨-, -, hp⟩
  · rw [hp]
    exact h.trans (q.hostMoved h).gap
  · rw [hp]
    exact SameBase.reset ⟨h.cfg, h.port, h.hostGie, h.mayReset⟩ (pause_abandoned hp)

/-- The bits of INIT's enabling write (rule R204). -/
def enableBits (m : Mode) : Control :=
  { int := false, ea := false, sta := false, sto := false, en := true, ie := modeIe m }

/-- INIT's enabling write leaves the interrupt bit clear, so it launches nothing (rules R131, R204). -/
theorem regWriteCR_patEnable {s : State} (hw : s.cfg.wf = true) :
    regWriteCR (patEnable s.cfg.layout s.mode) s = .next (s.storeEnables (enableBits s.mode)) := by
  rw [regWriteCR, patEnable, ofByte_byte (wf_distinct hw)]
  rfl

theorem storeEnables_enableBits {s : State} (sto : s.cr.sto = false) (m : Mode) :
    (s.storeEnables (enableBits m)).cr =
      { int := s.cr.int, ea := false, sta := false, sto := false, en := true, ie := decide (m = .irq) } := by
  cases m <;> simp [enableBits, modeIe, sto]

theorem HostMoved.enable {s t : State} (h : HostMoved s t) (q : Quiescent s) (hw : s.cfg.wf = true) :
    Attains (s.storeEnables (enableBits s.mode)) (controlStep patEnable t) := by
  refine (h.pause q).bind ⟨rfl, rfl, rfl, rfl⟩ fun u hu => ?_
  have wf : u.cfg.wf = true := (congrArg Params.wf hu.cfg).trans hw
  rw [regWriteCR_patEnable wf, hu.mode]
  exact hu.update (·.storeEnables (enableBits s.mode)) fun _ _ _ => rfl

/-- GIE after INIT in an environment that leaves it alone (rule R205). -/
theorem HostMoved.enableInterrupts {s t : State} (h : HostMoved s t) (q : Quiescent s) (m : Mode) :
    Attains { s with gie := s.gie || decide (m = .irq) } (enableInterrupts m t) := by
  cases m with
  | poll =>
    rw [show (s.gie || decide (Mode.poll = Mode.irq)) = s.gie from Bool.or_false _]
    exact h
  | irq =>
    rw [show (s.gie || decide (Mode.irq = Mode.irq)) = true from Bool.or_true _]
    refine (h.pause q).bind ⟨rfl, rfl, rfl, rfl⟩ fun u hu => ?_
    exact ⟨congrArg (·.withHost true u.env) hu.same, hu.cfg, hu.hostGie, hu.mayReset, fun _ => rfl⟩

/-- What INIT leaves in an environment that does nothing, its operands loaded in `s` (rule R200). -/
def State.configured (s : State) (m : Mode) : State :=
  let enabled := (s.setDivisor.setPrescaler.setMode m).storeEnables (enableBits m)
  { enabled with gie := s.gie || decide (m = Mode.irq) }.initDone

/-- The six micro-steps of INIT, in every environment (rule R200). -/
theorem initBody_attains {s : State} (q : Quiescent s) (hw : s.cfg.wf = true) (m : Mode) :
    Attains (s.configured m) (initBody m s) := by
  refine ((HostMoved.refl s).pause q).bind ⟨rfl, rfl, rfl, rfl⟩ fun t ht => ?_
  have ht := ht.update State.setDivisor fun _ _ _ => rfl
  refine (ht.pause q).bind ⟨rfl, rfl, rfl, rfl⟩ fun t ht => ?_
  have ht := ht.update State.setPrescaler fun _ _ _ => rfl
  refine (ht.pause q).bind ⟨rfl, rfl, rfl, rfl⟩ fun t ht => ?_
  have ht := ht.update (·.setMode m) fun _ _ _ => rfl
  refine (ht.enable q hw).bind ⟨rfl, rfl, rfl, rfl⟩ fun t ht => ?_
  refine (ht.enableInterrupts q m).bind ⟨rfl, rfl, rfl, rfl⟩ fun t ht => ?_
  refine (ht.pause q).bind ⟨rfl, rfl, rfl, rfl⟩ fun t ht => ?_
  exact ht.update State.initDone fun _ _ _ => rfl

end Sys2Proof.Machine

open Sys2Proof Sys2Proof.Machine

/-- Settles O15: both clauses are the divisor in natural numbers. -/
theorem divisorSaturates : Obligations.DivisorSaturates := by
  intro core bus _
  rw [divisor_eq]
  refine ⟨fun below => ?_, fun _ => ?_⟩
  · rw [Nat.sub_eq_zero_of_le below.le]
    rfl
  · rw [BitVec.toNat_ofNat]
    omega

/-- Settles O53: every gap of INIT leaves the bus alone, so INIT attains the configured state or reset ends it. -/
theorem initConfigures : Obligations.InitConfigures := by
  intro s m bus core idle uninitialized hw nonzero pending capPend sto configured
  have run : exec (.init m bus core) s = (initBody m { s.begin .init with fBus := bus, fCore := core }).outcome := by
    rw [exec_init_idle idle, uninitialized, if_neg Bool.false_ne_true, if_neg nonzero]
  have attains := initBody_attains (s := { s.begin .init with fBus := bus, fCore := core }) ⟨pending, capPend, sto⟩ hw m
  generalize initBody m _ = o at run attains
  cases o with
  | next t =>
    have done : configured := by
      refine ⟨t.gie, t.env, run.trans (congrArg Host.Outcome.next (attains.same.trans ?_)), attains.cfg, attains.gie⟩
      rw [← divisor_eq, ← storeEnables_enableBits sto]
      rfl
    exact ⟨fun _ => done, .inl done⟩
  | abandoned t =>
    have reset : ResetMeanwhile s t := attains
    exact ⟨fun never => absurd (never.symm.trans reset.1) Bool.false_ne_true, .inr ⟨t, run, reset⟩⟩
  | refused r => exact attains.elim

/-- Settles O54: the check of the bus frequency comes before any register is written. -/
theorem initZeroBusRejected : Obligations.InitZeroBusRejected := by
  refine ⟨fun s m core idle uninitialized => ?_, fun bus _ => ?_⟩
  · rw [exec_init_idle idle, uninitialized]
    rfl
  · rw [divisor_eq, show (0 : Hertz).toNat = 0 from rfl, Nat.zero_div]
    rfl

/-- Settles O55: the two refusals are the first checks of INIT and read no operand. -/
theorem secondInitRefused : Obligations.SecondInitRefused := by
  refine fun s m bus core => ⟨fun busy => exec_init_busy busy m bus core, fun ready => ?_⟩
  rw [exec_init_idle ready.op_none, ready.inited]
  rfl
end

section
/-!
With GIE at 0 the interrupt realization only times out (rules R119, R259): no capture step is enabled, so LATCH keeps
the idle code the control write left in it, and no sample of a wait shows anything else.
-/
namespace Sys2Proof.Machine

/-! ### A latch nothing is copied to -/

/-- The premise of rule R259: the interrupt realization with GIE at 0, which no agent changes. -/
structure Masked (s : State) : Prop where
  mode : s.mode = .irq
  gie : s.gie = false
  hostGie : s.env.hostGie = false

theorem PrimFrame.masked {s t : State} (f : PrimFrame s t) (h : Masked s) : Masked t :=
  ⟨f.mode.trans h.mode, (f.gie h.hostGie).trans h.gie, f.hostGie.trans h.hostGie⟩

theorem captureStep_masked {s : State} (h : Masked s) : captureStep s = s := by
  refine captureStep_disabled fun enabled => ?_
  obtain ⟨-, -, -, gie⟩ := (captureEnabled_iff s).1 enabled
  exact absurd (h.gie.symm.trans gie) (by decide)

/-- Only the capture step writes LATCH among the other agents' moves (rules R25, R112). -/
theorem envMove_latch {s : State} (h : Masked s) (m : EnvMove) : (envMove s m).latch = s.latch := by
  cases m with
  | complete k d =>
    rw [envMove, engineStep]
    split
    · rfl
    · next e _ =>
      split
      · cases e <;> rfl
      · rfl
  | stopDone => rfl
  | capture => exact congrArg State.latch (captureStep_masked h)
  | setGie on =>
    rw [envMove, setGieStep]
    split <;> rfl
  | reset => rfl

/-- A sample shows the idle code, and nothing will be captured to change that. -/
structure Deaf (s : State) : Prop where
  masked : Masked s
  latch : s.latch = s.code .idle

theorem AgentFrame.deaf {s t : State} (f : AgentFrame s t) (latch : t.latch = s.latch) (h : Deaf s) : Deaf t :=
  ⟨f.prim.masked h.masked, by rw [latch, code_of_cfg f.cfg, h.latch]⟩

theorem gap_deaf (s : State) (h : Deaf s) : Deaf (gap s) :=
  gap_induct (fun s m h => (envMove_frame s m).deaf (envMove_latch h.masked m) h)
    (fun s h => (afterGap_frame s).deaf rfl h) h

theorem Deaf.current {s : State} (h : Deaf s) : s.current = s.code .idle :=
  (current_latched h.masked.mode).trans h.latch

/-- A wait writes CNT only, which no sample looks at (rule R115). -/
theorem Deaf.count {s : State} (h : Deaf s) (n : Half) : Deaf { s with cnt := n } :=
  ⟨⟨h.masked.mode, h.masked.gie, h.masked.hostGie⟩, h.latch⟩

/-! ### The wait and the primitives -/

/-- A wait whose samples all show the idle code runs out its budget (rules R115, R119). -/
theorem waitUntil_deaf {target : BusStatus} {nack : Sibling} {s t : State} {r : ResultKind} (deaf : Deaf s)
    (hw : s.cfg.wf = true) (htarget : target ≠ .idle) (hnack : siblingNotIdle nack)
    (h : waitUntil target nack s = .next (r, t)) : r = .timeout ∧ t.cnt = s.cfg.timeoutBudget := by
  obtain ⟨frame, ended⟩ := waitUntil_spec h
  have stays : Deaf t := sampleLoop_induct gap_deaf (fun _ h => h.count _) (deaf.count 0) h
  have shows : ∀ st : BusStatus, t.current = s.code st → st = .idle := fun st hs =>
    code_injective hw (hs.symm.trans (stays.current.trans (code_of_cfg frame.cfg .idle)))
  cases ended with
  | timeout hcnt => exact ⟨rfl, hcnt.trans (cnt_at_budget _)⟩
  | ok _ _ _ hs => exact absurd (shows target hs) htarget
  | sibling _ _ _ st _ hn _ hs =>
    subst hn
    exact absurd (shows st hs) hnack

/-- The pattern sets INTC. -/
def Interrupting (pattern : Layout → Mode → Byte) : Prop :=
  ∀ (l : Layout) (m : Mode), (pattern l m).getLsbD l.crInt.val = true

theorem byte_crInt (l : Layout) {c : Control} (h : c.int = true) : (c.byte l).getLsbD l.crInt.val = true := by
  simp [Control.byte, bitAt_getLsbD, h]

theorem patStart_interrupting : Interrupting patStart := fun l _ => byte_crInt l rfl
theorem patPlain_interrupting : Interrupting patPlain := fun l _ => byte_crInt l rfl
theorem patAck_interrupting : Interrupting patAck := fun l _ => byte_crInt l rfl

/-- A primitive that can only time out while no capture is possible. -/
def TimesOutMasked (p : Primitive) : Prop :=
  ∀ (s t : State) (r : ResultKind), Masked s → s.cfg.wf = true → p s = .next (r, t) →
    r = .timeout ∧ t.cnt = s.cfg.timeoutBudget

/-- The control write leaves the idle code in LATCH (rule R113), which is all its wait then sees. -/
theorem controlAndWait_timesOutMasked {pattern : Layout → Mode → Byte} (intc : Interrupting pattern)
    (target : BusStatus) (nack : Sibling) (htarget : target ≠ .idle) (hnack : siblingNotIdle nack) :
    TimesOutMasked (controlAndWait pattern target nack) := by
  intro s t r masked hw h
  obtain ⟨u, hcontrol, hwait⟩ := andThen_next h
  have written := controlStep_next hcontrol
  have frame : PrimFrame s u := controlStep_prim hcontrol
  have cleared : StatusCleared u := regWriteCR_cleared (intc _ _) written
  have deaf : Deaf u := ⟨frame.masked masked, cleared.latch⟩
  rw [← frame.cfg] at hw ⊢
  exact waitUntil_deaf deaf hw htarget hnack hwait

theorem sendByte_timesOutMasked (b : Byte) (target : BusStatus) (nack : Sibling) (htarget : target ≠ .idle)
    (hnack : siblingNotIdle nack) : TimesOutMasked (sendByte b target nack) := by
  intro s t r masked hw h
  obtain ⟨u, hload, hsend⟩ := andThen_next h
  have frame : PrimFrame s u := loadStep_prim hload
  rw [← frame.cfg] at hw ⊢
  have waits := controlAndWait_timesOutMasked patPlain_interrupting target nack htarget hnack
  exact waits u t r (frame.masked masked) hw hsend

theorem receivePrim_timesOutMasked (more : Bool) : TimesOutMasked (receivePrim more) := by
  cases more with
  | false => exact controlAndWait_timesOutMasked patPlain_interrupting .dataRLast none nofun trivial
  | true => exact controlAndWait_timesOutMasked patAck_interrupting .dataRMore none nofun trivial

/-- DATA_R reads DR only after its wait succeeded (rule R167). -/
theorem dataRPrim_timesOutMasked (more : Bool) : TimesOutMasked (dataRPrim more) := by
  intro s t r masked hw h
  obtain ⟨u, hreceive, hread⟩ := dataRPrim_cases h
  obtain ⟨rfl, hcnt⟩ := receivePrim_timesOutMasked more s u r masked hw hreceive
  rcases hread with ⟨hok, -⟩ | ⟨-, rfl⟩
  · cases hok
  · exact ⟨rfl, hcnt⟩

/-- Every primitive but STOP waits (rule R160). -/
theorem Performs.timesOutMasked {i : Instr} {p : Primitive} {after : ResultKind → State → List Byte}
    (h : Performs i p after) (waits : i.opcode ≠ .stop) : TimesOutMasked p := by
  cases h with
  | start => exact controlAndWait_timesOutMasked patStart_interrupting .start none nofun trivial
  | restart => exact controlAndWait_timesOutMasked patStart_interrupting .restart none nofun trivial
  | stop => exact absurd rfl waits
  | addrW => exact fun s => sendByte_timesOutMasked (frame s.addr .write) .addrWAck (some (.addrWNack, _)) nofun nofun s
  | addrR => exact fun s => sendByte_timesOutMasked (frame s.addr .read) .addrRAck (some (.addrRNack, _)) nofun nofun s
  | dataW d => exact sendByte_timesOutMasked d .dataWAck (some (.dataWNack, _)) nofun nofun
  | dataR more => exact dataRPrim_timesOutMasked more

end Sys2Proof.Machine

open Sys2Proof Sys2Proof.Machine

/-- Settles O29: the checks pass and no register write of acceptance unmasks the interrupt, so the primitive times out
or reset ends it. -/
theorem maskedInterruptTimesOut : Obligations.MaskedInterruptTimesOut := by
  intro i s t ready ⟨primitive, waits⟩ mode gie hostGie he
  obtain ⟨p, after, performs⟩ := exists_performs primitive
  refine (performs.exec_next he).imp_right fun ⟨_, ended⟩ => ?_
  rcases ended with ⟨uninitialized, -⟩ | ⟨r, u, hrun, rfl⟩
  · exact absurd (ready.inited.symm.trans uninitialized) (by decide)
  · obtain ⟨timeout, cnt⟩ := performs.timesOutMasked waits (s.accepted i) u r ⟨mode, gie, hostGie⟩ ready.cfg_wf hrun
    exact ⟨timeout, cnt⟩
end

section
/-!
Reset, and a command while busy (70_reset_and_hazards.md, rules R250, R251, R255). Every command is one function of the
state that takes its gaps from the plan one at a time, its checks and refusals included; where reset ends it follows.
-/
namespace Sys2Proof.Machine

theorem step_resetLine {s : State} (asserted : s.env.resetLine = true) : step s = .next s.powerOn := by
  rw [step, nextAction, if_pos asserted]

theorem guarded_busy {s : State} (busy : s.busy = true) (op : Opcode) (go : State → PartResult State) :
    guarded op s go = .refused .commandWhileBusy := if_pos busy

/-! ### A command that ends initialized, or in reset -/

/-- A command begun after INIT leaves INITED, unless reset ends it (rules R29, R250). -/
theorem exec_inited {i : Instr} {s t : State} (inited : s.inited = true) (h : exec i s = .next t) :
    t.inited = true ∨ ResetMeanwhile s t := by
  have primitive : isPrimitive i → t.inited = true ∨ ResetMeanwhile s t := by
    intro hi
    obtain ⟨p, after, performs⟩ := exists_performs hi
    rcases performs.exec_next h with reset | ⟨-, ⟨-, rfl⟩ | ⟨r, u, hrun, rfl⟩⟩
    · exact .inr reset
    · exact .inl inited
    · exact .inl ((performs.framed hrun).inited.trans inited)
  cases i with
  | init m bus core =>
    change execInit m bus core s = _ at h
    rw [execInit, if_pos inited] at h
    split at h <;> cases h
  | read a r n =>
    rcases exec_read_next h with reset | ⟨-, rfl | hrun⟩
    · exact .inr reset
    · exact .inl inited
    · exact .inl (((readTransaction_runs _).next hrun).inited.trans inited)
  | write a r bs =>
    rcases exec_write_next h with reset | ⟨-, rfl | hrun⟩
    · exact .inr reset
    · exact .inl inited
    · exact .inl (((writeTransaction_runs _).next hrun).inited.trans inited)
  | start | restart | stop | addrW | addrR | dataW | dataR => exact primitive ⟨nofun, nofun, nofun⟩

/-! ### Every command takes its gaps one at a time -/

/-- A choice by what no gap to come decides. -/
theorem TakesGaps.ite {α : Type} {v : View α} {f g : State → PartResult α} (c : State → Prop) [DecidablePred c]
    (hc : ∀ s p, c (s.withPlan p) ↔ c s) (hf : TakesGaps v f) (hg : TakesGaps v g) :
    TakesGaps v fun s => if c s then f s else g s := by
  intro s gs
  simp only [hc]
  by_cases h : c s
  · simpa only [if_pos h] using hf s gs
  · simpa only [if_neg h] using hg s gs

theorem refused_takesGaps (x : Refusal) : TakesGaps View.self fun _ => .refused x :=
  fun _ => .pure (.refused x) (fun _ h => by cases h) fun _ => rfl

theorem reject_takesGaps (op : Option Opcode) : TakesGaps View.self fun s => .next (s.reject op) :=
  fun _ => .answer (v := View.self) (·.reject op) ⟨rfl, rfl, rfl, rfl⟩ fun _ => rfl

/-- A command whose micro-steps are `f` after an update of the state that looks at no gap. -/
theorem TakesGaps.loaded {f : State → PartResult State} (hf : TakesGaps View.self f) (m : State → State)
    (hb : ∀ s, SameBase s (m s)) (h : ∀ s p, m (s.withPlan p) = (m s).withPlan p) :
    TakesGaps View.self fun s => f (m s) :=
  fun s => hf.update m (hb s) (h s)

/-- The command is, in every state, the outcome of a function that takes its gaps one at a time. -/
def CommandTakesGaps (i : Instr) : Prop :=
  ∃ f : State → PartResult State, TakesGaps View.self f ∧ ∀ s, exec i s = (f s).outcome

/-- The checks of `guarded` look at no gap (rules R170, R183, R255). -/
theorem commandTakesGaps_of_guarded {i : Instr} {op : Opcode} {go : State → PartResult State}
    (hgo : TakesGaps View.self go) (h : ∀ s, exec i s = guarded op s go) : CommandTakesGaps i := by
  refine ⟨_, .ite (fun s => s.busy = true) (fun _ _ => .rfl) (refused_takesGaps .commandWhileBusy)
    (.ite (fun s => s.inited = true) (fun _ _ => .rfl) hgo (reject_takesGaps (some op))), fun s => ?_⟩
  rw [h, guarded]
  split
  · rfl
  · split <;> rfl

section
variable {i : Instr} {p : Primitive} {after : ResultKind → State → List Byte}

theorem Performs.takesGaps (h : Performs i p after) : TakesGaps View.primitive p := by
  cases h with
  | start => exact startPrim_takesGaps
  | restart => exact restartPrim_takesGaps
  | stop => exact fun s => Meets.bind (stopBusPrim_takesGaps s) (passOn_meets .ok)
  | addrW => exact addrPrim_takesGaps .write
  | addrR => exact addrPrim_takesGaps .read
  | dataW d => exact dataWPrim_takesGaps d
  | dataR more => exact dataRPrim_takesGaps more

/-- What a response carries besides the result is read from no gap. -/
theorem Performs.after_withPlan (h : Performs i p after) (r : ResultKind) (s : State) (gs : List Gap) :
    after r (s.withPlan gs) = after r s := by
  cases h with
  | dataR more => cases r <;> rfl
  | start | restart | stop | addrW | addrR | dataW => rfl

theorem Performs.commandTakesGaps (h : Performs i p after) : CommandTakesGaps i :=
  commandTakesGaps_of_guarded
    ((runPrimitive_takesGaps h.takesGaps h.after_withPlan).loaded (·.accepted i) (fun _ => ⟨rfl, rfl, rfl, rfl⟩)
      fun _ _ => rfl)
    h.exec_eq

end

theorem init_commandTakesGaps (m : Mode) (bus core : Hertz) : CommandTakesGaps (.init m bus core) := by
  refine ⟨_, .ite (fun s => s.busy = true) (fun _ _ => .rfl) (refused_takesGaps .commandWhileBusy)
    (.ite (fun s => s.inited = true) (fun _ _ => .rfl) (refused_takesGaps .secondInit)
    (.ite (fun _ => bus = 0) (fun _ _ => .rfl) (reject_takesGaps (some .init))
      ((initBody_takesGaps m).loaded (fun s => { s.begin .init with fBus := bus, fCore := core })
        (fun _ => ⟨rfl, rfl, rfl, rfl⟩) fun _ _ => rfl))), fun s => ?_⟩
  change execInit m bus core s = _
  rw [execInit]
  split
  · rfl
  · split
    · rfl
    · split <;> rfl

theorem read_commandTakesGaps (a : Addr7) (r : Byte) (n : Half) : CommandTakesGaps (.read a r n) := by
  have transaction : TakesGaps View.self (runTransaction readBody .rd8 .rdf State.dropRead State.deliverRead) :=
    runTransaction_takesGaps readBody_takesGaps _ _ (fun _ => ⟨rfl, rfl, rfl, rfl⟩) (fun _ => ⟨rfl, rfl, rfl, rfl⟩)
      (fun _ _ => rfl) fun _ _ => rfl
  exact commandTakesGaps_of_guarded
    (.ite (fun _ => n = 0) (fun _ _ => .rfl) (reject_takesGaps _)
      (.ite (fun s => s.cfg.maxLen < n) (fun _ _ => .rfl) (reject_takesGaps _)
        (transaction.loaded (·.beginRead a r n) (fun _ => ⟨rfl, rfl, rfl, rfl⟩) fun _ _ => rfl)))
    fun s => (rfl : execRead a r n s = _)

theorem write_commandTakesGaps (a : Addr7) (r : Byte) (bs : List Byte) : CommandTakesGaps (.write a r bs) := by
  have transaction : TakesGaps View.self (runTransaction writeBody .wr5 .wrf keepBuffers State.deliverWrite) :=
    runTransaction_takesGaps writeBody_takesGaps _ _ SameBase.rfl' (fun _ => ⟨rfl, rfl, rfl, rfl⟩)
      (fun _ _ => rfl) fun _ _ => rfl
  exact commandTakesGaps_of_guarded
    (.ite (fun s => s.cfg.maxLen.toNat < bs.length) (fun _ _ => .rfl) (reject_takesGaps _)
      (transaction.loaded (·.beginWrite a r bs) (fun _ => ⟨rfl, rfl, rfl, rfl⟩) fun _ _ => rfl))
    fun s => (rfl : execWrite a r bs s = _)

theorem exec_commandTakesGaps (i : Instr) : CommandTakesGaps i := by
  have primitive (hi : isPrimitive i) : CommandTakesGaps i := by
    obtain ⟨p, after, performs⟩ := exists_performs hi
    exact performs.commandTakesGaps
  cases i with
  | init m bus core => exact init_commandTakesGaps m bus core
  | read a r n => exact read_commandTakesGaps a r n
  | write a r bs => exact write_commandTakesGaps a r bs
  | start | restart | stop | addrW | addrR | dataW | dataR => exact primitive ⟨nofun, nofun, nofun⟩

/-- Reset in a gap that a command takes ends it there (rule R250). -/
theorem exec_reset_in_gap {i : Instr} {s t : State} {gs more rest : List Gap} {g0 g : Gap}
    (may : s.env.mayReset = true) (plan : s.env.plan = gs ++ g0 :: more) (h : exec i s = .next t)
    (taken : t.env.plan.length ≤ more.length) (hg : .reset ∈ g) :
    ∃ u, exec i (s.withPlan (gs ++ g :: rest)) = .next u ∧ Abandoned s u ∧ u.env.plan = rest := by
  obtain ⟨f, takes, hf⟩ := exec_commandTakesGaps i
  have same : s.withPlan (gs ++ g0 :: more) = s := by rw [← plan]; rfl
  rw [hf]
  refine takes.outcome_reset (t := t) (more := more) (g0 := g0) ?_ taken may hg
  rw [same, ← hf, h]

/-! ### The gaps of a command whose start is never generated -/

theorem Ready.withPlan {s : State} (h : Ready s) (gaps : List Gap) : Ready (s.withPlan gaps) :=
  ⟨h.op_none, h.inited, h.cfg_wf⟩

/-- Begun in `s` with no move to come, the command takes a gap before its first control write and one before each sample
of its first wait, if not more. -/
def OutlastsWait (s : State) (i : Instr) : Prop :=
  ∃ n t, s.cfg.timeoutBudget.toNat ≤ n ∧ exec i (s.withPlan (quiet (n + 1))) = .next t ∧ t.env.plan = []

/-- START ends with its wait (rules R115, R161). -/
theorem start_outlastsWait {s : State} (ready : Ready s) (free : s.own = false) : OutlastsWait s .start := by
  have ready' := ready.withPlan (quiet (s.cfg.timeoutBudget.toNat + 1))
  have plan : quiet (s.cfg.timeoutBudget.toNat + 1) = quiet (1 + s.cfg.timeoutBudget.toNat) ++ [] := by
    rw [List.append_nil, Nat.add_comm]
  obtain ⟨tr, answers⟩ :=
    unansweredStartTimesOut (s.withPlan (quiet (s.cfg.timeoutBudget.toNat + 1))) [] ready' free plan
  exact ⟨_, _, Nat.le_refl _, answers, rfl⟩

theorem selectRegister_unanswered {s : State} (hw : s.cfg.wf = true) {rest : List Gap}
    (plan : s.env.plan = [] :: (quiet s.cfg.timeoutBudget.toNat ++ rest)) (s1 s2 s3 : SeqStep) :
    ∃ t, selectRegister s1 s2 s3 s = .next (.timeout, t) ∧ t.env.plan = rest := by
  have start := startPrim_quiet (s := s.atStep s1) hw plan
  exact ⟨_, by rw [selectRegister, atStepRun, start]; rfl, rfl⟩

/-- The gaps of a transaction's START and of the STOP after it. -/
theorem quiet_startAndStop (n : Nat) : quiet (n + 1 + 1) = [] :: (quiet n ++ [[]]) := by
  rw [quiet_succ, quiet, List.replicate_succ']; rfl

/-- A transaction that begins with the register select ends with the TIMEOUT of its START, and takes one more gap before
its STOP (rules R182, R187). -/
theorem runTransaction_unanswered {body : Primitive} {done failed s1 s2 s3 : SeqStep} {drop deliver : State → State}
    (runs : PrimRuns body)
    (selects : ∀ {s t : State}, selectRegister s1 s2 s3 s = .next (.timeout, t) → body s = .next (.timeout, t))
    (keepsPlan : ∀ s, (drop s).env.plan = s.env.plan) (s : State) (hw : s.cfg.wf = true)
    (plan : s.env.plan = quiet (s.cfg.timeoutBudget.toNat + 1 + 1)) :
    ∃ u, runTransaction body done failed drop deliver s = .next u ∧ u.env.plan = [] := by
  obtain ⟨t, select, left⟩ := selectRegister_unanswered hw (plan.trans (quiet_startAndStop _)) s1 s2 s3
  have timeout : body s = .next (.timeout, t) := selects select
  have wf : t.cfg.wf = true := by rw [((runs s).next timeout).cfg, hw]
  have stop := stopBusPrim_of_pause (s := t.atStep failed) (u := (t.atStep failed).withPlan []) wf
    (pause_quiet (t.atStep failed) [] left)
  refine ⟨(drop ((t.atStep failed).withPlan []).stopped).finish .timeout [], ?_, keepsPlan _⟩
  rw [runTransaction, timeout, andThen_ok]
  show unwind failed drop .timeout t = _
  rw [unwind, stop]
  rfl

theorem read_outlastsWait {s : State} (ready : Ready s) {n : Half} (positive : 0 < n) (fits : n ≤ s.cfg.maxLen)
    (a : Addr7) (r : Byte) : OutlastsWait s (.read a r n) := by
  have ready' := ready.withPlan (quiet (s.cfg.timeoutBudget.toNat + 1 + 1))
  obtain ⟨u, ends, taken⟩ := runTransaction_unanswered (done := .rd8) (failed := .rdf) (drop := State.dropRead)
    (deliver := State.deliverRead) readBody_runs (fun h => by rw [readBody, h]; rfl) (fun _ => rfl)
    ((s.withPlan (quiet (s.cfg.timeoutBudget.toNat + 1 + 1))).beginRead a r n) ready'.cfg_wf rfl
  exact ⟨_, u, Nat.le_succ _, by rw [exec_read_accepted ready' positive fits, ends]; rfl, taken⟩

theorem write_outlastsWait {s : State} (ready : Ready s) {bs : List Byte} (fits : bs.length ≤ s.cfg.maxLen.toNat)
    (a : Addr7) (r : Byte) : OutlastsWait s (.write a r bs) := by
  have ready' := ready.withPlan (quiet (s.cfg.timeoutBudget.toNat + 1 + 1))
  obtain ⟨u, ends, taken⟩ := runTransaction_unanswered (done := .wr5) (failed := .wrf) (drop := keepBuffers)
    (deliver := State.deliverWrite) writeBody_runs (fun h => by rw [writeBody, h]; rfl) (fun _ => rfl)
    ((s.withPlan (quiet (s.cfg.timeoutBudget.toNat + 1 + 1))).beginWrite a r bs) ready'.cfg_wf rfl
  exact ⟨_, u, Nat.le_succ _, by rw [exec_write_accepted ready' fits, ends]; rfl, taken⟩

/-- Such a command meets, after `j` quiet gaps, the reset in the next one: it takes that gap (rule R250). -/
theorem OutlastsWait.reset {s : State} {i : Instr} (h : OutlastsWait s i) (may : s.env.mayReset = true) {j : Nat}
    (inTime : j ≤ s.cfg.timeoutBudget.toNat) {g : Gap} (hg : .reset ∈ g) {rest : List Gap}
    (plan : s.env.plan = quiet j ++ g :: rest) : ∃ u, exec i s = .next u ∧ Abandoned s u ∧ u.env.plan = rest := by
  obtain ⟨n, t, hn, ends, taken⟩ := h
  have gaps : quiet (n + 1) = quiet j ++ [] :: quiet (n - j) := by
    rw [← quiet_succ, quiet, quiet, quiet, ← List.replicate_add]
    congr 1
    omega
  have same : s.withPlan (quiet j ++ g :: rest) = s := by rw [← plan]; rfl
  rw [← same]
  exact exec_reset_in_gap (s := s.withPlan (quiet (n + 1))) may gaps ends (by simp [taken]) hg

end Sys2Proof.Machine

open Sys2Proof Sys2Proof.Machine

/-- Settles O60: what ends a command uninitialized is reset; every command takes its gaps one at a time, so reset in any
of them ends it; and with no move START, READ and WRITE take a gap for each sample of the first wait. -/
theorem resetAbandonsCommand : Obligations.ResetAbandonsCommand := by
  refine ⟨fun i s t inited h => exec_inited inited h, fun i s t gs more rest g0 g may plan h taken hg =>
    exec_reset_in_gap may plan h taken hg, ?_⟩
  intro i s j g rest ready atRest may command inTime hg plan
  have outlasts : OutlastsWait s i := by
    rcases command with rfl | ⟨a, r, n, rfl, positive, fits⟩ | ⟨a, r, bs, rfl, fits⟩
    · exact start_outlastsWait ready atRest.not_own
    · exact read_outlastsWait ready positive fits a r
    · exact write_outlastsWait ready fits a r
  exact outlasts.reset may inTime hg plan

/-- Settles O5, by the power-on state the step leaves; only the read of CR takes a lemma. -/
theorem resetLinePowersOn : Obligations.ResetLinePowersOn := by
  intro s asserted
  exact ⟨s.powerOn, step_resetLine asserted, ⟨rfl, rfl, rfl, rfl⟩, rfl, byte_allClear _, rfl, rfl, rfl, rfl, rfl,
    rfl, rfl, rfl, rfl, rfl, rfl, rfl, rfl, rfl, rfl, rfl⟩

/-- Settles O56: the check for BUSY is the first of every command. -/
theorem commandWhileBusyRefused : Obligations.CommandWhileBusyRefused := by
  intro i s busy
  by_cases hinit : i.opcode = .init
  · cases i <;> cases hinit
    exact exec_init_busy busy _ _ _
  · obtain ⟨go, hexec⟩ := exec_guarded hinit s
    rw [hexec, guarded_busy busy]
end
